-- ==== Sys2Proof/Word.lean ====
section
/-! DEFINITION. Words, addressing modes and parameters. A word is a signed integer that the spec
never reads as bits, so the content of a cell, of `pc`, of `relative_base` or of a port is an `Int`;
that it lies in the range of a word is the predicate `IsWord` (00_scope R8, R10; log entry 1). -/

namespace Sys2Proof

/-- `WMIN = -2^(WORD_BITS-1)` (R8). -/
def wmin (bits : Nat) : Int := -((2 ^ (bits - 1) : Nat) : Int)

/-- `WMAX = 2^(WORD_BITS-1) - 1` (R8). -/
def wmax (bits : Nat) : Int := ((2 ^ (bits - 1) : Nat) : Int) - 1

/-- `v` lies in `[WMIN, WMAX]` (R8). -/
abbrev IsWord (bits : Nat) (v : Int) : Prop := wmin bits ≤ v ∧ v ≤ wmax bits

/-- The meaning of a mode digit (30_encoding R65, R66). The digits 3 to 9 have no meaning in any
source; `reserved k` is the digit `k + 3`. It is kept, not refused by the decoder, because R69 raises
`INVALID_MODE` only when the parameter's turn comes. -/
inductive Mode where
  /-- 0: the parameter word is an address to read or write -/
  | position
  /-- 1: the parameter word is the value itself -/
  | immediate
  /-- 2: the parameter word is an offset from `relative_base` -/
  | relative
  /-- 3 to 9: `INVALID_MODE` when the parameter is resolved -/
  | reserved (k : Fin 7)
deriving DecidableEq, Repr

/-- One parameter of an instruction: its mode and its parameter word `raw_i` (R65). -/
structure Param where
  mode : Mode
  raw : Int
deriving DecidableEq, Repr

end Sys2Proof
end

