-- ==== Sys2Proof/Machine/Flags.lean ====
section
/-! DEFINITION. The block has no flags (10_state R35). What stands in their place: the 0/1 word a
comparison writes to memory, and the test a conditional jump makes of a parameter's value. -/

namespace Sys2Proof.Machine

/-- The word a comparison writes (R88, R89). -/
def boolWord (b : Bool) : Int := if b then 1 else 0

/-- `a < b`, signed (R88). -/
def lessThan (a b : Int) : Bool := decide (a < b)

/-- `a == b`, whole words (R89). -/
def equalTo (a b : Int) : Bool := decide (a = b)

/-- The test of `jnz` and `jz` against 0, a whole-word compare (R105, R106). -/
def isZero (a : Int) : Bool := decide (a = 0)

end Sys2Proof.Machine
end

