-- ==== Sys2Proof/Config.lean ====
section
/-! DEFINITION. The implementation parameters of 00_scope.md section 3 that a tick depends on. -/

namespace Sys2Proof

/-- `UNUSED_MODE_POLICY` (30_encoding R68): what happens to the mode digits of parameter positions
that an opcode does not use. -/
inductive UnusedModePolicy where
  /-- an unused digit has no effect -/
  | ignore
  /-- an unused digit outside 0, 1, 2 raises `INVALID_MODE` -/
  | faultIfInvalid
  /-- any non-zero unused digit raises `INVALID_MODE` -/
  | faultIfNonzero
deriving DecidableEq, Repr

/-- The parameters "the model takes ... as an argument" (00_scope.md section 3). They are fixed for a
machine: `State` carries them and no step writes them (log entry 2). -/
structure Config where
  /-- `WORD_BITS`, the width of a word (R8). -/
  wordBits : Nat
  /-- `MEM_CAP`, a write at this address or above faults (R42). -/
  memCap : Nat
  /-- `UNUSED_MODE_POLICY` (R68). -/
  unusedMode : UnusedModePolicy
deriving DecidableEq, Repr

/-- The spec's defaults: 64 bits (D1), every non-negative word an address (D7), unused digits
ignored (D5). DESIGN CHOICE of the spec, unsafe where the reference differs (log entry 2). -/
def Config.default : Config :=
  { wordBits := 64, memCap := 2 ^ 63, unusedMode := .ignore }

/-- A width at which the words the instructions write without a check (0, 1 and -1) are words.
DEDUCED from R88, R89 and R95 (log entry 5). -/
abbrev Config.legal (c : Config) : Prop := 2 ≤ c.wordBits

end Sys2Proof
end

