-- ==== Sys2Proof/Syntax.lean ====
section
/-! DEFINITION. The instructions: one constructor per row of spec/opcode_table.json, its parameters in
the order of 30_encoding R64. -/

namespace Sys2Proof

inductive Instr where
  /-- opcode 1: `dest = a + b` (R86) -/
  | add (a b dest : Param)
  /-- opcode 2: `dest = a * b` (R87) -/
  | mul (a b dest : Param)
  /-- opcode 3: `dest = next_input()` (R91) -/
  | input (dest : Param)
  /-- opcode 4: `emit_output(a)` (R98) -/
  | output (a : Param)
  /-- opcode 5: jump to `target` if `a` is not 0 (R105) -/
  | jnz (a target : Param)
  /-- opcode 6: jump to `target` if `a` is 0 (R106) -/
  | jz (a target : Param)
  /-- opcode 7: `dest = 1` if `a < b`, else 0 (R88) -/
  | lt (a b dest : Param)
  /-- opcode 8: `dest = 1` if `a = b`, else 0 (R89) -/
  | eq (a b dest : Param)
  /-- opcode 9: `relative_base += a` (R107) -/
  | adjrel (a : Param)
  /-- opcode 99: set Halted (R108) -/
  | halt
deriving DecidableEq, Repr

end Sys2Proof
end

