-- ==== Sys2Proof/WellFormed.lean ====
section
/-! DEFINITION. The well-formed instructions: the legal forms of 30_encoding R72 and R73 whose
parameter words are words. The machine does not ask for this: an ill-formed form runs into the fault
the spec names for it. -/

namespace Sys2Proof

/-- The parameter word is a word of the given width (R65). -/
def Param.rawFits (bits : Nat) (p : Param) : Bool := decide (IsWord bits p.raw)

/-- A read parameter has one of the three modes (R65, R66). -/
def Param.readOk (bits : Nat) (p : Param) : Bool :=
  p.rawFits bits &&
    match p.mode with
    | .position | .immediate | .relative => true
    | .reserved _ => false

/-- A dest parameter is "never immediate" (R64, R67). -/
def Param.destOk (bits : Nat) (p : Param) : Bool :=
  p.rawFits bits &&
    match p.mode with
    | .position | .relative => true
    | .immediate | .reserved _ => false

/-- The legal instructions (R72, R73) at a word width. -/
def Instr.wf (bits : Nat) : Instr → Bool
  | .add a b d => a.readOk bits && b.readOk bits && d.destOk bits
  | .mul a b d => a.readOk bits && b.readOk bits && d.destOk bits
  | .input d => d.destOk bits
  | .output a => a.readOk bits
  | .jnz a t => a.readOk bits && t.readOk bits
  | .jz a t => a.readOk bits && t.readOk bits
  | .lt a b d => a.readOk bits && b.readOk bits && d.destOk bits
  | .eq a b d => a.readOk bits && b.readOk bits && d.destOk bits
  | .adjrel a => a.readOk bits
  | .halt => true

end Sys2Proof
end

