-- ==== Sys2Proof/Decode.lean ====
section
/-! DEFINITION. Decoding and encoding (30_encoding R60 to R74). The encoding is decimal. -/

namespace Sys2Proof

/-- `digit_k(w) = (w div 10^k) mod 10`, for `w >= 0` (00_scope R11). -/
def digit (k w : Nat) : Nat := w / 10 ^ k % 10

/-- The mode a digit stands for (R61, R65). Only the digits 0 to 9 are ever passed. -/
def Mode.ofDigit : Nat → Mode
  | 0 => .position
  | 1 => .immediate
  | 2 => .relative
  | n + 3 => .reserved (Fin.ofNat 7 n)

/-- The digit that encodes a mode (R61). -/
def Mode.digit : Mode → Nat
  | .position => 0
  | .immediate => 1
  | .relative => 2
  | .reserved k => k.val + 3

/-- The opcode number (R64). -/
def Instr.opcode : Instr → Nat
  | .add .. => 1
  | .mul .. => 2
  | .input .. => 3
  | .output .. => 4
  | .jnz .. => 5
  | .jz .. => 6
  | .lt .. => 7
  | .eq .. => 8
  | .adjrel .. => 9
  | .halt => 99

/-- The parameters in order (R64). -/
def Instr.params : Instr → List Param
  | .add a b d => [a, b, d]
  | .mul a b d => [a, b, d]
  | .input d => [d]
  | .output a => [a]
  | .jnz a t => [a, t]
  | .jz a t => [a, t]
  | .lt a b d => [a, b, d]
  | .eq a b d => [a, b, d]
  | .adjrel a => [a]
  | .halt => []

/-- `arity(op)` (R64). -/
def Instr.arity (i : Instr) : Nat := i.params.length

/-- The number of words an instruction occupies (R60, R74). -/
def Instr.width (i : Instr) : Nat := i.arity + 1

/-- The opcode map (R64, R71): the instruction of an opcode number, given its three possible
parameters. -/
def build (op : Nat) (p1 p2 p3 : Param) : Option Instr :=
  match op with
  | 1 => some (.add p1 p2 p3)
  | 2 => some (.mul p1 p2 p3)
  | 3 => some (.input p1)
  | 4 => some (.output p1)
  | 5 => some (.jnz p1 p2)
  | 6 => some (.jz p1 p2)
  | 7 => some (.lt p1 p2 p3)
  | 8 => some (.eq p1 p2 p3)
  | 9 => some (.adjrel p1)
  | 99 => some .halt
  | _ => none

/-- Why a word decodes to no instruction. -/
inductive DecodeReject where
  /-- `UNKNOWN_OPCODE`: a negative word or an unassigned opcode (R63, R71) -/
  | unknownOpcode (w : Int)
  /-- `INVALID_MODE`: an unused mode digit that the policy refuses (R68) -/
  | invalidMode (i digit : Nat)
deriving DecidableEq, Repr

/-- Whether the policy refuses the digit of an unused position (R68). -/
def refusesUnused (pol : UnusedModePolicy) (d : Nat) : Bool :=
  match pol with
  | .ignore => false
  | .faultIfInvalid => decide (2 < d)
  | .faultIfNonzero => decide (d ≠ 0)

/-- The first of the positions `arity+1 .. 3` whose mode digit the policy refuses (R68, R69). -/
def unusedRefusal (pol : UnusedModePolicy) (arity w : Nat) : Option (Nat × Nat) :=
  ([1, 2, 3].find? fun i => decide (arity < i) && refusesUnused pol (digit (i + 1) w)).map
    fun i => (i, digit (i + 1) w)

/-- The parameter at position `i` of an instruction whose words are `ws` (R61, R65). -/
def paramOf (ws : List Int) (w i : Nat) : Param :=
  { mode := Mode.ofDigit (digit (i + 1) w), raw := ws.getD i 0 }

/-- Decoding (R63, then the unused digits of R68), total on every list of words: the first is the
instruction word, the next are the parameter words; words that are not there read as 0, as memory
beyond the extent does (R65). -/
def decode (pol : UnusedModePolicy) (ws : List Int) : Except DecodeReject Instr :=
  let w := ws.getD 0 0
  if w < 0 then .error (.unknownOpcode w)
  else
    let u := w.toNat
    match build (u % 100) (paramOf ws u 1) (paramOf ws u 2) (paramOf ws u 3) with
    | none => .error (.unknownOpcode w)
    | some i =>
      match unusedRefusal pol i.arity u with
      | some (k, d) => .error (.invalidMode k d)
      | none => .ok i

/-- The mode digits of the parameters as one number, the first parameter's the least (R61). -/
def modeDigits : List Param → Nat
  | [] => 0
  | p :: ps => p.mode.digit + 10 * modeDigits ps

/-- The canonical instruction word `opcode + 100*mode_1 + 1000*mode_2 + 10000*mode_3` (R61). -/
def instrWord (i : Instr) : Int := ((i.opcode + 100 * modeDigits i.params : Nat) : Int)

/-- The words of an instruction: its instruction word, then its parameter words (R60). -/
def encode (i : Instr) : List Int := instrWord i :: i.params.map Param.raw

/-- The word whose two's-complement bits are the low `bits` bits of `u` (R8). -/
def wordOfBits (bits u : Nat) : Int :=
  let v := u % 2 ^ bits
  if v < 2 ^ (bits - 1) then (v : Int) else (v : Int) - ((2 ^ bits : Nat) : Int)

/-- The four words packed in `u`, the first in the least significant bits; the bits from `nbits` up
count as 0. DESIGN CHOICE: the table numbers no bits (log entry 23). -/
def unpackWords (bits nbits u : Nat) : List Int :=
  let v := u % 2 ^ nbits
  [wordOfBits bits v, wordOfBits bits (v / 2 ^ bits), wordOfBits bits (v / 2 ^ (2 * bits)),
    wordOfBits bits (v / 2 ^ (3 * bits))]

/-- What the decoder reads from an opcode-table word, at the default parameters. -/
def decodeTableWord (nbits w : Nat) : Option Instr :=
  match decode Config.default.unusedMode (unpackWords Config.default.wordBits nbits w) with
  | .ok i => some i
  | .error _ => none

end Sys2Proof
end

