-- ==== Sys2Proof/Machine/State.lean ====
section
/-! DEFINITION. The state of one machine instance and of the channels its endpoints attach to
(10_state R20 to R38), and the reset state (70_reset_and_hazards R151). -/

namespace Sys2Proof.Machine

/-- 10_state R26. -/
inductive Status where
  | running
  | halted
  | faulted
deriving DecidableEq, Repr

/-- Which transition set `Halted` (10_state R27); no halt is `none` of `Option HaltCause`. -/
inductive HaltCause where
  /-- `OPCODE_99` (R108) -/
  | opcode99
  /-- `SEND_FAILED` (R97) -/
  | sendFailed
  /-- `PRODUCER_GONE` (R93) -/
  | producerGone
deriving DecidableEq, Repr

/-- The fault codes of 60_exceptions R111; "the `name` is the identity that matters". -/
inductive FaultCode where
  /-- 1, `UNKNOWN_OPCODE` -/
  | unknownOpcode
  /-- 2, `NEGATIVE_ADDRESS` -/
  | negativeAddress
  /-- 3, `IMMEDIATE_WRITE` -/
  | immediateWrite
  /-- 4, `INPUT_NOT_WIRED` -/
  | inputNotWired
  /-- 5, `INVALID_MODE` -/
  | invalidMode
  /-- 6, `OVERFLOW` -/
  | overflow
  /-- 7, `MEMORY_EXHAUSTED` -/
  | memoryExhausted
deriving DecidableEq, Repr

/-- The `info` column of R111. -/
inductive FaultInfo where
  /-- `none` -/
  | none
  /-- a word, an address, or the exact integer that overflowed -/
  | int (v : Int)
  /-- `(i, digit)` -/
  | modeDigit (i digit : Nat)
deriving DecidableEq, Repr

/-- What `raise Fault(code, info)` is given (00_scope R12). -/
structure FaultCause where
  code : FaultCode
  info : FaultInfo
deriving DecidableEq, Repr

/-- The fault record `(code, pc, word, info)` (R112); `word` is `none` when the fetch itself faulted. -/
structure FaultRecord where
  code : FaultCode
  pc : Int
  word : Option Int
  info : FaultInfo
deriving DecidableEq, Repr

/-- A channel (10_state R31): an unbounded FIFO, its head first, and the two liveness flags. -/
structure Channel where
  q : List Int
  senderAlive : Bool
  receiverAlive : Bool
deriving DecidableEq, Repr

/-- A channel as created: "`q` empty and both flags true" (R31). -/
def Channel.new : Channel := { q := [], senderAlive := true, receiverAlive := true }

/-- The input endpoint (10_state R30); a channel is named by its number. -/
inductive InEp where
  | absent
  | blocking (ch : Nat)
  | polling (ch : Nat)
deriving DecidableEq, Repr

/-- The output endpoint (10_state R32). -/
inductive OutEp where
  | absent
  | channel (ch : Nat)
deriving DecidableEq, Repr

/-- The memory (20_memory R40): the extent and the cells below it that do not hold 0, by strictly
rising address. A cell that is not listed holds 0. -/
structure Memory where
  cells : List (Nat × Int)
  ext : Nat
deriving DecidableEq, Repr

/-- The canonical form: addresses strictly rising, no cell listed that holds 0, every listed cell
below the extent. -/
abbrev Memory.wf (m : Memory) : Prop :=
  m.cells.Pairwise (fun c d => c.1 < d.1) ∧ ∀ c ∈ m.cells, c.2 ≠ 0 ∧ c.1 < m.ext

/-- The memory of a machine with no program. -/
def Memory.empty : Memory := { cells := [], ext := 0 }

/-- Every piece of state the spec gives one instance (10_state R21), the channels (R31), and the
parameters the machine runs under (00_scope section 3; log entry 2). -/
structure State where
  /-- R40 -/
  mem : Memory
  /-- R23 -/
  pc : Int
  /-- `relative_base`, R25 -/
  rb : Int
  /-- R26 -/
  status : Status
  /-- R27 -/
  haltCause : Option HaltCause
  /-- R28 -/
  fault : Option FaultRecord
  /-- R29, the head first -/
  seed : List Int
  /-- R30 -/
  inEp : InEp
  /-- R32 -/
  outEp : OutEp
  /-- R34 -/
  idle : Nat
  /-- R33 -/
  lastOut : Option Int
  /-- R31: the channel of number `c` is entry `c`; a number past the end names a channel as created
  (log entry 9) -/
  chans : List Channel
  /-- the parameters; no step writes them -/
  cfg : Config
deriving DecidableEq, Repr

/-- The reasons for which a step stops with the host's `fault`: there are none. Every fault of the
spec is an entry into the `Faulted` status that R110 describes in full, so it is a NEXT state, never a
stop (log entry 11). Raised by nothing; safe. -/
inductive Fault where
deriving DecidableEq, Repr

/-- The reasons for which a step is refused. -/
inductive Refusal where
  /-- Raised by an arm of `exec` whose instruction has no meaning yet; no arm is left that does. Safe. -/
  | notModelled (mnemonic : String)
deriving DecidableEq, Repr

/-- The reset state of R151 for the empty program: every field at the value the spec gives, memory
with nothing listed, the parameters at their defaults. A program comes by `load` (log entry 10). -/
def State.reset : State :=
  { mem := Memory.empty
    pc := 0
    rb := 0
    status := .running
    haltCause := none
    fault := none
    seed := []
    inEp := .absent
    outEp := .absent
    idle := 0
    lastOut := none
    chans := []
    cfg := Config.default }

end Sys2Proof.Machine
end

