-- ==== Sys2Proof/Machine/Ops.lean ====
section
/-! DEFINITION. The named operations over memory, channels and the fields of State, the range check,
and taking a fault. Nothing returns from a fault (60_exceptions R118), so there is no operation for
it. -/

namespace Sys2Proof.Machine

/-! ### Memory (20_memory R40 to R43) -/

/-- The word listed at an address, 0 where none is. -/
def lookupCell : List (Nat × Int) → Nat → Int
  | [], _ => 0
  | (k, x) :: rest, a => if k = a then x else lookupCell rest a

/-- The list with the cell at `a` holding `v`, the canonical form kept: a cell that comes to hold 0
is not listed. -/
def putCell : List (Nat × Int) → Nat → Int → List (Nat × Int)
  | [], a, v => if v = 0 then [] else [(a, v)]
  | (k, x) :: rest, a, v =>
    if a < k then (if v = 0 then (k, x) :: rest else (a, v) :: (k, x) :: rest)
    else if a = k then (if v = 0 then rest else (a, v) :: rest)
    else (k, x) :: putCell rest a v

/-- `M(a)`: `cells[a]` below the extent, else 0 (R40). -/
def Memory.read (m : Memory) (a : Nat) : Int :=
  if m.ext ≤ a then 0 else lookupCell m.cells a

/-- The store of R42 without its checks: the extent grows to hold `a`, the gap reads 0. -/
def Memory.write (m : Memory) (a : Nat) (v : Int) : Memory :=
  { cells := putCell m.cells a v, ext := max m.ext (a + 1) }

/-! ### Channels (10_state R31) -/

/-- The channel of a number; one past the end of the list is a channel as created. -/
def getChan (cs : List Channel) (c : Nat) : Channel := cs.getD c Channel.new

/-- The list with channel `c` replaced. -/
def setChan : List Channel → Nat → Channel → List Channel
  | [], 0, ch => [ch]
  | [], c + 1, ch => Channel.new :: setChan [] c ch
  | _ :: rest, 0, ch => ch :: rest
  | x :: rest, c + 1, ch => x :: setChan rest c ch

/-- `Push(q, v)`: append at the tail (00_scope R12). -/
def Channel.push (ch : Channel) (v : Int) : Channel := { ch with q := ch.q ++ [v] }

/-- `Pop(q)`: remove the head (R12). -/
def Channel.pop (ch : Channel) : Channel := { ch with q := ch.q.tail }

/-! ### Updates of State, one field each -/

def State.setMem (s : State) (m : Memory) : State := { s with mem := m }
def State.setPc (s : State) (v : Int) : State := { s with pc := v }
def State.setRb (s : State) (v : Int) : State := { s with rb := v }
def State.setSeed (s : State) (vs : List Int) : State := { s with seed := vs }
def State.setIdle (s : State) (n : Nat) : State := { s with idle := n }
def State.setLastOut (s : State) (v : Int) : State := { s with lastOut := some v }
def State.setChans (s : State) (cs : List Channel) : State := { s with chans := cs }

/-- The channel of a number, in a state. -/
def State.chan (s : State) (c : Nat) : Channel := getChan s.chans c

/-- The state with channel `c` replaced. -/
def State.setChan (s : State) (c : Nat) (ch : Channel) : State :=
  s.setChans (Machine.setChan s.chans c ch)

/-- `Halt(cause)` (00_scope R12). -/
def State.halt (s : State) (c : HaltCause) : State :=
  { s with status := .halted, haltCause := some c }

/-! ### Checks -/

/-- `chk(v)`: "the only way to store the result of an operation" (00_scope R10). -/
def chk (s : State) (v : Int) : Except FaultCause Int :=
  if IsWord s.cfg.wordBits v then .ok v else .error ⟨.overflow, .int v⟩

/-- `MemRead(a, 1)` (20_memory R41). -/
def memRead (s : State) (a : Int) : Except FaultCause Int :=
  if a < 0 then .error ⟨.negativeAddress, .int a⟩ else .ok (s.mem.read a.toNat)

/-- `MemWrite(a, 1, v)` (20_memory R42): the two checks, then the store. -/
def memWrite (s : State) (a v : Int) : Except FaultCause State :=
  if a < 0 then .error ⟨.negativeAddress, .int a⟩
  else if (s.cfg.memCap : Int) ≤ a then .error ⟨.memoryExhausted, .int a⟩
  else .ok (s.setMem (s.mem.write a.toNat v))

/-! ### Taking a fault (60_exceptions R110, R112) -/

/-- The `word` of a fault record: the instruction word at `pc`, or `none` when its fetch faulted,
which is when `pc` is negative (R41, R112). -/
def faultWord (s : State) : Option Int :=
  if s.pc < 0 then none else some (s.mem.read s.pc.toNat)

/-- `raise Fault(code, info)`: `status` and `fault` are committed and nothing else (R110). The state
given is the state before the instruction, so its `pc` is the address of the faulting instruction. -/
def takeFault (c : FaultCause) (s : State) : State :=
  { s with status := .faulted, fault := some ⟨c.code, s.pc, faultWord s, c.info⟩ }

/-- The end of an instruction (30_encoding R70): its effects are committed together, or its fault is
taken in the state before it. Both are next states. -/
def commit (s : State) (r : Except FaultCause State) : Host.Outcome State Fault Refusal :=
  match r with
  | .ok t => .next t
  | .error c => .next (takeFault c s)

end Sys2Proof.Machine
end

