-- ==== Sys2Proof/Machine/Operands.lean ====
section
/-! DEFINITION. Operand assembly (30_encoding R65 to R67) and the `next` of R69. Each operation makes
its checks in the order of R69: the parameter-word address, the mode digit, immediate-write, the
effective-address overflow, the negative address. -/

namespace Sys2Proof.Machine

/-- The check that fetching parameter word `i` makes: `MemRead(chk(pc + i), 1)` (R65). The word itself
is the instruction's `raw`; reading it has no other effect (R41, R49; log entry 7). -/
def paramWordAt (s : State) (i : Nat) : Except FaultCause Int := do
  let a ← chk s (s.pc + i)
  memRead s a

/-- `INVALID_MODE (i, digit)` (R65). -/
def invalidMode (i : Nat) (k : Fin 7) : FaultCause :=
  ⟨.invalidMode, .modeDigit i (Mode.reserved k).digit⟩

/-- `param(i)`, the value of a read parameter (R66). -/
def readParam (s : State) (i : Nat) (p : Param) : Except FaultCause Int := do
  let _ ← paramWordAt s i
  match p.mode with
  | .position => memRead s p.raw
  | .immediate => .ok p.raw
  | .relative => do
    let a ← chk s (s.rb + p.raw)
    memRead s a
  | .reserved k => .error (invalidMode i k)

/-- A dest address must not be negative (R67). -/
def destAddr (a : Int) : Except FaultCause Int :=
  if a < 0 then .error ⟨.negativeAddress, .int a⟩ else .ok a

/-- `dest(i)`, the address of a dest parameter (R67). -/
def destParam (s : State) (i : Nat) (p : Param) : Except FaultCause Int := do
  let _ ← paramWordAt s i
  match p.mode with
  | .position => destAddr p.raw
  | .immediate => .error ⟨.immediateWrite, .int p.raw⟩
  | .relative => do
    let a ← chk s (s.rb + p.raw)
    destAddr a
  | .reserved k => .error (invalidMode i k)

/-- `next <- chk(pc + arity(op) + 1)` (R69). -/
def nextPc (s : State) (width : Nat) : Except FaultCause Int := chk s (s.pc + width)

end Sys2Proof.Machine
end

