-- ==== Sys2Proof/Machine/Arith.lean ====
section
/-! DEFINITION. The arithmetic and comparison instructions (40_arith_compare R85 to R89). -/

namespace Sys2Proof.Machine

/-- The shape the four share: two read parameters, a dest, `next` (R69), then the operation's own
check, the store and `pc <- next`. -/
def binary (op : State → Int → Int → Except FaultCause Int) (a b d : Param) (s : State) :
    Except FaultCause State := do
  let v1 ← readParam s 1 a
  let v2 ← readParam s 2 b
  let addr ← destParam s 3 d
  let next ← nextPc s 4
  let r ← op s v1 v2
  let t ← memWrite s addr r
  .ok (t.setPc next)

/-- `chk(V_1 + V_2)` (R86). -/
def sumOp (s : State) (x y : Int) : Except FaultCause Int := chk s (x + y)

/-- `chk(V_1 * V_2)` (R87). -/
def productOp (s : State) (x y : Int) : Except FaultCause Int := chk s (x * y)

/-- `1 if V_1 < V_2 else 0`: "no overflow is possible" (R88). -/
def lessOp (_ : State) (x y : Int) : Except FaultCause Int := .ok (boolWord (lessThan x y))

/-- `1 if V_1 == V_2 else 0` (R89). -/
def equalOp (_ : State) (x y : Int) : Except FaultCause Int := .ok (boolWord (equalTo x y))

/-- `add` (R86). -/
def execAdd (a b d : Param) (s : State) : Host.Outcome State Fault Refusal :=
  commit s (binary sumOp a b d s)

/-- `mul` (R87). -/
def execMul (a b d : Param) (s : State) : Host.Outcome State Fault Refusal :=
  commit s (binary productOp a b d s)

/-- `lt` (R88). -/
def execLt (a b d : Param) (s : State) : Host.Outcome State Fault Refusal :=
  commit s (binary lessOp a b d s)

/-- `eq` (R89). -/
def execEq (a b d : Param) (s : State) : Host.Outcome State Fault Refusal :=
  commit s (binary equalOp a b d s)

end Sys2Proof.Machine
end

