-- ==== Sys2Proof/Machine/Control.lean ====
section
/-! DEFINITION. Control transfer, relative base and halt (42_control R105 to R109). -/

namespace Sys2Proof.Machine

/-- The shape of the two jumps: both parameters and `next` are resolved whether or not the jump is
taken (R105). -/
def jump (taken : Int → Bool) (a target : Param) (s : State) : Except FaultCause State := do
  let v1 ← readParam s 1 a
  let v2 ← readParam s 2 target
  let next ← nextPc s 3
  .ok (s.setPc (if taken v1 then v2 else next))

/-- `jnz` (R105). -/
def execJnz (a target : Param) (s : State) : Host.Outcome State Fault Refusal :=
  commit s (jump (fun v => !isZero v) a target s)

/-- `jz` (R106). -/
def execJz (a target : Param) (s : State) : Host.Outcome State Fault Refusal :=
  commit s (jump isZero a target s)

/-- `adjrel` (R107). -/
def execAdjrel (a : Param) (s : State) : Host.Outcome State Fault Refusal :=
  commit s do
    let v ← readParam s 1 a
    let next ← nextPc s 2
    let r ← chk s (s.rb + v)
    .ok ((s.setRb r).setPc next)

/-- `halt` (R108). -/
def execHalt (s : State) : Host.Outcome State Fault Refusal :=
  commit s do
    let next ← nextPc s 1
    .ok ((s.halt .opcode99).setPc next)

end Sys2Proof.Machine
end

