-- ==== Sys2Proof/Machine/Io.lean ====
section
/-! DEFINITION. The I/O port and the I/O instructions (41_io R90 to R99). -/

namespace Sys2Proof.Machine

/-- The outcomes of `NextInput()` (R90). -/
inductive InputOutcome where
  | value (v : Int)
  | sentinel
  | hold
  | gone
  | notWired
deriving DecidableEq, Repr

/-- `NextInput()` (R90): `seed` first, then the endpoint. Nothing is popped yet. -/
def nextInput (s : State) : InputOutcome :=
  match s.seed with
  | v :: _ => .value v
  | [] =>
    match s.inEp with
    | .absent => .notWired
    | .blocking c =>
      match (s.chan c).q with
      | v :: _ => .value v
      | [] => if (s.chan c).senderAlive then .hold else .gone
    | .polling c =>
      match (s.chan c).q with
      | v :: _ => .value v
      | [] => .sentinel

/-- The pop that commits with a received value: from `seed`, or from the endpoint's channel (R90,
R91). -/
def popInput (s : State) : State :=
  match s.seed with
  | _ :: vs => s.setSeed vs
  | [] =>
    match s.inEp with
    | .absent => s
    | .blocking c => s.setChan c (s.chan c).pop
    | .polling c => s.setChan c (s.chan c).pop

/-- `EmitOutput(v)` (R96); `none` is the outcome `SendFailed`. -/
def emitOutput (v : Int) (s : State) : Option State :=
  match s.outEp with
  | .absent => some (s.setLastOut v)
  | .channel c =>
    if (s.chan c).receiverAlive then some (s.setChan c ((s.chan c).push v)) else none

/-- The effect of `input` once its dest address and `next` are known (R91). -/
def receive (addr next : Int) (s : State) : Except FaultCause State :=
  match nextInput s with
  | .value v => do
    let t ← memWrite s addr v
    .ok (((popInput t).setIdle 0).setPc next)
  | .sentinel => do
    let t ← memWrite s addr (-1)
    .ok ((t.setIdle (s.idle + 1)).setPc next)
  | .hold => .ok s
  | .gone => .ok (s.halt .producerGone)
  | .notWired => .error ⟨.inputNotWired, .none⟩

/-- The effect of `output` once its value and `next` are known (R97, R98). -/
def send (v next : Int) (s : State) : State :=
  match emitOutput v s with
  | some t => t.setPc next
  | none => (s.halt .sendFailed).setPc next

/-- `input` (R91). -/
def execInput (d : Param) (s : State) : Host.Outcome State Fault Refusal :=
  commit s do
    let addr ← destParam s 1 d
    let next ← nextPc s 2
    receive addr next s

/-- `output` (R98). -/
def execOutput (a : Param) (s : State) : Host.Outcome State Fault Refusal :=
  commit s do
    let v ← readParam s 1 a
    let next ← nextPc s 2
    .ok (send v next s)

end Sys2Proof.Machine
end

