-- ==== Sys2Proof/Machine/Dispatch.lean ====
section
/-! DEFINITION. The `execute` of 30_encoding R69: one arm per instruction. -/

namespace Sys2Proof.Machine

def exec (i : Instr) (s : State) : Host.Outcome State Fault Refusal :=
  match i with
  | .add a b d => Sys2Proof.Machine.execAdd a b d s
  | .mul a b d => Sys2Proof.Machine.execMul a b d s
  | .input d => Sys2Proof.Machine.execInput d s
  | .output a => Sys2Proof.Machine.execOutput a s
  | .jnz a t => Sys2Proof.Machine.execJnz a t s
  | .jz a t => Sys2Proof.Machine.execJz a t s
  | .lt a b d => Sys2Proof.Machine.execLt a b d s
  | .eq a b d => Sys2Proof.Machine.execEq a b d s
  | .adjrel a => Sys2Proof.Machine.execAdjrel a s
  | .halt => Sys2Proof.Machine.execHalt s

end Sys2Proof.Machine
end

