-- ==== Sys2Proof/Machine/Fetch.lean ====
section
/-! DEFINITION. Fetching and decoding the instruction at `pc` (30_encoding R62, R63, R68). -/

namespace Sys2Proof.Machine

/-- The words at `a .. a+3`, as many as the longest instruction has (R60). -/
def wordsAt (m : Memory) (a : Nat) : List Int :=
  [m.read a, m.read (a + 1), m.read (a + 2), m.read (a + 3)]

/-- The fault a rejected word raises (R63, R68, R111). -/
def rejectCause : DecodeReject → FaultCause
  | .unknownOpcode w => ⟨.unknownOpcode, .int w⟩
  | .invalidMode i d => ⟨.invalidMode, .modeDigit i d⟩

/-- Fetch (R62) and decode (R63, R68): the instruction at `pc`, or the fault. -/
def fetchInstr (s : State) : Except FaultCause Instr :=
  if s.pc < 0 then .error ⟨.negativeAddress, .int s.pc⟩
  else
    match decode s.cfg.unusedMode (wordsAt s.mem s.pc.toNat) with
    | .ok i => .ok i
    | .error r => .error (rejectCause r)

/-- A memory with the given words stored from address `a` on. -/
def writeWords (m : Memory) (a : Nat) : List Int → Memory
  | [] => m
  | w :: ws => writeWords (m.write a w) (a + 1) ws

end Sys2Proof.Machine
end

