-- ==== Sys2Proof/Machine/Step.lean ====
section
/-! DEFINITION. One tick (30_encoding R69, 60_exceptions R115). -/

namespace Sys2Proof.Machine

/-- One tick: fetch, decode, resolve, execute. A machine that is not `Running` does not change
(R115). -/
def step (s : State) : Host.Outcome State Fault Refusal :=
  match s.status with
  | .running =>
    match fetchInstr s with
    | .ok i => exec i s
    | .error c => .next (takeFault c s)
  | .halted => .next s
  | .faulted => .next s

/-- The four words of an opcode-table word, stored where `step` fetches its next instruction. It
stands for the host's `load` (log entry 10) and changes memory only. -/
def State.withFetchWord (s : State) (nbits w : Nat) : State :=
  s.setMem (writeWords s.mem s.pc.toNat (unpackWords s.cfg.wordBits nbits w))

end Sys2Proof.Machine
end

