-- ==== Sys2Proof/Machine/Driver.lean ====
section
/-! DEFINITION. What the host sees of a tick and of a run (60_exceptions R122, R123), and its writes to
one machine's state: `pre_seed` (R121), the `MemWrite` of `patch` (R127), the end of an instance
(R124) and the wiring of an endpoint (R125). -/

namespace Sys2Proof.Machine

/-- The result of `tick()` (R122). The code is `none` only in a state whose `status` is `Faulted` while
its `fault` is `none`, which no run reaches (log entry 15). -/
inductive TickResult where
  | continued
  | producedOutput (v : Int)
  | needsInput
  | halted
  | faulted (code : Option FaultCode)
deriving DecidableEq, Repr

/-- The state after a tick; every tick gives one. -/
def after (s : State) : State :=
  match step s with
  | .next t => t
  | .fault _ => s
  | .refused _ => s

/-- What a completed instruction reports (R122). -/
def reportOf (i : Instr) (s : State) : TickResult :=
  match i with
  | .output a =>
    match readParam s 1 a with
    | .ok v => .producedOutput v
    | .error _ => .continued
  | .input _ => if nextInput s = .hold then .needsInput else .continued
  | .add .. | .mul .. | .jnz .. | .jz .. | .lt .. | .eq .. | .adjrel .. | .halt => .continued

/-- The report of the tick made from `s` (R122, R115). -/
def report (s : State) : TickResult :=
  match (after s).status with
  | .halted => .halted
  | .faulted => .faulted ((after s).fault.map FaultRecord.code)
  | .running =>
    match fetchInstr s with
    | .ok i => reportOf i s
    | .error _ => .continued

/-- `tick()` (R122): the report and the state after. -/
def tick (s : State) : TickResult × State := (report s, after s)

/-- `BLOCKING_RUN_POLICY` (R123; 00_scope section 3): a host choice, so an argument of `run`. -/
inductive BlockingRunPolicy where
  | returnBlocked
  | wait
deriving DecidableEq, Repr

/-- What `run()` comes back with (R123). -/
inductive RunResult where
  | halted
  | blocked
  | faulted (code : Option FaultCode)
deriving DecidableEq, Repr

/-- `run()` (R123) for at most `fuel` ticks; `none` when it has not come back by then. Under `wait`, a
held tick is tried again: nothing outside the machine acts within a `run` of the machine alone (log
entry 14). -/
def run (pol : BlockingRunPolicy) : Nat → State → Option RunResult × State
  | 0, s => (none, s)
  | fuel + 1, s =>
    let t := after s
    match report s with
    | .halted => (some .halted, t)
    | .faulted c => (some (.faulted c), t)
    | .needsInput =>
      match pol with
      | .returnBlocked => (some .blocked, t)
      | .wait => run pol fuel t
    | .continued | .producedOutput _ => run pol fuel t

/-- `pre_seed(values)` (R121): append to the tail of `seed`. -/
def preSeed (vs : List Int) (s : State) : State := s.setSeed (s.seed ++ vs)

/-- The store of `patch(address, value)` (R127): `MemWrite` by the host. A failure is the host
operation's; the machine does not fault. -/
def patch (a v : Int) (s : State) : Except FaultCause State := memWrite s a v

/-- The two receive disciplines (10_state R30). -/
inductive Discipline where
  | blocking
  | polling
deriving DecidableEq, Repr

/-- Attach the receive half of a channel (R125). -/
def attachInput (d : Discipline) (c : Nat) (s : State) : State :=
  match d with
  | .blocking => { s with inEp := .blocking c }
  | .polling => { s with inEp := .polling c }

/-- Attach the send half of a channel (R125). -/
def attachOutput (c : Nat) (s : State) : State := { s with outEp := .channel c }

/-- The send half of a channel is given up (10_state R31, R124); its values stay. -/
def dropSender (c : Nat) (cs : List Channel) : List Channel :=
  setChan cs c { getChan cs c with senderAlive := false }

/-- The receive half of a channel is given up (R31, R124). -/
def dropReceiver (c : Nat) (cs : List Channel) : List Channel :=
  setChan cs c { getChan cs c with receiverAlive := false }

/-- The channel an input endpoint reads (R30). -/
def InEp.chan? : InEp → Option Nat
  | .absent => none
  | .blocking c => some c
  | .polling c => some c

/-- The channel an output endpoint writes (R32). -/
def OutEp.chan? : OutEp → Option Nat
  | .absent => none
  | .channel c => some c

/-- The channels after the owner of the two endpoints is dropped (R124). -/
def releaseEndpoints (i : InEp) (o : OutEp) (cs : List Channel) : List Channel :=
  let cs := match o.chan? with
    | none => cs
    | some c => dropSender c cs
  match i.chan? with
  | none => cs
  | some c => dropReceiver c cs

end Sys2Proof.Machine
end

