-- ==== Sys2Proof/Machine/Load.lean ====
section
/-! DEFINITION. The program source format (60_exceptions R120), the reset state after a load
(70_reset_and_hazards R151) and serialization (R126). A text is its list of characters. -/

namespace Sys2Proof.Machine

/-- The listed cells of a program whose first word stands at address `k` (R151). -/
def cellsFrom : Nat → List Int → List (Nat × Int)
  | _, [] => []
  | k, w :: ws => if w = 0 then cellsFrom (k + 1) ws else (k, w) :: cellsFrom (k + 1) ws

/-- The memory that holds a program at `0 .. len-1`, extent `len` (R151). -/
def Memory.ofWords (ws : List Int) : Memory := { cells := cellsFrom 0 ws, ext := ws.length }

/-- The reset state after the load of a program (R151), under given parameters. -/
def State.loaded (cfg : Config) (ws : List Int) : State :=
  { State.reset with cfg := cfg, mem := Memory.ofWords ws }

/-- `LOAD_BAD_TOKEN(token index, token)` (R120); the token is the trimmed one. -/
inductive LoadError where
  | badToken (index : Nat) (token : List Char)
deriving DecidableEq, Repr

/-- The white space that is trimmed: space, tab, carriage return, newline. PRESUMED (log entry 18). -/
def isBlank (c : Char) : Bool := c == ' ' || c == '\t' || c == '\r' || c == '\n'

/-- Leading and trailing white space removed (R120). -/
def trim (cs : List Char) : List Char :=
  ((cs.dropWhile isBlank).reverse.dropWhile isBlank).reverse

/-- The text split at every comma; the empty text gives one empty token (R120). -/
def splitComma : List Char → List (List Char)
  | [] => [[]]
  | c :: cs =>
    if c = ',' then [] :: splitComma cs
    else
      match splitComma cs with
      | [] => [[c]]
      | t :: ts => (c :: t) :: ts

/-- The value of a decimal digit. -/
def digitVal (c : Char) : Nat := c.toNat - '0'.toNat

/-- `[0-9]` (R120). -/
def isDecimal (c : Char) : Bool := decide ('0'.toNat ≤ c.toNat ∧ c.toNat ≤ '9'.toNat)

/-- The value of a string of digits, the most significant first. -/
def decimalVal (cs : List Char) : Nat := cs.foldl (fun n c => 10 * n + digitVal c) 0

/-- `[0-9]+` (R120). -/
def parseDigits (cs : List Char) : Option Nat :=
  if cs ≠ [] ∧ cs.all isDecimal = true then some (decimalVal cs) else none

/-- `[+-]?[0-9]+` (R120). -/
def parseInt (cs : List Char) : Option Int :=
  match cs with
  | '-' :: ds => (parseDigits ds).map fun n => -(n : Int)
  | '+' :: ds => (parseDigits ds).map fun n => (n : Int)
  | ds => (parseDigits ds).map fun n => (n : Int)

/-- The word of a token, if its value lies in `[WMIN, WMAX]` (R120). -/
def parseWord (bits : Nat) (t : List Char) : Option Int :=
  (parseInt t).bind fun v => if IsWord bits v then some v else none

/-- The words of the tokens, the first of which has index `k`; or the first bad token (R120). -/
def parseTokens (bits : Nat) : Nat → List (List Char) → Except LoadError (List Int)
  | _, [] => .ok []
  | k, t :: ts =>
    match parseWord bits (trim t) with
    | none => .error (.badToken k (trim t))
    | some w =>
      match parseTokens bits (k + 1) ts with
      | .error e => .error e
      | .ok ws => .ok (w :: ws)

/-- `load(program_text)` (R120): a machine in the reset state of R151, or no machine. -/
def load (cfg : Config) (text : List Char) : Except LoadError State :=
  match parseTokens cfg.wordBits 0 (splitComma (trim text)) with
  | .error e => .error e
  | .ok ws => .ok (State.loaded cfg ws)

/-- The character of a decimal digit. -/
def digitChar (n : Nat) : Char := Char.ofNat ('0'.toNat + n)

/-- The decimal digits of `n`, most significant first, given enough fuel (one more than the number of
digits is enough, so `n + 1` is). -/
def showNatFuel : Nat → Nat → List Char
  | 0, _ => []
  | fuel + 1, n =>
    if n < 10 then [digitChar n] else showNatFuel fuel (n / 10) ++ [digitChar (n % 10)]

/-- A natural number in base 10 (R126). -/
def showNat (n : Nat) : List Char := showNatFuel (n + 1) n

/-- An integer in base 10, "using `-` for negatives" (R126). -/
def showInt (v : Int) : List Char :=
  if v < 0 then '-' :: showNat (-v).toNat else showNat v.toNat

/-- Tokens "separated by `,` with no spaces" (R126). -/
def joinComma : List (List Char) → List Char
  | [] => []
  | [t] => t
  | t :: ts => t ++ ',' :: joinComma ts

/-- `cells[0], ..., cells[ext-1]` (R126). -/
def Memory.words (m : Memory) : List Int := (List.range m.ext).map m.read

/-- Serialization (R126). -/
def serialize (s : State) : List Char := joinComma (s.mem.words.map showInt)

end Sys2Proof.Machine
end

