-- ==== Sys2Proof/Machine/System.lean ====
section
/-! DEFINITION. Several instances over shared channels, and the host that builds, wires and drives
them (10_state R20, R31; 60_exceptions R121, R124 to R130, R133, R136). Nothing here is an
instruction: `step` is one tick of one instance. -/

namespace Sys2Proof.Machine

/-- One instance in the host's hands. -/
structure Slot where
  /-- the instance; its channels are the system's, so its own list is kept empty -/
  st : State
  /-- it has ticked: wiring and `patch` are over (R125, R127) -/
  started : Bool
  /-- the host has dropped it (R124) -/
  dropped : Bool
deriving DecidableEq, Repr

/-- Instances, numbered by position, and the channels they share (R20, R133). -/
structure System where
  slots : List Slot
  chans : List Channel
deriving DecidableEq, Repr

/-- Why a host operation is not done. -/
inductive HostError where
  /-- no live instance has this number -/
  | noInstance
  /-- wiring or `patch` after the first tick (R125, R127; D26) -/
  | alreadyStarted
  /-- the endpoint is wired already (R125: one producer per input; log entry 17) -/
  | alreadyWired
  /-- the half of the channel is not the host's: an instance has it, or the host gave it up, or there is
  no such channel (R31, R128; 93_implementation_defined row 14) -/
  | notOwner
  /-- the value is not a word (R8) -/
  | notAWord
  /-- the receive half is dropped (R96) -/
  | sendFailed
  /-- the queue is empty (R12) -/
  | emptyQueue
  /-- a `patch` at this address fails (R127) -/
  | patchFailed (c : FaultCause)
deriving DecidableEq, Repr

def System.empty : System := { slots := [], chans := [] }

/-- The live instance of a number. -/
def System.slot? (sys : System) (k : Nat) : Option Slot :=
  match sys.slots[k]? with
  | none => none
  | some sl => if sl.dropped then none else some sl

/-- The state of an instance, the channels in it. -/
def System.view (sys : System) (sl : Slot) : State := sl.st.setChans sys.chans

/-- The system with instance `k` in the state `t`. -/
def System.put (sys : System) (k : Nat) (t : State) (started : Bool) : System :=
  { slots := sys.slots.set k { st := t.setChans [], started := started, dropped := false }
    chans := t.chans }

/-- Add an instance that `load` made (R120); its number is the count before. DESIGN CHOICE: its `WORD_BITS`
may differ from that of the others (log entry 29). -/
def System.add (sys : System) (s : State) : System :=
  { sys with
    slots := sys.slots ++ [{ st := s.setChans [], started := false, dropped := false }] }

/-- One tick of instance `k` (R122); `none` if there is none. -/
def tickAt (k : Nat) (sys : System) : Option (TickResult × System) :=
  match sys.slot? k with
  | none => none
  | some sl =>
    let r := tick (sys.view sl)
    some (r.1, sys.put k r.2 true)

/-- The system after a tick of instance `k`; the same system if there is none. -/
def System.afterTick (sys : System) (k : Nat) : System :=
  match tickAt k sys with
  | none => sys
  | some r => r.2

/-- Thread-per-machine driving: any interleaving of the instances' ticks (R129). -/
def System.schedule (sys : System) (ks : List Nat) : System := ks.foldl System.afterTick sys

/-- One pass of the cooperative round robin: every instance once, in order (R129, R138). -/
def System.pass (sys : System) : System := sys.schedule (List.range sys.slots.length)

/-- A host operation on the state of one live instance. -/
def System.modify (sys : System) (k : Nat) (f : State → Except HostError State) :
    Except HostError System :=
  match sys.slot? k with
  | none => .error .noInstance
  | some sl =>
    match f (sys.view sl) with
    | .error e => .error e
    | .ok t => .ok (sys.put k t sl.started)

/-- The live instance of a number, if it has not ticked: wiring and `patch` come before the first tick
(R125, R127). -/
def System.fresh (sys : System) (k : Nat) : Except HostError Slot :=
  match sys.slot? k with
  | none => .error .noInstance
  | some sl => if sl.started then .error .alreadyStarted else .ok sl

/-- `pre_seed(values)` at any time between ticks (R121, R130). -/
def System.preSeed (sys : System) (k : Nat) (vs : List Int) : Except HostError System :=
  sys.modify k fun s =>
    if vs.all (fun v => decide (IsWord s.cfg.wordBits v)) then .ok (Machine.preSeed vs s)
    else .error .notAWord

/-- `patch(address, value)`, before the first tick only (R127). -/
def System.patch (sys : System) (k : Nat) (a v : Int) : Except HostError System := do
  let _ ← sys.fresh k
  sys.modify k fun s =>
    if IsWord s.cfg.wordBits a ∧ IsWord s.cfg.wordBits v then
      match Machine.patch a v s with
      | .ok t => .ok t
      | .error c => .error (.patchFailed c)
    else .error .notAWord

/-! ### Channel halves: each has one owner (R31), an instance or the host -/

/-- Create a channel (R31), both halves the host's; its number is the count before. -/
def System.newChan (sys : System) : System := { sys with chans := sys.chans ++ [Channel.new] }

/-- Some instance was given the send half of channel `c`. DEDUCED: a dropped one counts, the host does not
get the half back (log entry 27). -/
def System.senderOwned (sys : System) (c : Nat) : Bool :=
  sys.slots.any fun sl => decide (sl.st.outEp.chan? = some c)

/-- Some instance was given the receive half of channel `c`. DEDUCED: a dropped one counts (log entry 27). -/
def System.receiverOwned (sys : System) (c : Nat) : Bool :=
  sys.slots.any fun sl => decide (sl.st.inEp.chan? = some c)

/-- The host has the send half of channel `c`: the channel exists, the half was given to no instance, and
the host has not given it up (R31, R128). -/
def System.hostHasSender (sys : System) (c : Nat) : Bool :=
  decide (c < sys.chans.length) && !sys.senderOwned c && (getChan sys.chans c).senderAlive

/-- The host has the receive half of channel `c` (R31, R128). -/
def System.hostHasReceiver (sys : System) (c : Nat) : Bool :=
  decide (c < sys.chans.length) && !sys.receiverOwned c && (getChan sys.chans c).receiverAlive

/-- The system with the send half of channel `c` given to instance `k`. -/
def System.giveSender (sys : System) (k c : Nat) : System :=
  { sys with slots := sys.slots.modify k fun sl => { sl with st := attachOutput c sl.st } }

/-- The system with the receive half of channel `c` given to instance `k`. -/
def System.giveReceiver (sys : System) (k : Nat) (d : Discipline) (c : Nat) : System :=
  { sys with slots := sys.slots.modify k fun sl => { sl with st := attachInput d c sl.st } }

/-- Give the receive half of channel `c`, which the host has, to instance `k` before its first tick (R31,
R125). DESIGN CHOICE: an instance at the send half may have ticked; R125 speaks only of calls that create
the channel (log entry 28). DESIGN CHOICE: widths are not compared (log entry 29). -/
def System.wireInput (sys : System) (k : Nat) (d : Discipline) (c : Nat) :
    Except HostError System := do
  let sl ← sys.fresh k
  if sl.st.inEp ≠ .absent then .error .alreadyWired
  else if sys.hostHasReceiver c then .ok (sys.giveReceiver k d c)
  else .error .notOwner

/-- Give the send half of channel `c`, which the host has, to instance `k` before its first tick (R31,
R125). DESIGN CHOICE: an instance at the receive half may have ticked (log entry 28), and widths are not
compared (log entry 29). -/
def System.wireOutput (sys : System) (k : Nat) (c : Nat) : Except HostError System := do
  let sl ← sys.fresh k
  if sl.st.outEp ≠ .absent then .error .alreadyWired
  else if sys.hostHasSender c then .ok (sys.giveSender k c)
  else .error .notOwner

/-- `link_output_to` and `link_input_from` (R125): one new channel from instance `i` to instance `j`,
before the first tick of either. DESIGN CHOICE: their widths are not compared, so they may differ (log
entry 29). -/
def System.link (sys : System) (i j : Nat) (d : Discipline) : Except HostError System := do
  let si ← sys.fresh i
  let sj ← sys.fresh j
  if si.st.outEp ≠ .absent ∨ sj.st.inEp ≠ .absent then .error .alreadyWired
  else .ok ((sys.newChan.giveSender i sys.chans.length).giveReceiver j d sys.chans.length)

/-- A new channel whose send half the host keeps (R31). -/
def System.openInput (sys : System) (k : Nat) (d : Discipline) : Except HostError System :=
  sys.newChan.wireInput k d sys.chans.length

/-- A new channel whose receive half the host keeps (R31). -/
def System.openOutput (sys : System) (k : Nat) : Except HostError System :=
  sys.newChan.wireOutput k sys.chans.length

/-- `drop` of an instance (R124): its endpoints are released and it ticks no more. -/
def System.drop (sys : System) (k : Nat) : Except HostError System :=
  match sys.slot? k with
  | none => .error .noInstance
  | some sl =>
    .ok { slots := sys.slots.set k { sl with dropped := true }
          chans := releaseEndpoints sl.st.inEp sl.st.outEp sys.chans }

/-- The host pushes onto a channel whose send half it has: "the push and pop rules are the same"
(R31, R96). DESIGN CHOICE: the value is checked at the width `bits` the host names, whatever the width of
the instance at the receive half (log entries 25, 29). -/
def System.hostPush (sys : System) (bits c : Nat) (v : Int) : Except HostError System :=
  if ¬ sys.hostHasSender c then .error .notOwner
  else if ¬ IsWord bits v then .error .notAWord
  else if (getChan sys.chans c).receiverAlive then
    .ok { sys with chans := setChan sys.chans c ((getChan sys.chans c).push v) }
  else .error .sendFailed

/-- The host pops from a channel whose receive half it has (R31). -/
def System.hostPop (sys : System) (c : Nat) : Except HostError (Int × System) :=
  if ¬ sys.hostHasReceiver c then .error .notOwner
  else
    match (getChan sys.chans c).q with
    | [] => .error .emptyQueue
    | v :: _ => .ok (v, { sys with chans := setChan sys.chans c (getChan sys.chans c).pop })

/-- The host gives up a send half it has (R31). -/
def System.hostDropSender (sys : System) (c : Nat) : Except HostError System :=
  if ¬ sys.hostHasSender c then .error .notOwner
  else .ok { sys with chans := dropSender c sys.chans }

/-- The host gives up a receive half it has (R31). -/
def System.hostDropReceiver (sys : System) (c : Nat) : Except HostError System :=
  if ¬ sys.hostHasReceiver c then .error .notOwner
  else .ok { sys with chans := dropReceiver c sys.chans }

/-- `link` along `0 → 1 → … → n-1`, then back to 0 (R136). -/
def System.linkRing (sys : System) (n : Nat) : Except HostError System :=
  (List.range n).foldlM (fun sys k => sys.link k ((k + 1) % n) .blocking) sys

/-- The feedback loop of R136: one instance of the same program for each phase, instance 0 given the
initial signal 0 after its phase (D29), wired in a ring of blocking inputs. -/
def System.feedbackLoop (cfg : Config) (program : List Int) (phases : List Int) :
    Except HostError System := do
  let sys := phases.foldl (fun sys _ => sys.add (State.loaded cfg program)) System.empty
  let sys ← phases.zipIdx.foldlM (fun sys p => sys.preSeed p.2 [p.1]) sys
  let sys ← sys.preSeed 0 [0]
  sys.linkRing phases.length

end Sys2Proof.Machine
end

