-- ==== Sys2Proof/Machine/Switch.lean ====
section
/-! DEFINITION. The network Switch (60_exceptions R131, R137 to R139). It is environment, outside the
block (00_scope R4), kept so that the spec's network scenarios can be run. -/

namespace Sys2Proof.Machine

/-- What the Switch routes: the two values of a packet. -/
abbrev Packet := Int × Int

/-- `NAT_COMPARE` (00_scope section 3, default `y`): which part of an injected packet is compared. The
parts other than `y` are the model's list (log entry 19). -/
inductive NatCompare where
  | x
  | y
  | packet
deriving DecidableEq, Repr

/-- The compared part of a packet, the value the run returns (R139). -/
def NatCompare.part : NatCompare → Packet → List Int
  | .x, p => [p.1]
  | .y, p => [p.2]
  | .packet, p => [p.1, p.2]

/-- Machines under the Switch (R137): machine `i` polls channel `2i`, whose send half the Switch owns,
and sends on channel `2i+1`, whose receive half the Switch owns. -/
structure Net where
  sys : System
  natCompare : NatCompare
  /-- the last packet sent to 255 (R137) -/
  mailbox : Option Packet
  /-- the latest injection (R139) -/
  injected : Option Packet
deriving DecidableEq, Repr

/-- Why the passes end. DESIGN CHOICE: an environment fault ends them at once, and no network is kept (log
entry 30). -/
inductive NetEnd where
  /-- `ENV_BAD_DESTINATION(d)` (R137; what follows it, log entry 30) -/
  | badDestination (d : Int)
  /-- the value of a repeated injection (R139) -/
  | returned (value : List Int)
deriving DecidableEq, Repr

/-- `cin_i` (R137). -/
def cin (i : Nat) : Nat := 2 * i

/-- `cout_i` (R137). -/
def cout (i : Nat) : Nat := 2 * i + 1

/-- The number of machines. -/
def Net.size (n : Net) : Nat := n.sys.slots.length

/-- The queue of a channel. -/
def Net.queue (n : Net) (c : Nat) : List Int := (getChan n.sys.chans c).q

/-- The network with the queue of a channel replaced. -/
def Net.setQueue (n : Net) (c : Nat) (q : List Int) : Net :=
  { n with sys := { n.sys with
      chans := setChan n.sys.chans c { getChan n.sys.chans c with q := q } } }

/-- The two pushes of a routed packet onto `cin_d.q` (R137, R139). -/
def Net.deliver (n : Net) (d : Nat) (p : Packet) : Net :=
  n.setQueue (cin d) (n.queue (cin d) ++ [p.1, p.2])

/-- The routing of R137, after a tick of machine `i`. An environment fault is an end (log entry 30). -/
def Net.route (n : Net) (i : Nat) : Except NetEnd Net :=
  match n.queue (cout i) with
  | d :: x :: y :: rest =>
    let n := n.setQueue (cout i) rest
    if d = 255 then .ok { n with mailbox := some (x, y) }
    else if 0 ≤ d ∧ d < (n.size : Int) then .ok (n.deliver d.toNat (x, y))
    else .error (.badDestination d)
  | _ => .ok n

/-- A tick of machine `i`, then the routing (R138). -/
def Net.tickRoute (n : Net) (i : Nat) : Except NetEnd Net :=
  ({ n with sys := n.sys.afterTick i } : Net).route i

/-- Every machine is idle and no queue holds a value (R138). -/
def Net.quiescent (n : Net) : Bool :=
  n.sys.slots.all (fun sl => decide (2 ≤ sl.st.idle)) &&
    (List.range n.size).all fun i => (n.queue (cin i)).isEmpty && (n.queue (cout i)).isEmpty

/-- Recovery and termination at a quiescent point (R139). -/
def Net.recover (n : Net) : Except NetEnd Net :=
  match n.mailbox with
  | none => .ok n
  | some p =>
    let agrees := match n.injected with
      | none => false
      | some p' => n.natCompare.part p' = n.natCompare.part p
    if agrees then .error (.returned (n.natCompare.part p))
    else .ok { n.deliver 0 p with injected := some p }

/-- The ticks of a pass (R138): every machine once, in order, each followed by its routing. DESIGN CHOICE:
after an environment fault the later machines do not tick (log entry 30). -/
def Net.tickAll (n : Net) : Except NetEnd Net := (List.range n.size).foldlM Net.tickRoute n

/-- One pass (R138): the ticks, then quiescence is looked for. DESIGN CHOICE: an environment fault ends the
pass (log entry 30). -/
def Net.pass (n : Net) : Except NetEnd Net :=
  match n.tickAll with
  | .error e => .error e
  | .ok n => if n.quiescent then n.recover else .ok n

/-- So many passes, or as many as there are before the end. -/
def Net.passes : Nat → Net → Except NetEnd Net
  | 0, n => .ok n
  | k + 1, n =>
    match n.pass with
    | .error e => .error e
    | .ok n => n.passes k

/-- A network of the given programs, in its initial state: every machine polls and sends (R137),
`mailbox` is empty. -/
def Net.ofPrograms (cfg : Config) (natCompare : NatCompare) (programs : List (List Int)) : Net :=
  { sys :=
      { slots := programs.zipIdx.map fun p =>
          { st := attachInput .polling (cin p.2) (attachOutput (cout p.2) (State.loaded cfg p.1))
            started := false
            dropped := false }
        chans := List.replicate (2 * programs.length) Channel.new }
    natCompare := natCompare
    mailbox := none
    injected := none }

end Sys2Proof.Machine
end

