-- ==== Sys2Proof/Safety.lean ====
section
/-! DEFINITION. The terms the claims use: what a parameter reads and where it writes, said from the
rules of the spec and not from the machine's own operations; the invariant of a machine; and what a
safe run is. -/

namespace Sys2Proof.Machine

/-- The parameter reads the word `v` (30_encoding R66): the cell at an address, the parameter word
itself, or the cell at `rb` + offset. -/
inductive Reads (s : State) : Param → Int → Prop where
  | position {raw v : Int} : 0 ≤ raw → v = s.mem.read raw.toNat → Reads s ⟨.position, raw⟩ v
  | immediate {raw v : Int} : v = raw → Reads s ⟨.immediate, raw⟩ v
  | relative {raw v : Int} : 0 ≤ s.rb + raw → s.rb + raw ≤ wmax s.cfg.wordBits →
      v = s.mem.read (s.rb + raw).toNat → Reads s ⟨.relative, raw⟩ v

/-- The parameter writes the cell at address `addr` (R67). -/
inductive Targets (s : State) : Param → Nat → Prop where
  | position {raw : Int} {addr : Nat} : raw = (addr : Int) → Targets s ⟨.position, raw⟩ addr
  | relative {raw : Int} {addr : Nat} : s.rb + raw = (addr : Int) →
      s.rb + raw ≤ wmax s.cfg.wordBits → Targets s ⟨.relative, raw⟩ addr

/-- An address that a parameter of `i` forms: its word in position mode, `rb` + offset in relative mode
(R66, R67). -/
inductive Forms (s : State) (i : Instr) : Int → Prop where
  | position {p : Param} : p ∈ i.params → p.mode = .position → Forms s i p.raw
  | relative {p : Param} : p ∈ i.params → p.mode = .relative → Forms s i (s.rb + p.raw)

/-- A value that `i` puts through `chk` (the cause column of `OVERFLOW` in R111): the address of a
parameter word or of the next instruction, a relative address, a sum, a product, a new `rb`. -/
inductive Checks (s : State) : Instr → Int → Prop where
  | word {i : Instr} {k : Nat} : 1 ≤ k → k ≤ i.width → Checks s i (s.pc + k)
  | address {i : Instr} {p : Param} : p ∈ i.params → p.mode = .relative → Checks s i (s.rb + p.raw)
  | sum {a b d : Param} {v w : Int} : Reads s a v → Reads s b w → Checks s (.add a b d) (v + w)
  | product {a b d : Param} {v w : Int} : Reads s a v → Reads s b w → Checks s (.mul a b d) (v * w)
  | base {a : Param} {v : Int} : Reads s a v → Checks s (.adjrel a) (s.rb + v)

/-- The instruction at `pc` and the address after it are addresses (R24, R69). -/
def Fits (s : State) (width : Nat) : Prop := 0 ≤ s.pc ∧ s.pc + width ≤ wmax s.cfg.wordBits

/-- The assigned opcodes (R71). -/
def knownOpcodes : List Int := [1, 2, 3, 4, 5, 6, 7, 8, 9, 99]

/-- The number of words of an instruction, by its opcode (the width column of R64). -/
def widthOfOpcode (op : Int) : Nat :=
  if op ∈ [1, 2, 7, 8] then 4 else if op ∈ [5, 6] then 3 else if op ∈ [3, 4, 9] then 2 else 1

/-- The exact result of `add`, `mul`, `lt` and `eq` (40_arith_compare R86 to R89). -/
def resultOf (i : Instr) (v1 v2 : Int) : Option Int :=
  match i with
  | .add .. => some (v1 + v2)
  | .mul .. => some (v1 * v2)
  | .lt .. => some (if v1 < v2 then 1 else 0)
  | .eq .. => some (if v1 = v2 then 1 else 0)
  | .input .. | .output .. | .jnz .. | .jz .. | .adjrel .. | .halt => none

/-- The instructions that use the port (41_io R99). -/
def usesPort (i : Instr) : Bool :=
  match i with
  | .input .. | .output .. => true
  | .add .. | .mul .. | .lt .. | .eq .. | .jnz .. | .jz .. | .adjrel .. | .halt => false

/-- The instructions that read `rb`: opcode 9, and those with a relative parameter (10_state R25). -/
def readsRb (i : Instr) : Bool :=
  i.params.any (fun p => decide (p.mode = .relative)) ||
    match i with
    | .adjrel .. => true
    | .add .. | .mul .. | .lt .. | .eq .. | .input .. | .output .. | .jnz .. | .jz .. | .halt => false

/-- What holds of a machine that `load` made and that only ticks and host operations have changed. -/
structure State.Inv (s : State) : Prop where
  /-- 0, 1 and -1 are words (log entry 5) -/
  cfg_legal : s.cfg.legal
  /-- the memory's list is in its canonical form -/
  mem_wf : s.mem.wf
  /-- every cell's address is a word (20_memory R45) -/
  mem_ext : (s.mem.ext : Int) ≤ wmax s.cfg.wordBits + 1
  /-- every cell is a word (R40) -/
  mem_words : ∀ a, IsWord s.cfg.wordBits (s.mem.read a)
  /-- R23 -/
  pc_word : IsWord s.cfg.wordBits s.pc
  /-- R25 -/
  rb_word : IsWord s.cfg.wordBits s.rb
  /-- R29 -/
  seed_words : ∀ v ∈ s.seed, IsWord s.cfg.wordBits v
  /-- R31 -/
  chans_words : ∀ c, ∀ v ∈ (s.chan c).q, IsWord s.cfg.wordBits v
  /-- R33 -/
  lastOut_word : ∀ v, s.lastOut = some v → IsWord s.cfg.wordBits v
  /-- R27 -/
  halted_iff : s.status = .halted ↔ s.haltCause ≠ none
  /-- R28 -/
  faulted_iff : s.status = .faulted ↔ s.fault ≠ none
  /-- R112 -/
  fault_words : ∀ r, s.fault = some r →
    IsWord s.cfg.wordBits r.pc ∧ ∀ w, r.word = some w → IsWord s.cfg.wordBits w

/-- The state after so many ticks. -/
def afterN : Nat → State → State
  | 0, s => s
  | n + 1, s => afterN n (after s)

/-- A safe run takes no fault. -/
def State.Safe (s : State) : Prop := ∀ n, (afterN n s).status ≠ .faulted

/-- Two states that agree on all but the memory's representation: every address reads the same. -/
def SameButUnwritten (s t : State) : Prop :=
  (∀ a, s.mem.read a = t.mem.read a) ∧ t.setMem s.mem = s

/-- `t` with the I/O state of `s`: the fields that only the port reads or writes (41_io). -/
def withPortsOf (s t : State) : State :=
  { t with
    seed := s.seed, inEp := s.inEp, outEp := s.outEp, idle := s.idle, lastOut := s.lastOut,
    chans := s.chans }

/-- The two instances own no half of a channel in common, and each channel they own is alive at both
ends (10_state R31; the premises of 20_memory R59). -/
structure System.Apart (sys : System) (i j : Slot) : Prop where
  inputs : ∀ c, i.st.inEp.chan? = some c → j.st.inEp.chan? ≠ some c
  outputs : ∀ c, i.st.outEp.chan? = some c → j.st.outEp.chan? ≠ some c
  alive : ∀ c, (getChan sys.chans c).senderAlive = true ∧ (getChan sys.chans c).receiverAlive = true

/-- The input endpoint is not polling (R30, R59). -/
def InEp.notPolling : InEp → Bool
  | .absent => true
  | .blocking _ => true
  | .polling _ => false

/-- Every channel an instance owns a half of exists, and no two instances own the same half
(10_state R31; 93_implementation_defined row 14). DEDUCED: a dropped instance counts, its half goes to no
one else (log entry 27). -/
structure System.OneOwner (sys : System) : Prop where
  created : ∀ sl ∈ sys.slots, ∀ c, sl.st.inEp.chan? = some c ∨ sl.st.outEp.chan? = some c →
    c < sys.chans.length
  receivers : ∀ (i j : Nat) (si sj : Slot) (c : Nat), sys.slots[i]? = some si →
    sys.slots[j]? = some sj → si.st.inEp.chan? = some c → sj.st.inEp.chan? = some c → i = j
  senders : ∀ (i j : Nat) (si sj : Slot) (c : Nat), sys.slots[i]? = some si →
    sys.slots[j]? = some sj → si.st.outEp.chan? = some c → sj.st.outEp.chan? = some c → i = j

/-- Quiescence, in the words of 60_exceptions R138: every machine has `idle >= 2` and no queue between a
machine and the Switch holds a value. -/
structure Net.Quiet (n : Net) : Prop where
  idle : ∀ sl ∈ n.sys.slots, 2 ≤ sl.st.idle
  noInput : ∀ i, i < n.size → n.queue (cin i) = []
  noOutput : ∀ i, i < n.size → n.queue (cout i) = []

end Sys2Proof.Machine
end

