-- ==== Sys2Proof/Certificates/Slice0/Obligations.lean ====
section
/-! DEFINITION. The statements for the provers. Each docstring names the rules of spec/ it formalises.
`Reads`, `Targets` and `Fits` are said in Safety.lean from the rules, not from the machine. -/

open Sys2Proof Sys2Proof.Machine

/-! ### Encoding and decoding (30_encoding) -/

/-- R60, R61, R64: decoding the words of any instruction, whatever follows them and whatever the policy
for unused digits, gives that instruction with every parameter. -/
def Obligations.EncodedWordsDecodeBack : Prop :=
  ∀ (pol : UnusedModePolicy) (i : Instr) (rest : List Int), decode pol (encode i ++ rest) = .ok i

/-- R61, R73: under the strict policy, a word list of the decoded length whose instruction word has no
digit above digit_4 is the canonical encoding of what it decodes to. The spec's own decision D5 (log
entry 3). The spec marks R73 as derived. -/
def Obligations.StrictWordsReencode : Prop :=
  ∀ (ws : List Int) (i : Instr), decode .faultIfNonzero ws = .ok i → ws.getD 0 0 < 100000 →
    ws.length = i.width → encode i = ws

/-- R63: a negative word or an unassigned opcode is `UNKNOWN_OPCODE` with that word; any other word
decodes to its opcode, with the mode digits taken from its decimal digits. The spec's own decisions D3,
D32 (log entry 3). -/
def Obligations.DecoderFollowsDigits : Prop :=
  ∀ (pol : UnusedModePolicy) (w : Int) (ps : List Int),
    (w < 0 ∨ w % 100 ∉ knownOpcodes → decode pol (w :: ps) = .error (.unknownOpcode w)) ∧
    (0 ≤ w → w % 100 ∈ knownOpcodes → ∃ i, decode .ignore (w :: ps) = .ok i ∧
      (i.opcode : Int) = w % 100 ∧
      i.params.map (fun p => (p.mode.digit : Int)) =
        (List.range i.arity).map (fun k => w / 10 ^ (k + 2) % 10) ∧
      i.params.map Param.raw = (List.range i.arity).map (fun k => ps.getD k 0))

/-- R68: under `ignore` an unused digit has no effect; under `fault_if_invalid` an unused digit outside
0, 1, 2 raises `INVALID_MODE (i, m_i)`; under `fault_if_nonzero` any non-zero one does. Of several, the
one of the lowest position is reported (the order of R69). The spec's own decisions D5, D9 (log entry
3). -/
def Obligations.UnusedDigitPolicy : Prop :=
  (∀ (w : Int) (ps : List Int) (i : Instr), decode .ignore (w :: ps) = .ok i →
    (∀ w', 0 ≤ w' → w' % 10 ^ (i.arity + 2) = w % 10 ^ (i.arity + 2) →
      decode .ignore (w' :: ps) = .ok i) ∧
    ((∀ k, i.arity < k → k ≤ 3 → w / 10 ^ (k + 1) % 10 ≤ 2) →
      decode .faultIfInvalid (w :: ps) = .ok i) ∧
    (∀ k, i.arity < k → k ≤ 3 → 2 < w / 10 ^ (k + 1) % 10 →
      (∀ j, i.arity < j → j < k → w / 10 ^ (j + 1) % 10 ≤ 2) →
      decode .faultIfInvalid (w :: ps) = .error (.invalidMode k (w / 10 ^ (k + 1) % 10).toNat)) ∧
    ((∀ k, i.arity < k → k ≤ 3 → w / 10 ^ (k + 1) % 10 = 0) →
      decode .faultIfNonzero (w :: ps) = .ok i) ∧
    (∀ k, i.arity < k → k ≤ 3 → w / 10 ^ (k + 1) % 10 ≠ 0 →
      (∀ j, i.arity < j → j < k → w / 10 ^ (j + 1) % 10 = 0) →
      decode .faultIfNonzero (w :: ps) = .error (.invalidMode k (w / 10 ^ (k + 1) % 10).toNat))) ∧
  (∀ (s : State) (k d : Nat), s.status = .running → 0 ≤ s.pc →
    decode s.cfg.unusedMode (wordsAt s.mem s.pc.toNat) = .error (.invalidMode k d) →
    step s = .next (takeFault ⟨.invalidMode, .modeDigit k d⟩ s))

/-- R61, R72: the digits at and above digit_5 are never read. The spec's own decision D3 (log entry 3).
The spec marks R72 as derived. -/
def Obligations.HighDigitsNeverRead : Prop :=
  ∀ (pol : UnusedModePolicy) (w : Int) (ps : List Int) (i : Instr), 0 ≤ w →
    (decode pol (w :: ps) = .ok i ↔ decode pol (w % 100000 :: ps) = .ok i)

/-- R74, with the widths of R64: the length of an instruction is a function of its opcode alone. -/
def Obligations.LengthFollowsOpcode : Prop :=
  ∀ (pol : UnusedModePolicy) (ws : List Int) (i : Instr), decode pol ws = .ok i →
    i.width = i.arity + 1 ∧ i.width = widthOfOpcode (ws.getD 0 0 % 100) ∧
      (encode i).length = i.width

/-- The words of vector L1-1 of 95_test_vectors.md decode as its table says. The spec's own decision D3
(log entry 3). -/
def Obligations.SampleWordsDecode : Prop :=
  decode .ignore [1002, 4, 3, 4] = .ok (.mul ⟨.position, 4⟩ ⟨.immediate, 3⟩ ⟨.position, 4⟩) ∧
  decode .ignore [1105, 1, 9] = .ok (.jnz ⟨.immediate, 1⟩ ⟨.immediate, 9⟩) ∧
  decode .ignore [21101, 3, 4, 0] = .ok (.add ⟨.immediate, 3⟩ ⟨.immediate, 4⟩ ⟨.relative, 0⟩) ∧
  decode .ignore [203, 5] = .ok (.input ⟨.relative, 5⟩) ∧
  decode .ignore [2106, 0, 7] = .ok (.jz ⟨.immediate, 0⟩ ⟨.relative, 7⟩) ∧
  decode .ignore [99] = .ok .halt ∧
  decode .ignore [100001, 1, 2, 3] = .ok (.add ⟨.position, 1⟩ ⟨.position, 2⟩ ⟨.position, 3⟩) ∧
  decode .ignore [1099] = .ok .halt ∧
  decode .ignore [301, 0, 0, 0] = .ok (.add ⟨.reserved 0, 0⟩ ⟨.position, 0⟩ ⟨.position, 0⟩) ∧
  decode .ignore [11101, 1, 2, 3] =
    .ok (.add ⟨.immediate, 1⟩ ⟨.immediate, 2⟩ ⟨.immediate, 3⟩) ∧
  decode .ignore [0] = .error (.unknownOpcode 0) ∧
  decode .ignore [100] = .error (.unknownOpcode 100) ∧
  decode .ignore [98] = .error (.unknownOpcode 98) ∧
  decode .ignore [-1] = .error (.unknownOpcode (-1))

/-! ### The tick (30_encoding R62, R69) -/

/-- R69: a step of a running machine whose words at `pc` decode to `i` is the execution of `i`; the step
adds nothing around it, the execution itself moves `pc`. The spec's own decision D9 (log entry 3). -/
def Obligations.StepRunsDecodedInstruction : Prop :=
  ∀ (s : State) (i : Instr), s.status = .running → 0 ≤ s.pc →
    decode s.cfg.unusedMode (wordsAt s.mem s.pc.toNat) = .ok i → step s = exec i s

/-- R60, R69: a step of a running machine that holds the words of `i` at `pc` executes `i`, under every
policy and whatever stands behind them. -/
def Obligations.StepRunsInstructionInMemory : Prop :=
  ∀ (s : State) (i : Instr), s.status = .running → 0 ≤ s.pc →
    (∀ k, k < i.width → s.mem.read (s.pc.toNat + k) = (encode i).getD k 0) → step s = exec i s

/-- R62, R63: a fetch at a negative `pc` raises `NEGATIVE_ADDRESS`; a fetch at or beyond the extent
yields 0, which is `UNKNOWN_OPCODE`; so is every other word that is negative or of no assigned opcode.
The spec's own decisions D3, D10 (log entry 3). The spec marks R62 as derived. -/
def Obligations.FetchFaults : Prop :=
  ∀ s : State, s.status = .running →
    (s.pc < 0 → step s = .next { s with
      status := .faulted, fault := some ⟨.negativeAddress, s.pc, none, .int s.pc⟩ }) ∧
    (0 ≤ s.pc → (s.mem.ext : Int) ≤ s.pc → step s = .next { s with
      status := .faulted, fault := some ⟨.unknownOpcode, s.pc, some 0, .int 0⟩ }) ∧
    (∀ w, 0 ≤ s.pc → s.mem.read s.pc.toNat = w → w < 0 ∨ w % 100 ∉ knownOpcodes →
      step s = .next { s with
        status := .faulted, fault := some ⟨.unknownOpcode, s.pc, some w, .int w⟩ })

/-- The model's own reading of R110 (log entry 11): no step ever stops; holds, halts and faults are next
states too. -/
def Obligations.EveryStepAnswersNext : Prop :=
  ∀ s : State, ∃ t, step s = .next t

/-- R115: `Halted` and `Faulted` are terminal. A tick changes nothing and reports the status; no host
operation on the instance changes `status` or `fault`. A halted machine runs safely. The spec's own
decision D15 (log entry 3). -/
def Obligations.TerminalStatesNeverChange : Prop :=
  ∀ s : State,
    (s.status = .halted → step s = .next s ∧ report s = .halted ∧ s.Safe) ∧
    (∀ r, s.status = .faulted → s.fault = some r →
      step s = .next s ∧ report s = .faulted (some r.code)) ∧
    (∀ vs, (preSeed vs s).status = s.status ∧ (preSeed vs s).fault = s.fault) ∧
    (∀ a v t, patch a v s = .ok t → t.status = s.status ∧ t.fault = s.fault) ∧
    (∀ d c, (attachInput d c s).status = s.status ∧ (attachInput d c s).fault = s.fault) ∧
    (∀ c, (attachOutput c s).status = s.status ∧ (attachOutput c s).fault = s.fault)

/-! ### The invariant -/

/-- Every step keeps the invariant: memory stays canonical, every stored value stays a word (R8, R10),
`halt_cause` and `fault` stay in step with `status` (R26 to R28). -/
def Obligations.StepKeepsInvariant : Prop :=
  ∀ s t : State, s.Inv → step s = .next t → t.Inv

/-- The reset state meets the invariant. -/
def Obligations.ResetMeetsInvariant : Prop := State.reset.Inv

/-- Every machine that R151 gives from words meets the invariant, under every legal width (log entry 5). -/
def Obligations.LoadedMachineMeetsInvariant : Prop :=
  ∀ (cfg : Config) (ws : List Int), cfg.legal → (∀ w ∈ ws, IsWord cfg.wordBits w) →
    (ws.length : Int) ≤ wmax cfg.wordBits + 1 → (State.loaded cfg ws).Inv

/-! ### Faults and halts as whole-machine rules (60_exceptions, 10_state) -/

/-- R110, R112: a tick that faults commits `status` and the record and nothing else; the record holds
the `pc` of the instruction and its word, `none` when the fetch itself faulted; the tick reports the
code. The spec's own decision D10 (log entry 3). -/
def Obligations.FaultsArePrecise : Prop :=
  ∀ s t : State, s.status = .running → step s = .next t → t.status = .faulted →
    ∃ code info, t = { s with
        status := .faulted
        fault := some ⟨code, s.pc,
          if s.pc < 0 then none else some (s.mem.read s.pc.toNat), info⟩ } ∧
      report s = .faulted (some code)

/-- R111, its cause and `info` columns: what each code says of the state it was raised in. The word; the
negative `pc`, or a negative address that a parameter forms; the raw word of an immediate dest;
nothing; the position and digit of a used mode, or of an unused one that the policy refuses; the
out-of-range value that the instruction puts through `chk`; the dest address at or above the cap. The
spec's own decisions D2, D4, D5, D7, D25 (log entry 3). -/
def Obligations.FaultInfoMatchesCode : Prop :=
  ∀ (s t : State) (r : FaultRecord), s.status = .running → step s = .next t →
    t.status = .faulted → t.fault = some r →
    match r.code with
    | .unknownOpcode =>
      ∃ w, r.word = some w ∧ r.info = .int w ∧ (w < 0 ∨ w % 100 ∉ knownOpcodes)
    | .negativeAddress => ∃ a, a < 0 ∧ r.info = .int a ∧
        (a = s.pc ∧ r.word = none ∨ ∃ i, fetchInstr s = .ok i ∧ Forms s i a)
    | .immediateWrite => ∃ i raw, fetchInstr s = .ok i ∧ i.opcode ∈ [1, 2, 3, 7, 8] ∧
        i.params.getLast? = some ⟨.immediate, raw⟩ ∧ r.info = .int raw
    | .inputNotWired => r.info = .none ∧ s.seed = [] ∧ s.inEp = .absent ∧
        ∃ d, fetchInstr s = .ok (.input d)
    | .invalidMode => ∃ (w : Int) (k d : Nat), r.word = some w ∧ r.info = .modeDigit k d ∧
        1 ≤ k ∧ k ≤ 3 ∧ (d : Int) = w / 10 ^ (k + 1) % 10 ∧
        (k < widthOfOpcode (w % 100) ∧ 2 < d ∨
          widthOfOpcode (w % 100) ≤ k ∧ (s.cfg.unusedMode = .faultIfInvalid ∧ 2 < d ∨
            s.cfg.unusedMode = .faultIfNonzero ∧ d ≠ 0))
    | .overflow => ∃ v i, r.info = .int v ∧ ¬ IsWord s.cfg.wordBits v ∧ fetchInstr s = .ok i ∧
        Checks s i v
    | .memoryExhausted => ∃ (addr : Nat) (i : Instr) (p : Param), r.info = .int addr ∧
        s.cfg.memCap ≤ addr ∧ fetchInstr s = .ok i ∧ i.opcode ∈ [1, 2, 3, 7, 8] ∧
        i.params.getLast? = some p ∧ Targets s p addr

/-- R69, R113: an operand fault comes before the instruction's own effect and checks, the parameters in
increasing order, then `next`. The spec's own decision D9 (log entry 3). -/
def Obligations.OperandFaultsComeInOrder : Prop :=
  ∀ (s : State) (c : FaultCause) (a b d : Param),
    (∀ i ∈ [Instr.add a b d, .mul a b d, .lt a b d, .eq a b d],
      (readParam s 1 a = .error c → exec i s = .next (takeFault c s)) ∧
      (∀ v, readParam s 1 a = .ok v → readParam s 2 b = .error c →
        exec i s = .next (takeFault c s)) ∧
      (∀ v w, readParam s 1 a = .ok v → readParam s 2 b = .ok w → destParam s 3 d = .error c →
        exec i s = .next (takeFault c s)) ∧
      (∀ v w x, readParam s 1 a = .ok v → readParam s 2 b = .ok w → destParam s 3 d = .ok x →
        nextPc s 4 = .error c → exec i s = .next (takeFault c s))) ∧
    (∀ i ∈ [Instr.jnz a b, .jz a b],
      (readParam s 1 a = .error c → exec i s = .next (takeFault c s)) ∧
      (∀ v, readParam s 1 a = .ok v → readParam s 2 b = .error c →
        exec i s = .next (takeFault c s)) ∧
      (∀ v w, readParam s 1 a = .ok v → readParam s 2 b = .ok w → nextPc s 3 = .error c →
        exec i s = .next (takeFault c s))) ∧
    (∀ i ∈ [Instr.output a, .adjrel a],
      (readParam s 1 a = .error c → exec i s = .next (takeFault c s)) ∧
      (∀ v, readParam s 1 a = .ok v → nextPc s 2 = .error c →
        exec i s = .next (takeFault c s))) ∧
    (destParam s 1 d = .error c → exec (.input d) s = .next (takeFault c s)) ∧
    (∀ x, destParam s 1 d = .ok x → nextPc s 2 = .error c →
      exec (.input d) s = .next (takeFault c s)) ∧
    (nextPc s 1 = .error c → exec .halt s = .next (takeFault c s))

/-- R27: `Halted` comes from opcode 99, from an output whose receiver is gone, or from a blocking input
whose producer is gone, and `halt_cause` says which. The spec's own decisions D11, D21 (log entry 3). -/
def Obligations.OnlyThreeTransitionsHalt : Prop :=
  ∀ s t : State, s.status = .running → step s = .next t → t.status = .halted →
    (t.haltCause = some .opcode99 ∧ fetchInstr s = .ok .halt) ∨
    (t.haltCause = some .sendFailed ∧ ∃ a c, fetchInstr s = .ok (.output a) ∧
      s.outEp = .channel c ∧ (s.chan c).receiverAlive = false) ∨
    (t.haltCause = some .producerGone ∧ ∃ d c, fetchInstr s = .ok (.input d) ∧ s.seed = [] ∧
      s.inEp = .blocking c ∧ (s.chan c).q = [] ∧ (s.chan c).senderAlive = false)

/-- R25: opcode 9 is the only writer of `rb`, and it adds its operand; relative-mode parameters are, with
opcode 9, its only readers: any other instruction does the same whatever `rb` holds. -/
def Obligations.RelativeBaseWritersAndReaders : Prop :=
  (∀ s t : State, step s = .next t → t.rb ≠ s.rb →
    ∃ a v, fetchInstr s = .ok (.adjrel a) ∧ Reads s a v ∧ t.rb = s.rb + v) ∧
  (∀ (i : Instr) (s t : State) (r : Int), readsRb i = false → exec i s = .next t →
    exec i { s with rb := r } = .next { t with rb := r })

/-- R30, R32, R31, R124: no tick changes an endpoint, a parameter or a liveness flag, nor a channel that
neither endpoint names. The spec's own decision D31 (log entry 3). -/
def Obligations.TicksKeepWiring : Prop :=
  ∀ s t : State, step s = .next t →
    t.inEp = s.inEp ∧ t.outEp = s.outEp ∧ t.cfg = s.cfg ∧
    (∀ c, (t.chan c).senderAlive = (s.chan c).senderAlive ∧
      (t.chan c).receiverAlive = (s.chan c).receiverAlive) ∧
    (∀ c, s.inEp.chan? ≠ some c → s.outEp.chan? ≠ some c → t.chan c = s.chan c)

/-- R34: the idle counter is changed by opcode 3 only. The spec's own decisions D12, D27 (log entry 3). -/
def Obligations.OnlyInputChangesIdle : Prop :=
  ∀ s t : State, step s = .next t → t.idle ≠ s.idle →
    (∃ d, fetchInstr s = .ok (.input d)) ∧ (t.idle = 0 ∨ t.idle = s.idle + 1)

/-! ### Memory and operands (20_memory, 30_encoding R65 to R67) -/

/-- R41: what `MemRead` gives at a negative address, beyond the extent, and below it. -/
def Obligations.MemoryReadRule : Prop :=
  ∀ (s : State) (a : Int),
    (a < 0 → memRead s a = .error ⟨.negativeAddress, .int a⟩) ∧
    (0 ≤ a → (s.mem.ext : Int) ≤ a → memRead s a = .ok 0) ∧
    (0 ≤ a → a < s.mem.ext → s.mem.wf → ∀ v, (a.toNat, v) ∈ s.mem.cells → memRead s a = .ok v) ∧
    (0 ≤ a → a < s.mem.ext → (∀ v, (a.toNat, v) ∉ s.mem.cells) → memRead s a = .ok 0)

/-- R42: what `MemWrite` does: its two faults, and otherwise the store, with the gap reading 0 and
nothing else changed. The spec's own decision D7 (log entry 3). -/
def Obligations.MemoryWriteRule : Prop :=
  ∀ (s : State) (a v : Int),
    (a < 0 → memWrite s a v = .error ⟨.negativeAddress, .int a⟩) ∧
    (0 ≤ a → (s.cfg.memCap : Int) ≤ a → memWrite s a v = .error ⟨.memoryExhausted, .int a⟩) ∧
    (0 ≤ a → a < s.cfg.memCap → s.mem.wf → ∃ m, memWrite s a v = .ok { s with mem := m } ∧
      m.wf ∧ m.ext = (if a < s.mem.ext then s.mem.ext else a.toNat + 1) ∧ m.read a.toNat = v ∧
      (∀ k, k ≠ a.toNat → m.read k = s.mem.read k) ∧
      (∀ k, s.mem.ext ≤ k → k < a.toNat → m.read k = 0))

/-- R43: the extent only grows, over every tick and every host write; a write below it leaves it; after
a write beyond it the address reads the value and the gap reads 0. -/
def Obligations.ExtentOnlyGrows : Prop :=
  (∀ s t : State, step s = .next t → s.mem.ext ≤ t.mem.ext) ∧
  (∀ (s t : State) (a v : Int), patch a v s = .ok t → s.mem.ext ≤ t.mem.ext) ∧
  (∀ (s t : State) (a v : Int), s.mem.wf → memWrite s a v = .ok t →
    (a < s.mem.ext → t.mem.ext = s.mem.ext) ∧
    ((s.mem.ext : Int) ≤ a → memRead t a = .ok v ∧
      ∀ k : Nat, (k : Int) < a → s.mem.read k = 0 → memRead t k = .ok 0))

/-- R65: parameter word `i` is the word at `pc + i`, fetched through `chk`; a used mode digit outside 0,
1, 2 raises `INVALID_MODE (i, m_i)`. The spec's own decision D4 (log entry 3). -/
def Obligations.ParameterWordRule : Prop :=
  (∀ (s : State) (i : Instr), fetchInstr s = .ok i →
    i.params.map Param.raw =
      (List.range i.arity).map (fun k => s.mem.read (s.pc.toNat + (k + 1)))) ∧
  (∀ (s : State) (i : Nat) (p : Param), 0 ≤ s.pc →
    (¬ IsWord s.cfg.wordBits (s.pc + i) →
      readParam s i p = .error ⟨.overflow, .int (s.pc + i)⟩ ∧
      destParam s i p = .error ⟨.overflow, .int (s.pc + i)⟩) ∧
    (∀ k : Fin 7, IsWord s.cfg.wordBits (s.pc + i) → p.mode = .reserved k →
      readParam s i p = .error ⟨.invalidMode, .modeDigit i (k + 3)⟩ ∧
      destParam s i p = .error ⟨.invalidMode, .modeDigit i (k + 3)⟩))

/-- R66: the value of a read parameter in each of the three modes, and the faults of modes 0 and 2. -/
def Obligations.ReadParameterRule : Prop :=
  ∀ (s : State) (i w : Nat) (raw : Int), Fits s w → i ≤ w →
    (0 ≤ raw → readParam s i ⟨.position, raw⟩ = .ok (s.mem.read raw.toNat)) ∧
    (raw < 0 → readParam s i ⟨.position, raw⟩ = .error ⟨.negativeAddress, .int raw⟩) ∧
    readParam s i ⟨.immediate, raw⟩ = .ok raw ∧
    (¬ IsWord s.cfg.wordBits (s.rb + raw) →
      readParam s i ⟨.relative, raw⟩ = .error ⟨.overflow, .int (s.rb + raw)⟩) ∧
    (IsWord s.cfg.wordBits (s.rb + raw) → s.rb + raw < 0 →
      readParam s i ⟨.relative, raw⟩ = .error ⟨.negativeAddress, .int (s.rb + raw)⟩) ∧
    (IsWord s.cfg.wordBits (s.rb + raw) → 0 ≤ s.rb + raw →
      readParam s i ⟨.relative, raw⟩ = .ok (s.mem.read (s.rb + raw).toNat))

/-- R67: the address of a dest parameter in modes 0 and 2, the fault of mode 1, and the sign check. -/
def Obligations.DestParameterRule : Prop :=
  ∀ (s : State) (i w : Nat) (raw : Int), Fits s w → i ≤ w →
    (0 ≤ raw → destParam s i ⟨.position, raw⟩ = .ok raw) ∧
    (raw < 0 → destParam s i ⟨.position, raw⟩ = .error ⟨.negativeAddress, .int raw⟩) ∧
    destParam s i ⟨.immediate, raw⟩ = .error ⟨.immediateWrite, .int raw⟩ ∧
    (¬ IsWord s.cfg.wordBits (s.rb + raw) →
      destParam s i ⟨.relative, raw⟩ = .error ⟨.overflow, .int (s.rb + raw)⟩) ∧
    (IsWord s.cfg.wordBits (s.rb + raw) → s.rb + raw < 0 →
      destParam s i ⟨.relative, raw⟩ = .error ⟨.negativeAddress, .int (s.rb + raw)⟩) ∧
    (IsWord s.cfg.wordBits (s.rb + raw) → 0 ≤ s.rb + raw →
      destParam s i ⟨.relative, raw⟩ = .ok (s.rb + raw))

/-! ### The instructions (40_arith_compare, 41_io, 42_control)

Each next state is written out, so each statement says its frame too: every field not named keeps its
value. What `Memory.write` does to the other addresses is `MemoryWriteRule`. -/

/-- R86: `add` stores the exact sum, or faults with nothing written. -/
def Obligations.AddRule : Prop :=
  ∀ (s : State) (a b d : Param) (v1 v2 : Int) (addr : Nat),
    Fits s 4 → Reads s a v1 → Reads s b v2 → Targets s d addr →
    (IsWord s.cfg.wordBits (v1 + v2) → addr < s.cfg.memCap →
      exec (.add a b d) s =
        .next { s with mem := s.mem.write addr (v1 + v2), pc := s.pc + 4 }) ∧
    (¬ IsWord s.cfg.wordBits (v1 + v2) →
      exec (.add a b d) s = .next (takeFault ⟨.overflow, .int (v1 + v2)⟩ s)) ∧
    (IsWord s.cfg.wordBits (v1 + v2) → s.cfg.memCap ≤ addr →
      exec (.add a b d) s = .next (takeFault ⟨.memoryExhausted, .int addr⟩ s)) ∧
    encode (.add a b d) =
      [(1 + 100 * a.mode.digit + 1000 * b.mode.digit + 10000 * d.mode.digit : Int), a.raw, b.raw, d.raw]

/-- R87: `mul` stores the exact product, or faults with nothing written. -/
def Obligations.MulRule : Prop :=
  ∀ (s : State) (a b d : Param) (v1 v2 : Int) (addr : Nat),
    Fits s 4 → Reads s a v1 → Reads s b v2 → Targets s d addr →
    (IsWord s.cfg.wordBits (v1 * v2) → addr < s.cfg.memCap →
      exec (.mul a b d) s =
        .next { s with mem := s.mem.write addr (v1 * v2), pc := s.pc + 4 }) ∧
    (¬ IsWord s.cfg.wordBits (v1 * v2) →
      exec (.mul a b d) s = .next (takeFault ⟨.overflow, .int (v1 * v2)⟩ s)) ∧
    (IsWord s.cfg.wordBits (v1 * v2) → s.cfg.memCap ≤ addr →
      exec (.mul a b d) s = .next (takeFault ⟨.memoryExhausted, .int addr⟩ s)) ∧
    encode (.mul a b d) =
      [(2 + 100 * a.mode.digit + 1000 * b.mode.digit + 10000 * d.mode.digit : Int), a.raw, b.raw, d.raw]

/-- R88: `lt` stores 1 if the first value is less (signed), else 0. -/
def Obligations.LtRule : Prop :=
  ∀ (s : State) (a b d : Param) (v1 v2 : Int) (addr : Nat),
    Fits s 4 → Reads s a v1 → Reads s b v2 → Targets s d addr →
    (addr < s.cfg.memCap → v1 < v2 →
      exec (.lt a b d) s = .next { s with mem := s.mem.write addr 1, pc := s.pc + 4 }) ∧
    (addr < s.cfg.memCap → v2 ≤ v1 →
      exec (.lt a b d) s = .next { s with mem := s.mem.write addr 0, pc := s.pc + 4 }) ∧
    (s.cfg.memCap ≤ addr →
      exec (.lt a b d) s = .next (takeFault ⟨.memoryExhausted, .int addr⟩ s)) ∧
    encode (.lt a b d) =
      [(7 + 100 * a.mode.digit + 1000 * b.mode.digit + 10000 * d.mode.digit : Int), a.raw, b.raw, d.raw]

/-- R89: `eq` stores 1 if the values are equal, else 0. -/
def Obligations.EqRule : Prop :=
  ∀ (s : State) (a b d : Param) (v1 v2 : Int) (addr : Nat),
    Fits s 4 → Reads s a v1 → Reads s b v2 → Targets s d addr →
    (addr < s.cfg.memCap → v1 = v2 →
      exec (.eq a b d) s = .next { s with mem := s.mem.write addr 1, pc := s.pc + 4 }) ∧
    (addr < s.cfg.memCap → v1 ≠ v2 →
      exec (.eq a b d) s = .next { s with mem := s.mem.write addr 0, pc := s.pc + 4 }) ∧
    (s.cfg.memCap ≤ addr →
      exec (.eq a b d) s = .next (takeFault ⟨.memoryExhausted, .int addr⟩ s)) ∧
    encode (.eq a b d) =
      [(8 + 100 * a.mode.digit + 1000 * b.mode.digit + 10000 * d.mode.digit : Int), a.raw, b.raw, d.raw]

/-- R90, R91, R93: `input` takes the head of `seed`, else the endpoint's outcome: a value is popped,
written and resets `idle`; a poll that finds nothing writes -1 and counts; a blocking input holds, or
halts once its producer is gone; with nothing wired it faults; a full memory faults with nothing popped.
The spec's own decisions D11 to D14, D28 (log entry 3). -/
def Obligations.InputRule : Prop :=
  ∀ (s : State) (d : Param) (addr : Nat), Fits s 2 → Targets s d addr →
    (∀ v vs, s.seed = v :: vs → addr < s.cfg.memCap →
      exec (.input d) s = .next { s with
        seed := vs, mem := s.mem.write addr v, idle := 0, pc := s.pc + 2 }) ∧
    (∀ c v vs, s.seed = [] → s.inEp = .blocking c ∨ s.inEp = .polling c →
      (s.chan c).q = v :: vs → addr < s.cfg.memCap →
      exec (.input d) s = .next { s with
        chans := Machine.setChan s.chans c { s.chan c with q := vs }
        mem := s.mem.write addr v, idle := 0, pc := s.pc + 2 }) ∧
    (∀ c, s.seed = [] → s.inEp = .polling c → (s.chan c).q = [] → addr < s.cfg.memCap →
      exec (.input d) s = .next { s with
        mem := s.mem.write addr (-1), idle := s.idle + 1, pc := s.pc + 2 }) ∧
    (∀ c, s.seed = [] → s.inEp = .blocking c → (s.chan c).q = [] →
      (s.chan c).senderAlive = true → exec (.input d) s = .next s) ∧
    (∀ c, s.seed = [] → s.inEp = .blocking c → (s.chan c).q = [] →
      (s.chan c).senderAlive = false →
      exec (.input d) s = .next { s with
        status := .halted, haltCause := some .producerGone }) ∧
    (s.seed = [] → s.inEp = .absent →
      exec (.input d) s = .next (takeFault ⟨.inputNotWired, .none⟩ s)) ∧
    (s.seed ≠ [] ∨ (∃ c, s.inEp = .polling c) ∨
        (∃ c, s.inEp = .blocking c ∧ (s.chan c).q ≠ []) →
      s.cfg.memCap ≤ addr →
      exec (.input d) s = .next (takeFault ⟨.memoryExhausted, .int addr⟩ s)) ∧
    encode (.input d) = [(3 + 100 * d.mode.digit : Int), d.raw]

/-- R95: a poll that finds nothing writes -1 and counts; a receive resets the count; a tick under this
discipline never holds. That a value from `seed` resets the count, too, is the spec's own decision D12, and
that the poll gives the sentinel although the sender is gone is D13 (log entries 3 and 26). -/
def Obligations.PollingReceiveRule : Prop :=
  ∀ (s : State) (d : Param) (c addr : Nat), Fits s 2 → Targets s d addr → s.inEp = .polling c →
    addr < s.cfg.memCap →
    (s.seed = [] → (s.chan c).q = [] →
      exec (.input d) s = .next { s with
        mem := s.mem.write addr (-1), idle := s.idle + 1, pc := s.pc + 2 }) ∧
    (s.seed ≠ [] ∨ (s.chan c).q ≠ [] →
      ∃ t, exec (.input d) s = .next t ∧ t.idle = 0 ∧ t.pc = s.pc + 2) ∧
    report s ≠ .needsInput

/-- R96, R97, R98: `output` records the value when no endpoint is wired, pushes it when the receiver is
alive, and halts with the value discarded when it is not; `pc` advances in every case. The spec's own
decisions D11, D16 (log entry 3). -/
def Obligations.OutputRule : Prop :=
  ∀ (s : State) (a : Param) (v : Int), Fits s 2 → Reads s a v →
    (s.outEp = .absent →
      exec (.output a) s = .next { s with lastOut := some v, pc := s.pc + 2 } ∧
      reportOf (.output a) s = .producedOutput v) ∧
    (∀ c, s.outEp = .channel c → (s.chan c).receiverAlive = true →
      exec (.output a) s = .next { s with
        chans := Machine.setChan s.chans c { s.chan c with q := (s.chan c).q ++ [v] }
        pc := s.pc + 2 } ∧
      reportOf (.output a) s = .producedOutput v) ∧
    (∀ c, s.outEp = .channel c → (s.chan c).receiverAlive = false →
      exec (.output a) s = .next { s with
        status := .halted, haltCause := some .sendFailed, pc := s.pc + 2 }) ∧
    encode (.output a) = [(4 + 100 * a.mode.digit : Int), a.raw]

/-- R105: `jnz` goes to its target, any word, if its first value is not 0, else to the next instruction;
both parameters and `next` are checked either way. The spec's own decision D8 (log entry 3). -/
def Obligations.JnzRule : Prop :=
  (∀ (s : State) (a t : Param) (v target : Int), Fits s 3 → Reads s a v → Reads s t target →
    (v ≠ 0 → exec (.jnz a t) s = .next { s with pc := target }) ∧
    (v = 0 → exec (.jnz a t) s = .next { s with pc := s.pc + 3 }) ∧
    encode (.jnz a t) = [(5 + 100 * a.mode.digit + 1000 * t.mode.digit : Int), a.raw, t.raw]) ∧
  (∀ (s : State) (a t : Param) (v : Int) (c : FaultCause), readParam s 1 a = .ok v →
    readParam s 2 t = .error c ∨ (∃ w, readParam s 2 t = .ok w) ∧ nextPc s 3 = .error c →
    exec (.jnz a t) s = .next (takeFault c s))

/-- R106: `jz` goes to its target if its first value is 0, else to the next instruction. The spec's own
decision D8 (log entry 3). -/
def Obligations.JzRule : Prop :=
  (∀ (s : State) (a t : Param) (v target : Int), Fits s 3 → Reads s a v → Reads s t target →
    (v = 0 → exec (.jz a t) s = .next { s with pc := target }) ∧
    (v ≠ 0 → exec (.jz a t) s = .next { s with pc := s.pc + 3 }) ∧
    encode (.jz a t) = [(6 + 100 * a.mode.digit + 1000 * t.mode.digit : Int), a.raw, t.raw]) ∧
  (∀ (s : State) (a t : Param) (v : Int) (c : FaultCause), readParam s 1 a = .ok v →
    readParam s 2 t = .error c ∨ (∃ w, readParam s 2 t = .ok w) ∧ nextPc s 3 = .error c →
    exec (.jz a t) s = .next (takeFault c s))

/-- R107: `adjrel` adds its operand, read at the old `rb`, to `rb`, or faults; no other instruction writes
`rb`. -/
def Obligations.AdjrelRule : Prop :=
  ∀ (s : State) (a : Param) (v : Int), Fits s 2 → Reads s a v →
    (IsWord s.cfg.wordBits (s.rb + v) →
      exec (.adjrel a) s = .next { s with rb := s.rb + v, pc := s.pc + 2 }) ∧
    (¬ IsWord s.cfg.wordBits (s.rb + v) →
      exec (.adjrel a) s = .next (takeFault ⟨.overflow, .int (s.rb + v)⟩ s)) ∧
    (∀ (i : Instr) (t : State), i.opcode ≠ 9 → exec i s = .next t → t.rb = s.rb) ∧
    encode (.adjrel a) = [(9 + 100 * a.mode.digit : Int), a.raw]

/-- R108: `halt` sets `Halted`, the cause and `pc + 1`, or faults when `pc + 1` is no word; under
`ignore` every non-negative word that ends in 99 is a halt; a tick after it changes nothing. The spec's
own decision D11 (log entry 3). -/
def Obligations.HaltRule : Prop :=
  ∀ s : State,
    (Fits s 1 → ∃ t, exec .halt s = .next t ∧ step t = .next t ∧ report t = .halted ∧
      t = { s with status := .halted, haltCause := some .opcode99, pc := s.pc + 1 }) ∧
    (¬ IsWord s.cfg.wordBits (s.pc + 1) →
      exec .halt s = .next (takeFault ⟨.overflow, .int (s.pc + 1)⟩ s)) ∧
    encode .halt = [99] ∧
    (∀ (w : Int) (ps : List Int), 0 ≤ w → w % 100 = 99 → decode .ignore (w :: ps) = .ok .halt)

/-- The frame of the four storing instructions: no other field changes, and no byte of memory but the
cell at the dest address; a fault changes nothing but the status and the record. The spec's own decision
D10 (log entry 3). -/
def Obligations.StoringFrame : Prop :=
  ∀ (s t : State) (a b d : Param), s.mem.wf →
    ∀ i ∈ [Instr.add a b d, .mul a b d, .lt a b d, .eq a b d], exec i s = .next t →
    t.rb = s.rb ∧ t.haltCause = s.haltCause ∧ t.seed = s.seed ∧ t.inEp = s.inEp ∧
    t.outEp = s.outEp ∧ t.idle = s.idle ∧ t.lastOut = s.lastOut ∧ t.chans = s.chans ∧
    t.cfg = s.cfg ∧
    (∀ x, destParam s 3 d = .ok x →
      ∀ k : Nat, (k : Int) ≠ x → t.mem.read k = s.mem.read k) ∧
    (∀ c, destParam s 3 d = .error c → t.mem = s.mem) ∧
    (t.status = s.status ∧ t.fault = s.fault ∨
      t.status = .faulted ∧ t.mem = s.mem ∧ t.pc = s.pc)

/-- The frame of `input`: what it leaves unchanged, whichever outcome it has. The spec's own decisions
D10, D11, D14 (log entry 3). -/
def Obligations.InputFrame : Prop :=
  ∀ (s t : State) (d : Param), s.mem.wf → exec (.input d) s = .next t →
    t.rb = s.rb ∧ t.inEp = s.inEp ∧ t.outEp = s.outEp ∧ t.lastOut = s.lastOut ∧ t.cfg = s.cfg ∧
    (t.seed = s.seed ∨ t.seed = s.seed.tail ∧ t.chans = s.chans) ∧
    (∀ c, s.inEp.chan? ≠ some c → t.chan c = s.chan c) ∧
    (∀ x, destParam s 1 d = .ok x →
      ∀ k : Nat, (k : Int) ≠ x → t.mem.read k = s.mem.read k) ∧
    (∀ c, destParam s 1 d = .error c → t.mem = s.mem) ∧
    (t.status = s.status ∧ t.fault = s.fault ∧ t.haltCause = s.haltCause ∨
      t.status ≠ .running ∧ t.mem = s.mem ∧ t.pc = s.pc ∧ t.seed = s.seed ∧
        t.chans = s.chans ∧ t.idle = s.idle)

/-- The frame of the instructions that store nothing. The spec's own decisions D10, D11 (log entry 3). -/
def Obligations.NonStoringFrame : Prop :=
  ∀ (s t : State) (a b : Param),
    (∀ i ∈ [Instr.output a, .jnz a b, .jz a b, .adjrel a, .halt], exec i s = .next t →
      t.mem = s.mem ∧ t.seed = s.seed ∧ t.inEp = s.inEp ∧ t.outEp = s.outEp ∧ t.idle = s.idle ∧
      t.cfg = s.cfg ∧ (t.status = s.status ∧ t.fault = s.fault ∨ t.status ≠ .running)) ∧
    (∀ i ∈ [Instr.jnz a b, .jz a b, .adjrel a, .halt], exec i s = .next t →
      t.lastOut = s.lastOut ∧ t.chans = s.chans) ∧
    (∀ i ∈ [Instr.output a, .jnz a b, .jz a b, .halt], exec i s = .next t → t.rb = s.rb) ∧
    (∀ i ∈ [Instr.jnz a b, .jz a b, .adjrel a], exec i s = .next t → t.haltCause = s.haltCause) ∧
    (exec (.output a) s = .next t → (t.lastOut = s.lastOut ∨ t.chans = s.chans) ∧
      ∀ c, s.outEp.chan? ≠ some c → t.chan c = s.chan c)

/-! ### What cannot be told apart, what is seen -/

/-- R158: an instruction other than opcodes 3 and 4 touches no port: it leaves the I/O state alone and
does the same whatever that state is. The spec marks R158 as derived. -/
def Obligations.OtherInstructionsTouchNoPort : Prop :=
  ∀ (i : Instr) (s t p : State), usesPort i = false → exec i s = .next t →
    t = withPortsOf s t ∧ exec i (withPortsOf p s) = .next (withPortsOf p t)

/-- R44: a program cannot tell an unwritten cell from one that holds 0: two machines that read the same
at every address and differ in nothing else step alike. The spec marks R44 as derived. -/
def Obligations.UnwrittenCellsReadAsZero : Prop :=
  ∀ s1 s2 t1 : State, s1.mem.wf → s2.mem.wf → SameButUnwritten s1 s2 → step s1 = .next t1 →
    ∃ t2, step s2 = .next t2 ∧ SameButUnwritten t1 t2

/-- R56, R57: an instruction that stores at the address after itself completes with the values it read,
and the next step decodes the word it stored. The spec's own decision D24 (log entry 3). -/
def Obligations.StoreSeenByNextFetch : Prop :=
  ∀ (s : State) (a b d : Param) (v1 v2 r : Int),
    ∀ i ∈ [Instr.add a b d, .mul a b d, .lt a b d, .eq a b d],
    s.status = .running → s.mem.wf → Fits s 4 → Reads s a v1 → Reads s b v2 →
    Targets s d (s.pc.toNat + 4) → resultOf i v1 v2 = some r → IsWord s.cfg.wordBits r →
    s.pc.toNat + 4 < s.cfg.memCap →
    ∃ t, exec i s = .next t ∧ t.pc = s.pc + 4 ∧
      ∀ j, decode s.cfg.unusedMode [r, s.mem.read (s.pc.toNat + 5), s.mem.read (s.pc.toNat + 6),
        s.mem.read (s.pc.toNat + 7)] = .ok j → step t = exec j t

/-! ### The host's view (60_exceptions R120 to R130) -/

/-- R122: what a tick of a running machine reports, by the instruction it completes. The spec's own
decisions D10, D14 (log entry 3). -/
def Obligations.TickReports : Prop :=
  ∀ (s t : State) (i : Instr), s.status = .running → step s = .next t → fetchInstr s = .ok i →
    (t.status = .halted → report s = .halted) ∧
    (∀ r, t.status = .faulted → t.fault = some r → report s = .faulted (some r.code)) ∧
    (t.status = .running →
      (∀ a, i = .output a → ∃ v, Reads s a v ∧ report s = .producedOutput v) ∧
      (∀ d, i = .input d → nextInput s = .hold → report s = .needsInput ∧ t = s) ∧
      (∀ d, i = .input d → nextInput s ≠ .hold → report s = .continued) ∧
      (usesPort i = false → report s = .continued))

/-- R94 with R92, R123: a held tick changes no state and reports `NeedsInput`; `run` reports `Blocked`,
or keeps waiting, with the machine state the same either way. The spec's own decision D14 (log entry 3).
That a waiting `run` is bounded, tries the held tick again and answers `none` at its bound is the model's
choice (log entry 14), so the last clause rests on it. -/
def Obligations.HoldChangesNothing : Prop :=
  ∀ (s : State) (d : Param) (c addr : Nat), s.status = .running → fetchInstr s = .ok (.input d) →
    Fits s 2 → Targets s d addr → s.seed = [] → s.inEp = .blocking c → (s.chan c).q = [] →
    (s.chan c).senderAlive = true →
    step s = .next s ∧ report s = .needsInput ∧
      (∀ fuel, run .returnBlocked (fuel + 1) s = (some .blocked, s)) ∧
      (∀ fuel, run .wait fuel s = (none, s))

/-- R123: `run` comes back as soon as a tick within its bound reports that the machine is halted, faulted
or, under the policy that returns, in need of input, with that result; in every case it has made so many
ticks, and what it comes back with is what the state they reach shows. The bound on the ticks, and the
answer `none` when it is reached, are the model's (log entry 14). The spec's own decision D14 (log
entry 3). -/
def Obligations.RunStopsWhereTicksDo : Prop :=
  ∀ (pol : BlockingRunPolicy) (fuel : Nat) (s : State),
    (∃ n, n ≤ fuel ∧ (run pol fuel s).2 = afterN n s ∧
      match (run pol fuel s).1 with
      | none => n = fuel
      | some .halted => (afterN n s).status = .halted
      | some (.faulted c) => (afterN n s).status = .faulted ∧
          c = (afterN n s).fault.map FaultRecord.code
      | some .blocked => pol = .returnBlocked ∧ report (afterN n s) = .needsInput) ∧
    (∀ k, k < fuel →
      (report (afterN k s) = .halted → (run pol fuel s).1 = some .halted) ∧
      (∀ c, report (afterN k s) = .faulted c → (run pol fuel s).1 = some (.faulted c)) ∧
      (report (afterN k s) = .needsInput → pol = .returnBlocked →
        (run pol fuel s).1 = some .blocked))

/-- R121: `pre_seed` appends to the tail of `seed` and changes nothing else; the seed is taken before
any channel value. The spec's own decision D17 (log entry 3). -/
def Obligations.PreSeedAppends : Prop :=
  ∀ (s : State) (vs : List Int),
    preSeed vs s = { s with seed := s.seed ++ vs } ∧
    (∀ v rest, s.seed ++ vs = v :: rest → nextInput (preSeed vs s) = .value v ∧
      (popInput (preSeed vs s)).seed = rest ∧ (popInput (preSeed vs s)).chans = s.chans)

/-- R151: the state after a load: the program at `0 .. len-1`, 0 beyond, extent `len`, every other field
at its reset value. The spec's own decisions D6, D10, D12, D16, D17, D21 (log entry 3). -/
def Obligations.LoadedProgramInResetState : Prop :=
  ∀ (cfg : Config) (ws : List Int),
    (∀ k, (State.loaded cfg ws).mem.read k = ws.getD k 0) ∧
    (State.loaded cfg ws).mem.ext = ws.length ∧
    (State.loaded cfg ws).mem.wf ∧
    State.loaded cfg ws =
      { mem := (State.loaded cfg ws).mem, pc := 0, rb := 0, status := .running
        haltCause := none, fault := none, seed := [], inEp := .absent, outEp := .absent
        idle := 0, lastOut := none, chans := [], cfg := cfg }

/-- R126: serializing a machine and loading the text gives a machine with the same memory and extent and
reset values for every other field. The spec's own decision D20 (log entry 3). -/
def Obligations.SerializeThenLoad : Prop :=
  ∀ s : State, s.mem.wf → 0 < s.mem.ext → (∀ a, IsWord s.cfg.wordBits (s.mem.read a)) →
    load s.cfg (serialize s) = .ok { State.reset with mem := s.mem, cfg := s.cfg }

/-- R120: a load fails at the first token that is no word, with its index, and otherwise gives the
machine of the tokens' words. What counts as white space is log entry 18. The spec's own decision D20
(log entry 3). -/
def Obligations.LoadReportsFirstBadToken : Prop :=
  ∀ (cfg : Config) (text : List Char),
    (∀ pre t post, splitComma (trim text) = pre ++ t :: post →
      (∀ u ∈ pre, parseWord cfg.wordBits (trim u) ≠ none) →
      parseWord cfg.wordBits (trim t) = none →
      load cfg text = .error (.badToken pre.length (trim t))) ∧
    (∀ ws : List Int,
      (splitComma (trim text)).map (fun t => parseWord cfg.wordBits (trim t)) = ws.map some →
      load cfg text = .ok (State.loaded cfg ws)) ∧
    parseWord cfg.wordBits [] = none

/-- R127: a `patch` is the host's `MemWrite`: refused after the first tick, failed at a negative address
or one at `MEM_CAP` or above, and otherwise a write to that instance's memory alone. The spec's own
decisions D7, D26 (log entry 3). -/
def Obligations.PatchBeforeFirstTickOnly : Prop :=
  ∀ (sys : System) (k : Nat) (sl : Slot) (a v : Int), sys.slot? k = some sl →
    IsWord sl.st.cfg.wordBits a → IsWord sl.st.cfg.wordBits v →
    (sl.started = true → sys.patch k a v = .error .alreadyStarted) ∧
    (sl.started = false → a < 0 →
      sys.patch k a v = .error (.patchFailed ⟨.negativeAddress, .int a⟩)) ∧
    (sl.started = false → 0 ≤ a → (sl.st.cfg.memCap : Int) ≤ a →
      sys.patch k a v = .error (.patchFailed ⟨.memoryExhausted, .int a⟩)) ∧
    (sl.started = false → 0 ≤ a → a < sl.st.cfg.memCap → sl.st.chans = [] →
      sys.patch k a v = .ok { sys with slots := sys.slots.set k { sl with
        st := { sl.st with mem := sl.st.mem.write a.toNat v } } })

/-- R125, R31: `link` is refused once either instance has ticked; before that it makes one new channel,
gives its send half to the one instance and its receive half, under the chosen discipline, to the other,
and changes nothing else. No wiring gives a half a second owner, and a half that an instance owns cannot
be given away again. That a dropped instance's half is never given out again is the model's inference (log
entry 27). That a wired endpoint is not wired again, and that an instance may be linked to itself, is the
model's choice (log entry 17). The spec's own decision D26 (log entry 3). -/
def Obligations.LinkMakesOneChannel : Prop :=
  (∀ (sys : System) (i j : Nat) (si sj : Slot) (d : Discipline),
    sys.slot? i = some si → sys.slot? j = some sj →
    (si.started = true ∨ sj.started = true → sys.link i j d = .error .alreadyStarted) ∧
    (si.started = false → sj.started = false → si.st.outEp ≠ .absent ∨ sj.st.inEp ≠ .absent →
      sys.link i j d = .error .alreadyWired) ∧
    (si.started = false → sj.started = false → si.st.outEp = .absent → sj.st.inEp = .absent →
      sys.link i j d = .ok
        { chans := sys.chans ++ [{ q := [], senderAlive := true, receiverAlive := true }]
          slots := (sys.slots.modify i fun sl =>
            { sl with st := { sl.st with outEp := .channel sys.chans.length } }).modify j fun sl =>
            { sl with st := { sl.st with inEp := match d with
              | .blocking => .blocking sys.chans.length
              | .polling => .polling sys.chans.length } } })) ∧
  (∀ (sys sys' : System) (i j c : Nat) (d : Discipline), sys.OneOwner →
    sys.link i j d = .ok sys' ∨ sys.wireInput j d c = .ok sys' ∨ sys.wireOutput i c = .ok sys' →
    sys'.OneOwner) ∧
  (∀ (sys sys' : System) (k l c : Nat) (sl : Slot) (d : Discipline), sys.slots[l]? = some sl →
    (sl.st.inEp.chan? = some c → sys.wireInput k d c ≠ .ok sys') ∧
    (sl.st.outEp.chan? = some c → sys.wireOutput k c ≠ .ok sys'))

/-- R124: dropping an instance clears `sender_alive` of its output channel and `receiver_alive` of its
input channel and keeps every queued value. The spec's own decision D31 (log entry 3). That the dropped
instance ticks no more is the model's choice (log entry 24). -/
def Obligations.DropReleasesEndpoints : Prop :=
  ∀ (sys : System) (k : Nat) (sl : Slot), sys.slot? k = some sl →
    ∃ sys', sys.drop k = .ok sys' ∧ tickAt k sys' = none ∧
      (∀ j, j ≠ k → sys'.slots[j]? = sys.slots[j]?) ∧
      (∀ c, (getChan sys'.chans c).q = (getChan sys.chans c).q ∧
        (getChan sys'.chans c).senderAlive =
          (if sl.st.outEp.chan? = some c then false else (getChan sys.chans c).senderAlive) ∧
        (getChan sys'.chans c).receiverAlive =
          (if sl.st.inEp.chan? = some c then false else (getChan sys.chans c).receiverAlive))

/-- R20: a tick of one instance changes no other instance, and of the channels only those its endpoints
name. -/
def Obligations.TickLeavesOthersAlone : Prop :=
  ∀ (sys sys' : System) (k : Nat) (sl : Slot) (r : TickResult), sys.slot? k = some sl →
    tickAt k sys = some (r, sys') →
    (∀ j, j ≠ k → sys'.slots[j]? = sys.slots[j]?) ∧
    (∀ c, sl.st.inEp.chan? ≠ some c → sl.st.outEp.chan? ≠ some c →
      getChan sys'.chans c = getChan sys.chans c)

/-- R59, its local step: with no polling input and no channel dropped, ticks of two instances that own
no half of a channel in common can be taken in either order, as long as neither holds. The spec marks
R59 as derived. -/
def Obligations.TicksOfTwoInstancesCommute : Prop :=
  ∀ (sys : System) (i j : Nat) (si sj : Slot), i ≠ j →
    sys.slot? i = some si → sys.slot? j = some sj → sys.Apart si sj →
    si.st.inEp.notPolling = true → sj.st.inEp.notPolling = true →
    report (sys.view si) ≠ .needsInput → report (sys.view sj) ≠ .needsInput →
    (sys.afterTick i).afterTick j = (sys.afterTick j).afterTick i

/-- R137: after a tick of machine `i` the Switch takes three queued values as `(d, x, y)`: to the
mailbox, onto the input queue of machine `d`, or an environment fault; with fewer it does nothing. That the
fault ends the run, with no network kept, is the model's choice (log entry 30). The spec's own decision D23
(log entry 3). -/
def Obligations.SwitchRoutesPackets : Prop :=
  ∀ (n : Net) (i : Nat),
    ((n.queue (cout i)).length < 3 → n.route i = .ok n) ∧
    (∀ d x y rest, n.queue (cout i) = d :: x :: y :: rest →
      (d = 255 → ∃ m, n.route i = .ok m ∧ m.mailbox = some (x, y) ∧ m.queue (cout i) = rest ∧
        ∀ c, c ≠ cout i → m.queue c = n.queue c) ∧
      (d ≠ 255 → 0 ≤ d → d < n.size → ∃ m, n.route i = .ok m ∧ m.mailbox = n.mailbox ∧
        m.queue (cin d.toNat) = n.queue (cin d.toNat) ++ [x, y] ∧ m.queue (cout i) = rest ∧
        ∀ c, c ≠ cout i → c ≠ cin d.toNat → m.queue c = n.queue c) ∧
      (d ≠ 255 → d < 0 ∨ (n.size : Int) ≤ d → n.route i = .error (.badDestination d)))

/-- R138, R139: a pass whose ticks end in an environment fault ends so, which is the model's choice (log
entry 30). Otherwise, if the network is not quiescent, or the mailbox is empty, the pass leaves it as the
ticks did. If it is quiescent with a packet in the mailbox, the packet goes onto machine 0's input queue
and is recorded, the mailbox kept; and if it agrees with the previous injection in the compared part, the
run ends with that part. Which parts can be compared, and that a part is returned as a list, is the
model's choice (log entry 19). The spec's own decision D23 (log entry 3). -/
def Obligations.QuiescentNetworkRecovers : Prop :=
  (∀ (n : Net) (e : NetEnd), (List.range n.size).foldlM Net.tickRoute n = .error e →
    n.pass = .error e) ∧
  (∀ n m : Net, (List.range n.size).foldlM Net.tickRoute n = .ok m →
    (¬ m.Quiet → n.pass = .ok m) ∧
    (m.mailbox = none → n.pass = .ok m) ∧
    (∀ p, m.Quiet → m.mailbox = some p →
      (∀ p', m.injected = some p' → m.natCompare.part p' = m.natCompare.part p →
        n.pass = .error (.returned (m.natCompare.part p))) ∧
      ((∀ p', m.injected = some p' → m.natCompare.part p' ≠ m.natCompare.part p) →
        ∃ m', n.pass = .ok m' ∧ m'.queue (cin 0) = m.queue (cin 0) ++ [p.1, p.2] ∧
          m'.injected = some p ∧ m'.mailbox = some p ∧ m'.natCompare = m.natCompare ∧
          (∀ c, c ≠ cin 0 → m'.queue c = m.queue c) ∧ m'.sys.slots = m.sys.slots)))

/-- The model's `withFetchWord` (log entries 10 and 23): the very next step runs the instruction that
the table word decodes to. -/
def Obligations.FetchWordRunsNext : Prop :=
  ∀ (s : State) (nbits w : Nat) (i : Instr), s.status = .running → 0 ≤ s.pc → s.mem.wf →
    decode s.cfg.unusedMode (unpackWords s.cfg.wordBits nbits w) = .ok i →
    step (s.withFetchWord nbits w) = exec i (s.withFetchWord nbits w)
end

