-- ==== Sys2Proof/Laws/Decode.lean ====
section
/-! SUPPORT. When the decoder and the fetch answer an instruction, and what that says of its words. -/

namespace Sys2Proof

theorem digit_lt_ten (k w : Nat) : digit k w < 10 := Nat.mod_lt _ (by decide)

@[simp] theorem Mode.ofDigit_digit (m : Mode) : Mode.ofDigit m.digit = m := by
  cases m with
  | reserved k => exact congrArg Mode.reserved (Fin.ext (Nat.mod_eq_of_lt k.isLt))
  | _ => rfl

theorem Mode.digit_ofDigit {n : Nat} (h : n < 10) : (Mode.ofDigit n).digit = n := by
  interval_cases n <;> rfl

/-- What an instruction built from an opcode number is. -/
theorem build_eq_some {op : Nat} {p1 p2 p3 : Param} {i : Instr} (h : build op p1 p2 p3 = some i) :
    i.opcode = op ∧ i.params = [p1, p2, p3].take i.arity := by
  unfold build at h
  split at h <;> cases h <;> simp [Instr.opcode, Instr.params, Instr.arity]

/-- The decoder answers `i` exactly when the word is not negative, its opcode builds `i`, and the policy
refuses no unused digit. -/
theorem decode_eq_ok {pol : UnusedModePolicy} {ws : List Int} {i : Instr} :
    decode pol ws = .ok i ↔ 0 ≤ ws.getD 0 0 ∧
      build ((ws.getD 0 0).toNat % 100) (paramOf ws (ws.getD 0 0).toNat 1)
        (paramOf ws (ws.getD 0 0).toNat 2) (paramOf ws (ws.getD 0 0).toNat 3) = some i ∧
      unusedRefusal pol i.arity (ws.getD 0 0).toNat = none := by
  unfold decode
  constructor
  · intro h
    simp only at h
    split_ifs at h with h0
    split at h
    · cases h
    · rename_i j hj
      split at h
      · cases h
      · cases h
        exact ⟨by omega, hj, by assumption⟩
  · rintro ⟨h0, h1, h2⟩
    simp only [if_neg (not_lt.2 h0), h1, h2]

namespace Machine

/-- The fetch answers what the decoder reads from the words at a non-negative `pc`. -/
theorem fetchInstr_eq_ok {s : State} {i : Instr} : fetchInstr s = .ok i ↔
    0 ≤ s.pc ∧ decode s.cfg.unusedMode (wordsAt s.mem s.pc.toNat) = .ok i := by
  unfold fetchInstr
  split_ifs with h
  · simp [h]
  · split
    · rename_i j hj; simp [hj, not_lt.1 h]
    · rename_i r hr; simp [hr]

end Machine

end Sys2Proof
end

