-- ==== Sys2Proof/Laws/Memory.lean ====
section
/-! SUPPORT. The memory and the channel table: a read after a write, and the canonical form, which
every memory operation keeps. -/

namespace Sys2Proof.Machine

/-! ### The list of cells -/

/-- Every address listed in `cs` lies above `a`. -/
def Above (a : Nat) (cs : List (Nat × Int)) : Prop := ∀ c ∈ cs, a < c.1

theorem lookupCell_of_above {a : Nat} {cs : List (Nat × Int)} (h : Above a cs) :
    lookupCell cs a = 0 := by
  induction cs with
  | nil => rfl
  | cons c cs ih =>
    have hc : a < c.1 := h c (by simp)
    have : c.1 ≠ a := by omega
    simp only [lookupCell, this, if_false]
    exact ih fun d hd => h d (by simp [hd])

theorem lookupCell_putCell_ne {a b : Nat} (h : b ≠ a) (cs : List (Nat × Int)) (v : Int) :
    lookupCell (putCell cs a v) b = lookupCell cs b := by
  induction cs with
  | nil =>
    unfold putCell
    split <;> simp [lookupCell, h.symm]
  | cons c cs ih =>
    obtain ⟨k, x⟩ := c
    unfold putCell
    split_ifs with h1 h2 h3 h4
    · rfl
    · simp [lookupCell, h.symm]
    · subst h3; simp [lookupCell, h.symm]
    · subst h3; simp [lookupCell, h.symm]
    · simp only [lookupCell, ih]

theorem lookupCell_putCell_same {cs : List (Nat × Int)}
    (h : cs.Pairwise fun c d => c.1 < d.1) (a : Nat) (v : Int) :
    lookupCell (putCell cs a v) a = v := by
  induction cs with
  | nil =>
    unfold putCell
    split <;> simp_all [lookupCell]
  | cons c cs ih =>
    obtain ⟨k, x⟩ := c
    have hk : Above k cs := fun d hd => (List.pairwise_cons.1 h).1 d hd
    unfold putCell
    split_ifs with h1 h2 h3 h4
    · have : Above a ((k, x) :: cs) := by
        intro d hd
        rcases List.mem_cons.1 hd with rfl | hd
        · exact h1
        · exact h1.trans (hk d hd)
      rw [lookupCell_of_above this, h2]
    · simp [lookupCell]
    · subst h3; rw [lookupCell_of_above hk, h4]
    · simp [lookupCell]
    · have : k ≠ a := fun e => h3 e.symm
      simp only [lookupCell, this, if_false]
      exact ih (List.pairwise_cons.1 h).2

/-- Every cell of the new list is the one put or was there before. -/
theorem mem_putCell {cs : List (Nat × Int)} {a : Nat} {v : Int} {c : Nat × Int}
    (h : c ∈ putCell cs a v) : (c = (a, v) ∧ v ≠ 0) ∨ c ∈ cs := by
  induction cs with
  | nil =>
    unfold putCell at h
    split at h <;> simp_all
  | cons d cs ih =>
    obtain ⟨k, x⟩ := d
    unfold putCell at h
    split_ifs at h with h1 h2 h3 h4
    · exact .inr h
    · rcases List.mem_cons.1 h with rfl | h
      · exact .inl ⟨rfl, h2⟩
      · exact .inr h
    · exact .inr (List.mem_cons_of_mem _ h)
    · rcases List.mem_cons.1 h with rfl | h
      · exact .inl ⟨rfl, h4⟩
      · exact .inr (List.mem_cons_of_mem _ h)
    · rcases List.mem_cons.1 h with rfl | h
      · exact .inr (by simp)
      · exact (ih h).imp_right (List.mem_cons_of_mem _)

theorem putCell_sorted {cs : List (Nat × Int)} (h : cs.Pairwise fun c d => c.1 < d.1)
    (a : Nat) (v : Int) : (putCell cs a v).Pairwise fun c d => c.1 < d.1 := by
  induction cs with
  | nil =>
    unfold putCell
    split <;> simp
  | cons c cs ih =>
    obtain ⟨k, x⟩ := c
    have hp := List.pairwise_cons.1 h
    unfold putCell
    split_ifs with h1 h2 h3 h4
    · exact h
    · refine List.pairwise_cons.2 ⟨fun d hd => ?_, h⟩
      rcases List.mem_cons.1 hd with rfl | hd
      · exact h1
      · exact h1.trans (hp.1 d hd)
    · exact hp.2
    · subst h3; exact List.pairwise_cons.2 ⟨hp.1, hp.2⟩
    · refine List.pairwise_cons.2 ⟨fun d hd => ?_, ih hp.2⟩
      rcases mem_putCell hd with ⟨rfl, -⟩ | hd
      · show k < a
        omega
      · exact hp.1 d hd

/-! ### The memory -/

theorem Memory.empty_wf : Memory.empty.wf := by decide

theorem Memory.write_wf {m : Memory} (h : m.wf) (a : Nat) (v : Int) : (m.write a v).wf := by
  refine ⟨putCell_sorted h.1 a v, fun c hc => ?_⟩
  show c.2 ≠ 0 ∧ c.1 < max m.ext (a + 1)
  rcases mem_putCell hc with ⟨rfl, hv⟩ | hc
  · exact ⟨hv, by simp⟩
  · exact ⟨(h.2 c hc).1, lt_of_lt_of_le (h.2 c hc).2 (le_max_left _ _)⟩

@[simp] theorem Memory.write_ext (m : Memory) (a : Nat) (v : Int) :
    (m.write a v).ext = max m.ext (a + 1) := rfl

theorem Memory.read_of_ext_le {m : Memory} {a : Nat} (h : m.ext ≤ a) : m.read a = 0 := by
  simp [Memory.read, h]

/-- In the canonical form, a read is a look-up at every address. -/
theorem Memory.read_eq_lookup {m : Memory} (h : m.wf) (a : Nat) : m.read a = lookupCell m.cells a := by
  unfold Memory.read
  split_ifs with hx
  · suffices ∀ cs : List (Nat × Int), (∀ c ∈ cs, c.1 ≠ a) → 0 = lookupCell cs a by
      refine this _ fun c hc => ?_
      have := (h.2 c hc).2
      omega
    intro cs
    induction cs with
    | nil => intro _; rfl
    | cons c cs ih =>
      intro hc
      simp only [lookupCell, hc c (by simp), if_false]
      exact ih fun d hd => hc d (by simp [hd])
  · rfl

/-- What a read gives after a write. -/
theorem Memory.read_write {m : Memory} (h : m.wf) (a b : Nat) (v : Int) :
    (m.write a v).read b = if b = a then v else m.read b := by
  rw [Memory.read_eq_lookup (Memory.write_wf h a v), Memory.read_eq_lookup h]
  split_ifs with hb
  · subst hb; exact lookupCell_putCell_same h.1 b v
  · exact lookupCell_putCell_ne hb m.cells v

theorem writeWords_wf {m : Memory} (h : m.wf) (a : Nat) (ws : List Int) : (writeWords m a ws).wf := by
  induction ws generalizing m a with
  | nil => exact h
  | cons w ws ih => exact ih (Memory.write_wf h a w) (a + 1)

/-! ### A loaded program -/

theorem cellsFrom_above (k : Nat) (ws : List Int) : ∀ c ∈ cellsFrom k ws,
    k ≤ c.1 ∧ c.1 < k + ws.length ∧ c.2 ≠ 0 := by
  induction ws generalizing k with
  | nil => simp [cellsFrom]
  | cons w ws ih =>
    intro c hc
    unfold cellsFrom at hc
    split_ifs at hc with hw
    · obtain ⟨h1, h2, h3⟩ := ih (k + 1) c hc
      simp only [List.length_cons]
      omega
    · rcases List.mem_cons.1 hc with rfl | hc
      · simp [hw]
      · obtain ⟨h1, h2, h3⟩ := ih (k + 1) c hc
        simp only [List.length_cons]
        omega

theorem cellsFrom_sorted (k : Nat) (ws : List Int) :
    (cellsFrom k ws).Pairwise fun c d => c.1 < d.1 := by
  induction ws generalizing k with
  | nil => simp [cellsFrom]
  | cons w ws ih =>
    unfold cellsFrom
    split_ifs with hw
    · exact ih (k + 1)
    · refine List.pairwise_cons.2 ⟨fun d hd => ?_, ih (k + 1)⟩
      have := (cellsFrom_above (k + 1) ws d hd).1
      show k < d.1
      omega

theorem Memory.ofWords_wf (ws : List Int) : (Memory.ofWords ws).wf :=
  ⟨cellsFrom_sorted 0 ws, fun c hc => by
    obtain ⟨-, h2, h3⟩ := cellsFrom_above 0 ws c hc
    exact ⟨h3, by simpa [Memory.ofWords] using h2⟩⟩

theorem lookupCell_cellsFrom (k : Nat) (ws : List Int) (a : Nat) :
    lookupCell (cellsFrom k ws) (k + a) = ws.getD a 0 := by
  induction ws generalizing k a with
  | nil => simp [cellsFrom, lookupCell]
  | cons w ws ih =>
    have above : Above k (cellsFrom (k + 1) ws) := fun c hc => (cellsFrom_above (k + 1) ws c hc).1
    unfold cellsFrom
    cases a with
    | zero =>
      split_ifs with h
      · simpa [h] using lookupCell_of_above above
      · simp [lookupCell]
    | succ a =>
      have := ih (k + 1) a
      rw [Nat.add_right_comm k 1 a] at this
      split_ifs with h
      · simpa [Nat.add_assoc] using this
      · have hk : k ≠ k + (a + 1) := by omega
        simpa [lookupCell, hk, Nat.add_assoc] using this

/-- A loaded program reads back. -/
theorem Memory.read_ofWords (ws : List Int) (a : Nat) : (Memory.ofWords ws).read a = ws.getD a 0 := by
  rw [Memory.read_eq_lookup (Memory.ofWords_wf ws)]
  simpa [Memory.ofWords] using lookupCell_cellsFrom 0 ws a

/-! ### The channel table -/

theorem getChan_setChan_same (cs : List Channel) (c : Nat) (ch : Channel) :
    getChan (setChan cs c ch) c = ch := by
  induction c generalizing cs with
  | zero => cases cs <;> rfl
  | succ c ih => cases cs with
    | nil => exact ih []
    | cons x cs => exact ih cs

theorem getChan_setChan_ne {c d : Nat} (h : d ≠ c) (cs : List Channel) (ch : Channel) :
    getChan (setChan cs c ch) d = getChan cs d := by
  induction c generalizing cs d with
  | zero =>
    obtain ⟨e, rfl⟩ : ∃ e, d = e + 1 := ⟨d - 1, by omega⟩
    cases cs <;> simp [setChan, getChan]
  | succ c ih =>
    cases d with
    | zero => cases cs <;> simp [setChan, getChan]
    | succ e =>
      have he : e ≠ c := by omega
      cases cs with
      | nil => simpa [setChan, getChan] using ih he []
      | cons x cs => simpa [setChan, getChan] using ih he cs

/-- What reading a channel gives after one is replaced. -/
theorem getChan_setChan (cs : List Channel) (c d : Nat) (ch : Channel) :
    getChan (setChan cs c ch) d = if d = c then ch else getChan cs d := by
  split_ifs with h
  · subst h; exact getChan_setChan_same cs d ch
  · exact getChan_setChan_ne h cs ch

theorem setChan_setChan (cs : List Channel) (c : Nat) (x y : Channel) :
    setChan (setChan cs c x) c y = setChan cs c y := by
  induction c generalizing cs with
  | zero => cases cs <;> rfl
  | succ c ih => cases cs <;> simp only [setChan, ih]

theorem setChan_comm {c d : Nat} (h : c ≠ d) (cs : List Channel) (x y : Channel) :
    setChan (setChan cs c x) d y = setChan (setChan cs d y) c x := by
  induction c generalizing cs d with
  | zero =>
    obtain ⟨e, rfl⟩ : ∃ e, d = e + 1 := ⟨d - 1, by omega⟩
    cases cs <;> rfl
  | succ c ih =>
    cases d with
    | zero => cases cs <;> rfl
    | succ d => cases cs <;> simp only [setChan] <;> rw [ih (by omega)]

end Sys2Proof.Machine
end

