-- ==== Sys2Proof/Laws/State.lean ====
section
/-! SUPPORT. What each named update of State does to each field. -/

namespace Sys2Proof.Machine

variable (s : State)

@[simp] theorem State.setMem_mem (m : Memory) : (s.setMem m).mem = m := rfl
@[simp] theorem State.setMem_pc (m : Memory) : (s.setMem m).pc = s.pc := rfl
@[simp] theorem State.setMem_rb (m : Memory) : (s.setMem m).rb = s.rb := rfl
@[simp] theorem State.setMem_status (m : Memory) : (s.setMem m).status = s.status := rfl
@[simp] theorem State.setMem_haltCause (m : Memory) : (s.setMem m).haltCause = s.haltCause := rfl
@[simp] theorem State.setMem_fault (m : Memory) : (s.setMem m).fault = s.fault := rfl
@[simp] theorem State.setMem_seed (m : Memory) : (s.setMem m).seed = s.seed := rfl
@[simp] theorem State.setMem_inEp (m : Memory) : (s.setMem m).inEp = s.inEp := rfl
@[simp] theorem State.setMem_outEp (m : Memory) : (s.setMem m).outEp = s.outEp := rfl
@[simp] theorem State.setMem_idle (m : Memory) : (s.setMem m).idle = s.idle := rfl
@[simp] theorem State.setMem_lastOut (m : Memory) : (s.setMem m).lastOut = s.lastOut := rfl
@[simp] theorem State.setMem_chans (m : Memory) : (s.setMem m).chans = s.chans := rfl
@[simp] theorem State.setMem_cfg (m : Memory) : (s.setMem m).cfg = s.cfg := rfl

@[simp] theorem State.setPc_mem (v : Int) : (s.setPc v).mem = s.mem := rfl
@[simp] theorem State.setPc_pc (v : Int) : (s.setPc v).pc = v := rfl
@[simp] theorem State.setPc_rb (v : Int) : (s.setPc v).rb = s.rb := rfl
@[simp] theorem State.setPc_status (v : Int) : (s.setPc v).status = s.status := rfl
@[simp] theorem State.setPc_haltCause (v : Int) : (s.setPc v).haltCause = s.haltCause := rfl
@[simp] theorem State.setPc_fault (v : Int) : (s.setPc v).fault = s.fault := rfl
@[simp] theorem State.setPc_seed (v : Int) : (s.setPc v).seed = s.seed := rfl
@[simp] theorem State.setPc_inEp (v : Int) : (s.setPc v).inEp = s.inEp := rfl
@[simp] theorem State.setPc_outEp (v : Int) : (s.setPc v).outEp = s.outEp := rfl
@[simp] theorem State.setPc_idle (v : Int) : (s.setPc v).idle = s.idle := rfl
@[simp] theorem State.setPc_lastOut (v : Int) : (s.setPc v).lastOut = s.lastOut := rfl
@[simp] theorem State.setPc_chans (v : Int) : (s.setPc v).chans = s.chans := rfl
@[simp] theorem State.setPc_cfg (v : Int) : (s.setPc v).cfg = s.cfg := rfl

@[simp] theorem State.setRb_mem (v : Int) : (s.setRb v).mem = s.mem := rfl
@[simp] theorem State.setRb_pc (v : Int) : (s.setRb v).pc = s.pc := rfl
@[simp] theorem State.setRb_rb (v : Int) : (s.setRb v).rb = v := rfl
@[simp] theorem State.setRb_status (v : Int) : (s.setRb v).status = s.status := rfl
@[simp] theorem State.setRb_haltCause (v : Int) : (s.setRb v).haltCause = s.haltCause := rfl
@[simp] theorem State.setRb_fault (v : Int) : (s.setRb v).fault = s.fault := rfl
@[simp] theorem State.setRb_seed (v : Int) : (s.setRb v).seed = s.seed := rfl
@[simp] theorem State.setRb_inEp (v : Int) : (s.setRb v).inEp = s.inEp := rfl
@[simp] theorem State.setRb_outEp (v : Int) : (s.setRb v).outEp = s.outEp := rfl
@[simp] theorem State.setRb_idle (v : Int) : (s.setRb v).idle = s.idle := rfl
@[simp] theorem State.setRb_lastOut (v : Int) : (s.setRb v).lastOut = s.lastOut := rfl
@[simp] theorem State.setRb_chans (v : Int) : (s.setRb v).chans = s.chans := rfl
@[simp] theorem State.setRb_cfg (v : Int) : (s.setRb v).cfg = s.cfg := rfl

@[simp] theorem State.setSeed_mem (vs : List Int) : (s.setSeed vs).mem = s.mem := rfl
@[simp] theorem State.setSeed_pc (vs : List Int) : (s.setSeed vs).pc = s.pc := rfl
@[simp] theorem State.setSeed_rb (vs : List Int) : (s.setSeed vs).rb = s.rb := rfl
@[simp] theorem State.setSeed_status (vs : List Int) : (s.setSeed vs).status = s.status := rfl
@[simp] theorem State.setSeed_haltCause (vs : List Int) : (s.setSeed vs).haltCause = s.haltCause := rfl
@[simp] theorem State.setSeed_fault (vs : List Int) : (s.setSeed vs).fault = s.fault := rfl
@[simp] theorem State.setSeed_seed (vs : List Int) : (s.setSeed vs).seed = vs := rfl
@[simp] theorem State.setSeed_inEp (vs : List Int) : (s.setSeed vs).inEp = s.inEp := rfl
@[simp] theorem State.setSeed_outEp (vs : List Int) : (s.setSeed vs).outEp = s.outEp := rfl
@[simp] theorem State.setSeed_idle (vs : List Int) : (s.setSeed vs).idle = s.idle := rfl
@[simp] theorem State.setSeed_lastOut (vs : List Int) : (s.setSeed vs).lastOut = s.lastOut := rfl
@[simp] theorem State.setSeed_chans (vs : List Int) : (s.setSeed vs).chans = s.chans := rfl
@[simp] theorem State.setSeed_cfg (vs : List Int) : (s.setSeed vs).cfg = s.cfg := rfl

@[simp] theorem State.setIdle_mem (n : Nat) : (s.setIdle n).mem = s.mem := rfl
@[simp] theorem State.setIdle_pc (n : Nat) : (s.setIdle n).pc = s.pc := rfl
@[simp] theorem State.setIdle_rb (n : Nat) : (s.setIdle n).rb = s.rb := rfl
@[simp] theorem State.setIdle_status (n : Nat) : (s.setIdle n).status = s.status := rfl
@[simp] theorem State.setIdle_haltCause (n : Nat) : (s.setIdle n).haltCause = s.haltCause := rfl
@[simp] theorem State.setIdle_fault (n : Nat) : (s.setIdle n).fault = s.fault := rfl
@[simp] theorem State.setIdle_seed (n : Nat) : (s.setIdle n).seed = s.seed := rfl
@[simp] theorem State.setIdle_inEp (n : Nat) : (s.setIdle n).inEp = s.inEp := rfl
@[simp] theorem State.setIdle_outEp (n : Nat) : (s.setIdle n).outEp = s.outEp := rfl
@[simp] theorem State.setIdle_idle (n : Nat) : (s.setIdle n).idle = n := rfl
@[simp] theorem State.setIdle_lastOut (n : Nat) : (s.setIdle n).lastOut = s.lastOut := rfl
@[simp] theorem State.setIdle_chans (n : Nat) : (s.setIdle n).chans = s.chans := rfl
@[simp] theorem State.setIdle_cfg (n : Nat) : (s.setIdle n).cfg = s.cfg := rfl

@[simp] theorem State.setLastOut_mem (v : Int) : (s.setLastOut v).mem = s.mem := rfl
@[simp] theorem State.setLastOut_pc (v : Int) : (s.setLastOut v).pc = s.pc := rfl
@[simp] theorem State.setLastOut_rb (v : Int) : (s.setLastOut v).rb = s.rb := rfl
@[simp] theorem State.setLastOut_status (v : Int) : (s.setLastOut v).status = s.status := rfl
@[simp] theorem State.setLastOut_haltCause (v : Int) : (s.setLastOut v).haltCause = s.haltCause := rfl
@[simp] theorem State.setLastOut_fault (v : Int) : (s.setLastOut v).fault = s.fault := rfl
@[simp] theorem State.setLastOut_seed (v : Int) : (s.setLastOut v).seed = s.seed := rfl
@[simp] theorem State.setLastOut_inEp (v : Int) : (s.setLastOut v).inEp = s.inEp := rfl
@[simp] theorem State.setLastOut_outEp (v : Int) : (s.setLastOut v).outEp = s.outEp := rfl
@[simp] theorem State.setLastOut_idle (v : Int) : (s.setLastOut v).idle = s.idle := rfl
@[simp] theorem State.setLastOut_lastOut (v : Int) : (s.setLastOut v).lastOut = some v := rfl
@[simp] theorem State.setLastOut_chans (v : Int) : (s.setLastOut v).chans = s.chans := rfl
@[simp] theorem State.setLastOut_cfg (v : Int) : (s.setLastOut v).cfg = s.cfg := rfl

@[simp] theorem State.setChans_mem (cs : List Channel) : (s.setChans cs).mem = s.mem := rfl
@[simp] theorem State.setChans_pc (cs : List Channel) : (s.setChans cs).pc = s.pc := rfl
@[simp] theorem State.setChans_rb (cs : List Channel) : (s.setChans cs).rb = s.rb := rfl
@[simp] theorem State.setChans_status (cs : List Channel) : (s.setChans cs).status = s.status := rfl
@[simp] theorem State.setChans_haltCause (cs : List Channel) : (s.setChans cs).haltCause = s.haltCause := rfl
@[simp] theorem State.setChans_fault (cs : List Channel) : (s.setChans cs).fault = s.fault := rfl
@[simp] theorem State.setChans_seed (cs : List Channel) : (s.setChans cs).seed = s.seed := rfl
@[simp] theorem State.setChans_inEp (cs : List Channel) : (s.setChans cs).inEp = s.inEp := rfl
@[simp] theorem State.setChans_outEp (cs : List Channel) : (s.setChans cs).outEp = s.outEp := rfl
@[simp] theorem State.setChans_idle (cs : List Channel) : (s.setChans cs).idle = s.idle := rfl
@[simp] theorem State.setChans_lastOut (cs : List Channel) : (s.setChans cs).lastOut = s.lastOut := rfl
@[simp] theorem State.setChans_chans (cs : List Channel) : (s.setChans cs).chans = cs := rfl
@[simp] theorem State.setChans_cfg (cs : List Channel) : (s.setChans cs).cfg = s.cfg := rfl

@[simp] theorem State.setChan_mem (c : Nat) (ch : Channel) : (s.setChan c ch).mem = s.mem := rfl
@[simp] theorem State.setChan_pc (c : Nat) (ch : Channel) : (s.setChan c ch).pc = s.pc := rfl
@[simp] theorem State.setChan_rb (c : Nat) (ch : Channel) : (s.setChan c ch).rb = s.rb := rfl
@[simp] theorem State.setChan_status (c : Nat) (ch : Channel) : (s.setChan c ch).status = s.status := rfl
@[simp] theorem State.setChan_haltCause (c : Nat) (ch : Channel) : (s.setChan c ch).haltCause = s.haltCause := rfl
@[simp] theorem State.setChan_fault (c : Nat) (ch : Channel) : (s.setChan c ch).fault = s.fault := rfl
@[simp] theorem State.setChan_seed (c : Nat) (ch : Channel) : (s.setChan c ch).seed = s.seed := rfl
@[simp] theorem State.setChan_inEp (c : Nat) (ch : Channel) : (s.setChan c ch).inEp = s.inEp := rfl
@[simp] theorem State.setChan_outEp (c : Nat) (ch : Channel) : (s.setChan c ch).outEp = s.outEp := rfl
@[simp] theorem State.setChan_idle (c : Nat) (ch : Channel) : (s.setChan c ch).idle = s.idle := rfl
@[simp] theorem State.setChan_lastOut (c : Nat) (ch : Channel) : (s.setChan c ch).lastOut = s.lastOut := rfl
@[simp] theorem State.setChan_chans (c : Nat) (ch : Channel) : (s.setChan c ch).chans = Machine.setChan s.chans c ch := rfl
@[simp] theorem State.setChan_cfg (c : Nat) (ch : Channel) : (s.setChan c ch).cfg = s.cfg := rfl

@[simp] theorem State.halt_mem (c : HaltCause) : (s.halt c).mem = s.mem := rfl
@[simp] theorem State.halt_pc (c : HaltCause) : (s.halt c).pc = s.pc := rfl
@[simp] theorem State.halt_rb (c : HaltCause) : (s.halt c).rb = s.rb := rfl
@[simp] theorem State.halt_status (c : HaltCause) : (s.halt c).status = .halted := rfl
@[simp] theorem State.halt_haltCause (c : HaltCause) : (s.halt c).haltCause = some c := rfl
@[simp] theorem State.halt_fault (c : HaltCause) : (s.halt c).fault = s.fault := rfl
@[simp] theorem State.halt_seed (c : HaltCause) : (s.halt c).seed = s.seed := rfl
@[simp] theorem State.halt_inEp (c : HaltCause) : (s.halt c).inEp = s.inEp := rfl
@[simp] theorem State.halt_outEp (c : HaltCause) : (s.halt c).outEp = s.outEp := rfl
@[simp] theorem State.halt_idle (c : HaltCause) : (s.halt c).idle = s.idle := rfl
@[simp] theorem State.halt_lastOut (c : HaltCause) : (s.halt c).lastOut = s.lastOut := rfl
@[simp] theorem State.halt_chans (c : HaltCause) : (s.halt c).chans = s.chans := rfl
@[simp] theorem State.halt_cfg (c : HaltCause) : (s.halt c).cfg = s.cfg := rfl

@[simp] theorem takeFault_mem (k : FaultCause) : (takeFault k s).mem = s.mem := rfl
@[simp] theorem takeFault_pc (k : FaultCause) : (takeFault k s).pc = s.pc := rfl
@[simp] theorem takeFault_rb (k : FaultCause) : (takeFault k s).rb = s.rb := rfl
@[simp] theorem takeFault_status (k : FaultCause) : (takeFault k s).status = .faulted := rfl
@[simp] theorem takeFault_haltCause (k : FaultCause) : (takeFault k s).haltCause = s.haltCause := rfl
@[simp] theorem takeFault_fault (k : FaultCause) : (takeFault k s).fault = some ⟨k.code, s.pc, faultWord s, k.info⟩ := rfl
@[simp] theorem takeFault_seed (k : FaultCause) : (takeFault k s).seed = s.seed := rfl
@[simp] theorem takeFault_inEp (k : FaultCause) : (takeFault k s).inEp = s.inEp := rfl
@[simp] theorem takeFault_outEp (k : FaultCause) : (takeFault k s).outEp = s.outEp := rfl
@[simp] theorem takeFault_idle (k : FaultCause) : (takeFault k s).idle = s.idle := rfl
@[simp] theorem takeFault_lastOut (k : FaultCause) : (takeFault k s).lastOut = s.lastOut := rfl
@[simp] theorem takeFault_chans (k : FaultCause) : (takeFault k s).chans = s.chans := rfl
@[simp] theorem takeFault_cfg (k : FaultCause) : (takeFault k s).cfg = s.cfg := rfl

end Sys2Proof.Machine
end

