-- ==== Sys2Proof/Laws/Ops.lean ====
section
/-! SUPPORT. What each shared operation can do, said once: when it answers `ok`, and with what. -/

namespace Sys2Proof.Machine

variable {s t : State} {c : FaultCause}

/-! ### Sequencing and committing -/

theorem bind_eq_ok {ε α β : Type} {x : Except ε α} {f : α → Except ε β} {r : β} :
    (x >>= f) = .ok r ↔ ∃ a, x = .ok a ∧ f a = .ok r := by
  cases x <;> simp [bind, Except.bind]

theorem bind_eq_error {ε α β : Type} {x : Except ε α} {f : α → Except ε β} {e : ε} :
    (x >>= f) = .error e ↔ x = .error e ∨ ∃ a, x = .ok a ∧ f a = .error e := by
  cases x <;> simp [bind, Except.bind]

@[simp] theorem ok_bind {ε α β : Type} (a : α) (f : α → Except ε β) :
    ((Except.ok a : Except ε α) >>= f) = f a := rfl

@[simp] theorem error_bind {ε α β : Type} (e : ε) (f : α → Except ε β) :
    ((Except.error e : Except ε α) >>= f) = .error e := rfl

/-- A committed instruction gives a next state: its effect, or the state before with a fault taken. -/
theorem commit_eq_next {r : Except FaultCause State} :
    commit s r = .next t ↔ r = .ok t ∨ ∃ c, r = .error c ∧ t = takeFault c s := by
  cases r <;> simp [commit, eq_comm]

/-! ### Checks -/

theorem wmin_neg (bits : Nat) : wmin bits < 0 := by
  have : 0 < 2 ^ (bits - 1) := Nat.two_pow_pos _
  unfold wmin
  omega

/-- A non-negative integer is a word as soon as it is at most `WMAX`. -/
theorem isWord_of_nonneg {bits : Nat} {v : Int} (h0 : 0 ≤ v) (h : v ≤ wmax bits) : IsWord bits v :=
  ⟨by have := wmin_neg bits; omega, h⟩

theorem chk_eq_ok {v w : Int} : chk s v = .ok w ↔ IsWord s.cfg.wordBits v ∧ w = v := by
  unfold chk
  split_ifs with h
  · exact ⟨fun e => ⟨h, (Except.ok.inj e).symm⟩, fun e => congrArg Except.ok e.2.symm⟩
  · simp [h]

theorem chk_eq_error {v : Int} :
    chk s v = .error c ↔ ¬ IsWord s.cfg.wordBits v ∧ c = ⟨.overflow, .int v⟩ := by
  unfold chk
  split_ifs with h <;> simp [h, eq_comm]

theorem memRead_eq_ok {a v : Int} : memRead s a = .ok v ↔ 0 ≤ a ∧ v = s.mem.read a.toNat := by
  unfold memRead
  split_ifs with h
  · simp; omega
  · simp [not_lt.1 h, eq_comm]

theorem memRead_eq_error {a : Int} :
    memRead s a = .error c ↔ a < 0 ∧ c = ⟨.negativeAddress, .int a⟩ := by
  unfold memRead
  split_ifs with h <;> simp [h, eq_comm]

theorem memWrite_eq_ok {a v : Int} : memWrite s a v = .ok t ↔
    0 ≤ a ∧ a < s.cfg.memCap ∧ t = s.setMem (s.mem.write a.toNat v) := by
  unfold memWrite
  split_ifs with h h'
  · simp; omega
  · simp; omega
  · simp [not_lt.1 h, not_le.1 h', eq_comm]

/-- The two ways a write fails; a write at a negative address fails on its sign. -/
theorem memWrite_eq_error {a v : Int} : memWrite s a v = .error c ↔
    (a < 0 ∧ c = ⟨.negativeAddress, .int a⟩) ∨
    (0 ≤ a ∧ (s.cfg.memCap : Int) ≤ a ∧ c = ⟨.memoryExhausted, .int a⟩) := by
  unfold memWrite
  split_ifs with h h'
  · simp [h, eq_comm]
  · simp [h, h', eq_comm, not_lt.1 h]
  · simp [h, h']

theorem destAddr_eq_ok {a b : Int} : destAddr a = .ok b ↔ 0 ≤ a ∧ b = a := by
  unfold destAddr
  split_ifs with h
  · simp; omega
  · simp [not_lt.1 h, eq_comm]

/-! ### Operands -/

theorem paramWordAt_eq_ok {i : Nat} {v : Int} : paramWordAt s i = .ok v ↔
    IsWord s.cfg.wordBits (s.pc + i) ∧ 0 ≤ s.pc + i ∧ v = s.mem.read (s.pc + i).toNat := by
  unfold paramWordAt
  rw [bind_eq_ok]
  constructor
  · rintro ⟨a, h, h'⟩
    obtain ⟨hw, rfl⟩ := chk_eq_ok.1 h
    exact ⟨hw, memRead_eq_ok.1 h'⟩
  · rintro ⟨hw, h0, hv⟩
    exact ⟨_, chk_eq_ok.2 ⟨hw, rfl⟩, memRead_eq_ok.2 ⟨h0, hv⟩⟩

/-- A parameter's word can be fetched from an instruction that fits. -/
theorem Fits.paramWordAt {w i : Nat} (h : Fits s w) (hi : i ≤ w) :
    ∃ v, Machine.paramWordAt s i = .ok v := by
  obtain ⟨h0, h1⟩ := h
  have hw : IsWord s.cfg.wordBits (s.pc + i) := isWord_of_nonneg (by omega) (by omega)
  exact ⟨_, paramWordAt_eq_ok.2 ⟨hw, by omega, rfl⟩⟩

/-- A read parameter that is resolved reads the word the rules give. -/
theorem readParam_eq_ok {i : Nat} {p : Param} {v : Int} (h : readParam s i p = .ok v) :
    Reads s p v := by
  obtain ⟨m, raw⟩ := p
  obtain ⟨-, -, h⟩ := bind_eq_ok.1 h
  cases m with
  | position => exact .position (memRead_eq_ok.1 h).1 (memRead_eq_ok.1 h).2
  | immediate => exact .immediate (Except.ok.inj h).symm
  | relative =>
    obtain ⟨a, ha, h⟩ := bind_eq_ok.1 h
    obtain ⟨hw, rfl⟩ := chk_eq_ok.1 ha
    exact .relative (memRead_eq_ok.1 h).1 hw.2 (memRead_eq_ok.1 h).2
  | reserved k => cases h

/-- A read parameter of an instruction that fits is resolved. -/
theorem Reads.readParam {w i : Nat} {p : Param} {v : Int} (h : Reads s p v) (hf : Fits s w)
    (hi : i ≤ w) : Machine.readParam s i p = .ok v := by
  obtain ⟨x, hx⟩ := hf.paramWordAt hi
  unfold Machine.readParam
  rw [hx]
  cases h with
  | position h0 hv => exact memRead_eq_ok.2 ⟨h0, hv⟩
  | immediate hv => exact congrArg Except.ok hv.symm
  | relative h0 h1 hv =>
    show (chk s (s.rb + _) >>= fun a => memRead s a) = _
    rw [chk_eq_ok.2 ⟨isWord_of_nonneg h0 h1, rfl⟩]
    exact memRead_eq_ok.2 ⟨h0, hv⟩

/-- A dest parameter that is resolved gives the address the rules give. -/
theorem destParam_eq_ok {i : Nat} {p : Param} {a : Int} (h : destParam s i p = .ok a) :
    ∃ addr : Nat, a = (addr : Int) ∧ Targets s p addr := by
  obtain ⟨m, raw⟩ := p
  obtain ⟨-, -, h⟩ := bind_eq_ok.1 h
  cases m with
  | position =>
    obtain ⟨h0, ha⟩ : 0 ≤ raw ∧ a = raw := destAddr_eq_ok.1 h
    exact ⟨a.toNat, by omega, .position (by omega)⟩
  | immediate => cases h
  | relative =>
    obtain ⟨b, hb, h⟩ := bind_eq_ok.1 h
    obtain ⟨hw, hb⟩ : IsWord s.cfg.wordBits (s.rb + raw) ∧ b = s.rb + raw := chk_eq_ok.1 hb
    obtain ⟨h0, ha⟩ := destAddr_eq_ok.1 h
    exact ⟨b.toNat, by omega, .relative (by omega) hw.2⟩
  | reserved k => cases h

/-- A dest parameter of an instruction that fits is resolved. -/
theorem Targets.destParam {w i : Nat} {p : Param} {addr : Nat} (h : Targets s p addr)
    (hf : Fits s w) (hi : i ≤ w) : Machine.destParam s i p = .ok (addr : Int) := by
  obtain ⟨x, hx⟩ := hf.paramWordAt hi
  unfold Machine.destParam
  rw [hx]
  cases h with
  | position h0 => exact destAddr_eq_ok.2 ⟨h0 ▸ Int.natCast_nonneg addr, h0.symm⟩
  | relative h0 h1 =>
    show (chk s (s.rb + _) >>= destAddr) = _
    rw [chk_eq_ok.2 ⟨isWord_of_nonneg (h0 ▸ Int.natCast_nonneg addr) h1, rfl⟩]
    exact destAddr_eq_ok.2 ⟨h0 ▸ Int.natCast_nonneg addr, h0.symm⟩

theorem nextPc_eq_ok {w : Nat} {v : Int} :
    nextPc s w = .ok v ↔ IsWord s.cfg.wordBits (s.pc + w) ∧ v = s.pc + w := chk_eq_ok

theorem Fits.nextPc {w : Nat} (h : Fits s w) : Machine.nextPc s w = .ok (s.pc + w) :=
  nextPc_eq_ok.2 ⟨isWord_of_nonneg (by have := h.1; omega) h.2, rfl⟩

end Sys2Proof.Machine
end

