-- ==== Sys2Proof/Laws/Instr.lean ====
section
/-! SUPPORT. What an instruction can do when it completes, and what a step can do: one inversion lemma
for each shape of instruction. -/

namespace Sys2Proof.Machine

variable {s t : State}

/-- The effect that `exec` commits. -/
def effect (i : Instr) (s : State) : Except FaultCause State :=
  match i with
  | .add a b d => binary sumOp a b d s
  | .mul a b d => binary productOp a b d s
  | .input d => do
    let addr ← destParam s 1 d
    let next ← nextPc s 2
    receive addr next s
  | .output a => do
    let v ← readParam s 1 a
    let next ← nextPc s 2
    .ok (send v next s)
  | .jnz a t => jump (fun v => !isZero v) a t s
  | .jz a t => jump isZero a t s
  | .lt a b d => binary lessOp a b d s
  | .eq a b d => binary equalOp a b d s
  | .adjrel a => do
    let v ← readParam s 1 a
    let next ← nextPc s 2
    let r ← chk s (s.rb + v)
    .ok ((s.setRb r).setPc next)
  | .halt => do
    let next ← nextPc s 1
    .ok ((s.halt .opcode99).setPc next)

theorem exec_eq_commit (i : Instr) (s : State) : exec i s = commit s (effect i s) := by
  cases i <;> rfl

/-- `exec` always gives a next state: the committed effect, or a taken fault. -/
theorem exec_eq_next {i : Instr} : exec i s = .next t ↔
    effect i s = .ok t ∨ ∃ c, effect i s = .error c ∧ t = takeFault c s := by
  rw [exec_eq_commit, commit_eq_next]

/-- What a completed `add`, `mul`, `lt` or `eq` did. -/
theorem binary_eq_ok {op : State → Int → Int → Except FaultCause Int} {a b d : Param}
    (h : binary op a b d s = .ok t) : ∃ v1 v2 r : Int, ∃ addr : Nat,
      Reads s a v1 ∧ Reads s b v2 ∧ Targets s d addr ∧ op s v1 v2 = .ok r ∧
      (addr : Int) < s.cfg.memCap ∧ IsWord s.cfg.wordBits (s.pc + 4) ∧
      t = (s.setMem (s.mem.write addr r)).setPc (s.pc + 4) := by
  obtain ⟨v1, h1, h⟩ := bind_eq_ok.1 h
  obtain ⟨v2, h2, h⟩ := bind_eq_ok.1 h
  obtain ⟨x, hx, h⟩ := bind_eq_ok.1 h
  obtain ⟨n, hn, h⟩ := bind_eq_ok.1 h
  obtain ⟨r, hr, h⟩ := bind_eq_ok.1 h
  obtain ⟨u, hu, h⟩ := bind_eq_ok.1 h
  obtain ⟨addr, rfl, hd⟩ := destParam_eq_ok hx
  obtain ⟨hw, rfl⟩ := nextPc_eq_ok.1 hn
  obtain ⟨-, hc, rfl⟩ := memWrite_eq_ok.1 hu
  cases h
  exact ⟨v1, v2, r, addr, readParam_eq_ok h1, readParam_eq_ok h2, hd, hr, hc, hw, by simp⟩

/-- What a completed `jnz` or `jz` did. -/
theorem jump_eq_ok {taken : Int → Bool} {a b : Param} (h : jump taken a b s = .ok t) :
    ∃ v1 v2 : Int, Reads s a v1 ∧ Reads s b v2 ∧ IsWord s.cfg.wordBits (s.pc + 3) ∧
      t = s.setPc (if taken v1 then v2 else s.pc + 3) := by
  obtain ⟨v1, h1, h⟩ := bind_eq_ok.1 h
  obtain ⟨v2, h2, h⟩ := bind_eq_ok.1 h
  obtain ⟨n, hn, h⟩ := bind_eq_ok.1 h
  obtain ⟨hw, rfl⟩ := nextPc_eq_ok.1 hn
  cases h
  exact ⟨v1, v2, readParam_eq_ok h1, readParam_eq_ok h2, hw, rfl⟩

/-- What a completed `input` did, by the outcome of `NextInput`. -/
theorem input_eq_ok {d : Param} (h : effect (.input d) s = .ok t) : ∃ addr : Nat,
    Targets s d addr ∧ IsWord s.cfg.wordBits (s.pc + 2) ∧
    match nextInput s with
    | .value v => (addr : Int) < s.cfg.memCap ∧
        t = ((popInput (s.setMem (s.mem.write addr v))).setIdle 0).setPc (s.pc + 2)
    | .sentinel => (addr : Int) < s.cfg.memCap ∧
        t = ((s.setMem (s.mem.write addr (-1))).setIdle (s.idle + 1)).setPc (s.pc + 2)
    | .hold => t = s
    | .gone => t = s.halt .producerGone
    | .notWired => False := by
  obtain ⟨x, hx, h⟩ := bind_eq_ok.1 h
  obtain ⟨n, hn, h⟩ := bind_eq_ok.1 h
  obtain ⟨addr, rfl, hd⟩ := destParam_eq_ok hx
  obtain ⟨hw, rfl⟩ := nextPc_eq_ok.1 hn
  refine ⟨addr, hd, hw, ?_⟩
  unfold receive at h
  cases hi : nextInput s <;> rw [hi] at h
  · obtain ⟨u, hu, h⟩ := bind_eq_ok.1 h
    obtain ⟨-, hc, rfl⟩ := memWrite_eq_ok.1 hu
    cases h
    exact ⟨hc, by simp⟩
  · obtain ⟨u, hu, h⟩ := bind_eq_ok.1 h
    obtain ⟨-, hc, rfl⟩ := memWrite_eq_ok.1 hu
    cases h
    exact ⟨hc, by simp⟩
  · exact (Except.ok.inj h).symm
  · exact (Except.ok.inj h).symm
  · cases h

/-- What a completed `output` did. -/
theorem output_eq_ok {a : Param} (h : effect (.output a) s = .ok t) : ∃ v : Int,
    Reads s a v ∧ IsWord s.cfg.wordBits (s.pc + 2) ∧ t = send v (s.pc + 2) s := by
  obtain ⟨v, hv, h⟩ := bind_eq_ok.1 h
  obtain ⟨n, hn, h⟩ := bind_eq_ok.1 h
  obtain ⟨hw, rfl⟩ := nextPc_eq_ok.1 hn
  cases h
  exact ⟨v, readParam_eq_ok hv, hw, rfl⟩

/-- What a completed `adjrel` did. -/
theorem adjrel_eq_ok {a : Param} (h : effect (.adjrel a) s = .ok t) : ∃ v : Int,
    Reads s a v ∧ IsWord s.cfg.wordBits (s.pc + 2) ∧ IsWord s.cfg.wordBits (s.rb + v) ∧
    t = (s.setRb (s.rb + v)).setPc (s.pc + 2) := by
  obtain ⟨v, hv, h⟩ := bind_eq_ok.1 h
  obtain ⟨n, hn, h⟩ := bind_eq_ok.1 h
  obtain ⟨r, hr, h⟩ := bind_eq_ok.1 h
  obtain ⟨hw, rfl⟩ := nextPc_eq_ok.1 hn
  obtain ⟨hrw, rfl⟩ := chk_eq_ok.1 hr
  cases h
  exact ⟨v, readParam_eq_ok hv, hw, hrw, rfl⟩

/-- What a completed `halt` did. -/
theorem halt_eq_ok (h : effect .halt s = .ok t) :
    IsWord s.cfg.wordBits (s.pc + 1) ∧ t = (s.halt .opcode99).setPc (s.pc + 1) := by
  obtain ⟨n, hn, h⟩ := bind_eq_ok.1 h
  obtain ⟨hw, rfl⟩ := nextPc_eq_ok.1 hn
  cases h
  exact ⟨hw, rfl⟩

/-- What a step can do: nothing in a terminal state; otherwise the effect of the instruction fetched,
or a fault of its fetch, its decoding or its execution. -/
theorem step_eq_next : step s = .next t ↔
    (s.status ≠ .running ∧ t = s) ∨
    (s.status = .running ∧ ∃ i, fetchInstr s = .ok i ∧ effect i s = .ok t) ∨
    (s.status = .running ∧ ∃ c, t = takeFault c s ∧
      (fetchInstr s = .error c ∨ ∃ i, fetchInstr s = .ok i ∧ effect i s = .error c)) := by
  unfold step
  cases hs : s.status with
  | halted => simp [eq_comm]
  | faulted => simp [eq_comm]
  | running =>
    cases hf : fetchInstr s with
    | error c => simp [eq_comm]
    | ok i =>
      simp only [exec_eq_next]
      constructor
      · rintro (h | ⟨c, h, rfl⟩)
        · exact .inr (.inl ⟨trivial, i, rfl, h⟩)
        · exact .inr (.inr ⟨trivial, c, rfl, .inr ⟨i, rfl, h⟩⟩)
      · rintro (⟨h, -⟩ | ⟨-, j, hj, h⟩ | ⟨-, c, rfl, h | ⟨j, hj, h⟩⟩)
        · exact absurd rfl h
        · cases hj; exact .inl h
        · cases h
        · cases hj; exact .inr ⟨c, h, rfl⟩

end Sys2Proof.Machine
end

