-- ==== Sys2Proof/Laws/Io.lean ====
section
/-! SUPPORT. What the port can do (41_io R90, R96): where a received value comes from, what a pop and a
send change. -/

namespace Sys2Proof.Machine

variable {s : State}

/-- A received value is the head of `seed`, or, `seed` being empty, of the input channel's queue. -/
theorem nextInput_eq_value {v : Int} : nextInput s = .value v ↔
    (∃ vs, s.seed = v :: vs) ∨
    (s.seed = [] ∧ ∃ c vs, s.inEp.chan? = some c ∧ (s.chan c).q = v :: vs) := by
  unfold nextInput
  cases hs : s.seed with
  | cons w ws => simp
  | nil =>
    cases hi : s.inEp with
    | absent => simp [InEp.chan?]
    | blocking c =>
      cases hq : (s.chan c).q <;> cases hl : (s.chan c).senderAlive <;> simp [InEp.chan?, hq, hl]
    | polling c => cases hq : (s.chan c).q <;> simp [InEp.chan?, hq]

theorem nextInput_eq_sentinel : nextInput s = .sentinel ↔
    s.seed = [] ∧ ∃ c, s.inEp = .polling c ∧ (s.chan c).q = [] := by
  unfold nextInput
  cases hs : s.seed with
  | cons w ws => simp
  | nil =>
    cases hi : s.inEp with
    | absent => simp
    | blocking c =>
      cases hq : (s.chan c).q <;> cases hl : (s.chan c).senderAlive <;> simp [hq, hl]
    | polling c => cases hq : (s.chan c).q <;> simp [hq]

theorem nextInput_eq_hold : nextInput s = .hold ↔
    s.seed = [] ∧ ∃ c, s.inEp = .blocking c ∧ (s.chan c).q = [] ∧ (s.chan c).senderAlive = true := by
  unfold nextInput
  cases hs : s.seed with
  | cons w ws => simp
  | nil =>
    cases hi : s.inEp with
    | absent => simp
    | blocking c =>
      cases hq : (s.chan c).q <;> cases hl : (s.chan c).senderAlive <;> simp [hq, hl]
    | polling c => cases hq : (s.chan c).q <;> simp [hq]

theorem nextInput_eq_gone : nextInput s = .gone ↔
    s.seed = [] ∧ ∃ c, s.inEp = .blocking c ∧ (s.chan c).q = [] ∧ (s.chan c).senderAlive = false := by
  unfold nextInput
  cases hs : s.seed with
  | cons w ws => simp
  | nil =>
    cases hi : s.inEp with
    | absent => simp
    | blocking c =>
      cases hq : (s.chan c).q <;> cases hl : (s.chan c).senderAlive <;> simp [hq, hl]
    | polling c => cases hq : (s.chan c).q <;> simp [hq]

theorem nextInput_eq_notWired : nextInput s = .notWired ↔ s.seed = [] ∧ s.inEp = .absent := by
  unfold nextInput
  cases hs : s.seed with
  | cons w ws => simp
  | nil =>
    cases hi : s.inEp with
    | absent => simp
    | blocking c =>
      cases hq : (s.chan c).q <;> cases hl : (s.chan c).senderAlive <;> simp [hq, hl]
    | polling c => cases hq : (s.chan c).q <;> simp [hq]

/-- What a pop changes: the head of `seed` goes, or the head of the input channel's queue, or nothing. -/
theorem popInput_cases (s : State) :
    (∃ v vs, s.seed = v :: vs ∧ popInput s = s.setSeed vs) ∨
    (s.seed = [] ∧ ∃ c, s.inEp.chan? = some c ∧ popInput s = s.setChan c (s.chan c).pop) ∨
    (s.seed = [] ∧ s.inEp = .absent ∧ popInput s = s) := by
  unfold popInput
  cases hs : s.seed with
  | cons w ws => simp
  | nil => cases hi : s.inEp <;> simp [InEp.chan?]

@[simp] theorem popInput_mem (s : State) : (popInput s).mem = s.mem := by
  rcases popInput_cases s with ⟨_, _, _, e⟩ | ⟨_, _, _, e⟩ | ⟨_, _, e⟩ <;> rw [e] <;> rfl
@[simp] theorem popInput_pc (s : State) : (popInput s).pc = s.pc := by
  rcases popInput_cases s with ⟨_, _, _, e⟩ | ⟨_, _, _, e⟩ | ⟨_, _, e⟩ <;> rw [e] <;> rfl
@[simp] theorem popInput_rb (s : State) : (popInput s).rb = s.rb := by
  rcases popInput_cases s with ⟨_, _, _, e⟩ | ⟨_, _, _, e⟩ | ⟨_, _, e⟩ <;> rw [e] <;> rfl
@[simp] theorem popInput_status (s : State) : (popInput s).status = s.status := by
  rcases popInput_cases s with ⟨_, _, _, e⟩ | ⟨_, _, _, e⟩ | ⟨_, _, e⟩ <;> rw [e] <;> rfl
@[simp] theorem popInput_haltCause (s : State) : (popInput s).haltCause = s.haltCause := by
  rcases popInput_cases s with ⟨_, _, _, e⟩ | ⟨_, _, _, e⟩ | ⟨_, _, e⟩ <;> rw [e] <;> rfl
@[simp] theorem popInput_fault (s : State) : (popInput s).fault = s.fault := by
  rcases popInput_cases s with ⟨_, _, _, e⟩ | ⟨_, _, _, e⟩ | ⟨_, _, e⟩ <;> rw [e] <;> rfl
@[simp] theorem popInput_inEp (s : State) : (popInput s).inEp = s.inEp := by
  rcases popInput_cases s with ⟨_, _, _, e⟩ | ⟨_, _, _, e⟩ | ⟨_, _, e⟩ <;> rw [e] <;> rfl
@[simp] theorem popInput_outEp (s : State) : (popInput s).outEp = s.outEp := by
  rcases popInput_cases s with ⟨_, _, _, e⟩ | ⟨_, _, _, e⟩ | ⟨_, _, e⟩ <;> rw [e] <;> rfl
@[simp] theorem popInput_idle (s : State) : (popInput s).idle = s.idle := by
  rcases popInput_cases s with ⟨_, _, _, e⟩ | ⟨_, _, _, e⟩ | ⟨_, _, e⟩ <;> rw [e] <;> rfl
@[simp] theorem popInput_lastOut (s : State) : (popInput s).lastOut = s.lastOut := by
  rcases popInput_cases s with ⟨_, _, _, e⟩ | ⟨_, _, _, e⟩ | ⟨_, _, e⟩ <;> rw [e] <;> rfl
@[simp] theorem popInput_cfg (s : State) : (popInput s).cfg = s.cfg := by
  rcases popInput_cases s with ⟨_, _, _, e⟩ | ⟨_, _, _, e⟩ | ⟨_, _, e⟩ <;> rw [e] <;> rfl

/-- What a send changes: `lastOut`, or the output channel's queue, or, the receiver being gone, the
status. -/
theorem send_cases (v next : Int) (s : State) :
    (s.outEp = .absent ∧ send v next s = (s.setLastOut v).setPc next) ∨
    (∃ c, s.outEp = .channel c ∧ (s.chan c).receiverAlive = true ∧
      send v next s = (s.setChan c ((s.chan c).push v)).setPc next) ∨
    (∃ c, s.outEp = .channel c ∧ (s.chan c).receiverAlive = false ∧
      send v next s = (s.halt .sendFailed).setPc next) := by
  unfold send emitOutput
  cases ho : s.outEp with
  | absent => simp
  | channel c => cases hr : (s.chan c).receiverAlive <;> simp [hr]

/-- Reading a channel of a state after one is replaced. -/
theorem State.chan_setChan (s : State) (c d : Nat) (ch : Channel) :
    (s.setChan c ch).chan d = if d = c then ch else s.chan d := getChan_setChan s.chans c d ch

end Sys2Proof.Machine
end

