-- ==== Sys2Proof/Laws/PerInstr.lean ====
section
/-! SUPPORT. Facts about every instruction as syntax, one lemma per constructor. -/

namespace Sys2Proof.Laws.WordShape

open Sys2Proof

/-- The instruction word is a non-negative number below 100000 whose last two digits are the opcode,
and it is followed by one word for each parameter (30_encoding R60, R61). -/
def Statement (i : Instr) : Prop :=
  0 ≤ instrWord i ∧ instrWord i < 100000 ∧ instrWord i % 100 = i.opcode ∧
    (encode i).length = i.width

theorem digit_lt (m : Mode) : m.digit < 10 := by
  cases m with
  | reserved k => simp only [Mode.digit]; omega
  | _ => decide

theorem of_params (i : Instr) (h : i.arity ≤ 3) (ho : i.opcode < 100) : Statement i := by
  have hd : modeDigits i.params < 1000 := by
    unfold Instr.arity at h
    match i.params, h with
    | [], _ => simp [modeDigits]
    | [p], _ => have := digit_lt p.mode; simp only [modeDigits]; omega
    | [p, q], _ =>
      have := digit_lt p.mode; have := digit_lt q.mode; simp only [modeDigits]; omega
    | [p, q, r], _ =>
      have := digit_lt p.mode; have := digit_lt q.mode; have := digit_lt r.mode
      simp only [modeDigits]; omega
  have hl : (encode i).length = i.width := by simp [encode, Instr.width, Instr.arity]
  unfold Statement instrWord
  omega

theorem add (a b dest : Param) : Statement (.add a b dest) :=
  of_params _ (by simp [Instr.arity, Instr.params]) (by simp [Instr.opcode])
theorem mul (a b dest : Param) : Statement (.mul a b dest) :=
  of_params _ (by simp [Instr.arity, Instr.params]) (by simp [Instr.opcode])
theorem input (dest : Param) : Statement (.input dest) :=
  of_params _ (by simp [Instr.arity, Instr.params]) (by simp [Instr.opcode])
theorem output (a : Param) : Statement (.output a) :=
  of_params _ (by simp [Instr.arity, Instr.params]) (by simp [Instr.opcode])
theorem jnz (a target : Param) : Statement (.jnz a target) :=
  of_params _ (by simp [Instr.arity, Instr.params]) (by simp [Instr.opcode])
theorem jz (a target : Param) : Statement (.jz a target) :=
  of_params _ (by simp [Instr.arity, Instr.params]) (by simp [Instr.opcode])
theorem lt (a b dest : Param) : Statement (.lt a b dest) :=
  of_params _ (by simp [Instr.arity, Instr.params]) (by simp [Instr.opcode])
theorem eq (a b dest : Param) : Statement (.eq a b dest) :=
  of_params _ (by simp [Instr.arity, Instr.params]) (by simp [Instr.opcode])
theorem adjrel (a : Param) : Statement (.adjrel a) :=
  of_params _ (by simp [Instr.arity, Instr.params]) (by simp [Instr.opcode])
theorem halt : Statement .halt :=
  of_params _ (by simp [Instr.arity, Instr.params]) (by simp [Instr.opcode])

end Sys2Proof.Laws.WordShape
end

