-- ==== Sys2Proof/Laws/System.lean ====
section
/-! SUPPORT. When the host's wiring operations are done, and with what; the quiescence test. -/

namespace Sys2Proof.Machine

variable {sys sys' : System}

/-- The live instance of a number is in the list, and not dropped. -/
theorem System.slot?_eq_some {k : Nat} {sl : Slot} :
    sys.slot? k = some sl ↔ sys.slots[k]? = some sl ∧ sl.dropped = false := by
  unfold System.slot?
  cases h : sys.slots[k]? with
  | none => simp
  | some s' =>
    simp only [Option.some.injEq]
    split_ifs with hd
    · simp only [false_iff]
      rintro ⟨rfl, h⟩
      simp [h] at hd
    · simp only [Option.some.injEq]
      exact ⟨fun e => ⟨e, by simpa [← e] using hd⟩, And.left⟩

theorem System.fresh_eq_ok {k : Nat} {sl : Slot} :
    sys.fresh k = .ok sl ↔ sys.slot? k = some sl ∧ sl.started = false := by
  unfold System.fresh
  cases sys.slot? k with
  | none => simp
  | some s' =>
    simp only [Option.some.injEq]
    split_ifs with hs
    · simp only [false_iff]
      rintro ⟨rfl, h⟩
      simp [h] at hs
    · simp only [Except.ok.injEq]
      exact ⟨fun e => ⟨e, by simpa [← e] using hs⟩, And.left⟩

/-- An instance that has ticked is not wired and not patched. -/
theorem System.fresh_of_started {k : Nat} {sl : Slot} (h : sys.slot? k = some sl)
    (hs : sl.started = true) : sys.fresh k = .error .alreadyStarted := by
  simp [System.fresh, h, hs]

/-- The host has a send half that exists and that no instance was given. -/
theorem System.hostHasSender_eq_true {c : Nat} : sys.hostHasSender c = true ↔
    c < sys.chans.length ∧ (∀ sl ∈ sys.slots, sl.st.outEp.chan? ≠ some c) ∧
    (getChan sys.chans c).senderAlive = true := by
  simp [System.hostHasSender, System.senderOwned, and_assoc]

theorem System.hostHasReceiver_eq_true {c : Nat} : sys.hostHasReceiver c = true ↔
    c < sys.chans.length ∧ (∀ sl ∈ sys.slots, sl.st.inEp.chan? ≠ some c) ∧
    (getChan sys.chans c).receiverAlive = true := by
  simp [System.hostHasReceiver, System.receiverOwned, and_assoc]

theorem System.wireInput_eq_ok {k c : Nat} {d : Discipline} : sys.wireInput k d c = .ok sys' ↔
    ∃ sl, sys.fresh k = .ok sl ∧ sl.st.inEp = .absent ∧ sys.hostHasReceiver c = true ∧
      sys' = sys.giveReceiver k d c := by
  unfold System.wireInput
  rw [bind_eq_ok]
  refine exists_congr fun sl => and_congr_right fun _ => ?_
  by_cases h1 : sl.st.inEp = .absent <;> by_cases h2 : sys.hostHasReceiver c = true <;>
    simp [h1, h2, eq_comm]

theorem System.wireOutput_eq_ok {k c : Nat} : sys.wireOutput k c = .ok sys' ↔
    ∃ sl, sys.fresh k = .ok sl ∧ sl.st.outEp = .absent ∧ sys.hostHasSender c = true ∧
      sys' = sys.giveSender k c := by
  unfold System.wireOutput
  rw [bind_eq_ok]
  refine exists_congr fun sl => and_congr_right fun _ => ?_
  by_cases h1 : sl.st.outEp = .absent <;> by_cases h2 : sys.hostHasSender c = true <;>
    simp [h1, h2, eq_comm]

theorem System.link_eq_ok {i j : Nat} {d : Discipline} : sys.link i j d = .ok sys' ↔
    ∃ si sj, sys.fresh i = .ok si ∧ sys.fresh j = .ok sj ∧ si.st.outEp = .absent ∧
      sj.st.inEp = .absent ∧
      sys' = (sys.newChan.giveSender i sys.chans.length).giveReceiver j d sys.chans.length := by
  unfold System.link
  simp only [bind_eq_ok]
  constructor
  · rintro ⟨si, hi, sj, hj, h⟩
    split_ifs at h with hw
    simp only [not_or, not_not] at hw
    exact ⟨si, sj, hi, hj, hw.1, hw.2, (Except.ok.inj h).symm⟩
  · rintro ⟨si, sj, hi, hj, h1, h2, rfl⟩
    exact ⟨si, hi, sj, hj, by simp [h1, h2]⟩

/-- An instance's slot after a half is given: only the endpoint of the one that got it is new. -/
theorem System.giveSender_slots (k c l : Nat) : (sys.giveSender k c).slots[l]? =
    if k = l then sys.slots[l]?.map fun sl => { sl with st := attachOutput c sl.st }
    else sys.slots[l]? := by
  simp only [System.giveSender, List.getElem?_modify]
  split_ifs <;> simp

theorem System.giveReceiver_slots (k : Nat) (d : Discipline) (c l : Nat) :
    (sys.giveReceiver k d c).slots[l]? =
      if k = l then sys.slots[l]?.map fun sl => { sl with st := attachInput d c sl.st }
      else sys.slots[l]? := by
  simp only [System.giveReceiver, List.getElem?_modify]
  split_ifs <;> simp

/-- The test of a pass is the quiescence of R138. -/
theorem Net.quiescent_eq_true {n : Net} : n.quiescent = true ↔ n.Quiet := by
  unfold Net.quiescent
  simp only [Bool.and_eq_true, List.all_eq_true, decide_eq_true_eq, List.mem_range,
    List.isEmpty_iff]
  exact ⟨fun h => ⟨h.1, fun i hi => (h.2 i hi).1, fun i hi => (h.2 i hi).2⟩,
    fun h => ⟨h.idle, fun i hi => ⟨h.noInput i hi, h.noOutput i hi⟩⟩⟩

end Sys2Proof.Machine
end

