-- ==== Sys2Proof/Tests/Slice0.lean ====
section
/-! SUPPORT. The model's own tests: well-formedness, decoding, one-step tests whose expected values are
those of 95_test_vectors.md, and for every obligation with hypotheses a witness that meets them. -/

namespace Sys2Proof.Tests

open Sys2Proof Sys2Proof.Machine

/-! ### States -/

/-- A loaded machine at the default parameters. -/
def prog (ws : List Int) : State := State.loaded Config.default ws

/-- Words of 8 bits, writes at 16 and above fault, unused digits must be 0. -/
def narrow : Config := { wordBits := 8, memCap := 16, unusedMode := .faultIfNonzero }

/-- A loaded machine of narrow words. -/
def tiny (ws : List Int) : State := State.loaded narrow ws

/-- The machine with its endpoints on channels: input from channel 0, output to channel 1. -/
def wired (i : InEp) (cin cout : Channel) (ws : List Int) : State :=
  { prog ws with inEp := i, outEp := .channel 1, chans := [cin, cout] }

/-- A channel that holds values, its sender alive or not. -/
def holding (vs : List Int) (alive : Bool) : Channel :=
  { q := vs, senderAlive := alive, receiverAlive := true }

/-- A channel whose receiver is gone. -/
def deaf : Channel := { q := [], senderAlive := true, receiverAlive := false }

/-- The immediate, position and relative parameters. -/
def imm (v : Int) : Param := ⟨.immediate, v⟩
def pos (v : Int) : Param := ⟨.position, v⟩
def rel (v : Int) : Param := ⟨.relative, v⟩

/-! ### Well-formedness: each check refuses an ill-formed term -/

theorem test_wf_accepts : Instr.wf 64 (.add (imm 3) (rel 4) (pos 0)) = true := by decide
theorem test_wf_read_mode : Instr.wf 64 (.output ⟨.reserved 0, 0⟩) = false := by decide
theorem test_wf_read_raw : Instr.wf 8 (.adjrel (imm 128)) = false := by decide
theorem test_wf_dest_immediate : Instr.wf 64 (.input (imm 0)) = false := by decide
theorem test_wf_dest_mode : Instr.wf 64 (.lt (imm 1) (imm 2) ⟨.reserved 6, 0⟩) = false := by decide
theorem test_wf_dest_raw : Instr.wf 8 (.input (pos (-129))) = false := by decide
theorem test_wf_first : Instr.wf 64 (.mul ⟨.reserved 0, 0⟩ (imm 1) (pos 0)) = false := by decide
theorem test_wf_second : Instr.wf 64 (.jnz (imm 1) ⟨.reserved 0, 0⟩) = false := by decide
theorem test_wf_third : Instr.wf 64 (.eq (imm 1) (imm 1) (imm 0)) = false := by decide
theorem test_wf_jz : Instr.wf 64 (.jz ⟨.reserved 2, 0⟩ (imm 1)) = false := by decide

/-! ### Decoding: the word `opcode + 100*m1 + 1000*m2 + 10000*m3` of 30_encoding R61, by hand -/

theorem test_decode_add :
    decode .ignore [21001, 5, 6, 7] = .ok (.add (pos 5) (imm 6) (rel 7)) := by decide
theorem test_decode_mul :
    decode .ignore [1202, 5, 6, 7] = .ok (.mul (rel 5) (imm 6) (pos 7)) := by decide
theorem test_decode_input : decode .ignore [203, 5] = .ok (.input (rel 5)) := by decide
theorem test_decode_output : decode .ignore [104, -5] = .ok (.output (imm (-5))) := by decide
theorem test_decode_jnz : decode .ignore [1005, 5, 6] = .ok (.jnz (pos 5) (imm 6)) := by decide
theorem test_decode_jz : decode .ignore [2106, 0, 7] = .ok (.jz (imm 0) (rel 7)) := by decide
theorem test_decode_lt :
    decode .ignore [20107, 5, 6, 7] = .ok (.lt (imm 5) (pos 6) (rel 7)) := by decide
theorem test_decode_eq :
    decode .ignore [2108, 5, 6, 7] = .ok (.eq (imm 5) (rel 6) (pos 7)) := by decide
theorem test_decode_adjrel : decode .ignore [209, 3] = .ok (.adjrel (rel 3)) := by decide
theorem test_decode_halt : decode .faultIfNonzero [99] = .ok .halt := by decide
theorem test_decode_negative : decode .ignore [-99] = .error (.unknownOpcode (-99)) := by decide
theorem test_decode_unassigned : decode .ignore [10] = .error (.unknownOpcode 10) := by decide
/-- R68 and vector H3. -/
theorem test_decode_unused : decode .faultIfNonzero [1099] = .error (.invalidMode 2 1) := by decide
/-- R68: a digit 2 in an unused position passes `fault_if_invalid`, a digit 3 does not. -/
theorem test_decode_unused_invalid : decode .faultIfInvalid [2004, 0] = .ok (.output (pos 0)) ∧
    decode .faultIfInvalid [3004, 0] = .error (.invalidMode 2 3) := by decide
theorem test_encode_add : encode (.add (imm 3) (imm 4) (rel 0)) = [21101, 3, 4, 0] := by decide
/-- Four 64-bit words, the first in the low bits; the second word is -1. -/
theorem test_decodeTableWord :
    decodeTableWord 256 (104 + 0xffffffffffffffff * 2 ^ 64) = some (.output (imm (-1))) := by decide

/-! ### One step each, the expected values from 95_test_vectors.md -/

/-- Vector A1, first tick. -/
theorem test_add : (after (prog [1, 9, 10, 3, 2, 3, 11, 0, 99, 30, 40, 50])).mem.read 3 = 70 ∧
    (after (prog [1, 9, 10, 3, 2, 3, 11, 0, 99, 30, 40, 50])).pc = 4 := by decide
/-- Vector A4. -/
theorem test_add_overflow : (after (prog [1101, 9223372036854775807, 1, 0, 99])).fault =
    some ⟨.overflow, 0, some 1101, .int 9223372036854775808⟩ := by decide
/-- Vector A16, first tick. -/
theorem test_mul : (after (prog [1002, 4, 3, 4, 33])).mem.read 4 = 99 := by decide
/-- Vector A8. -/
theorem test_mul_overflow : (after (prog [1102, -9223372036854775808, -1, 0, 99])).fault =
    some ⟨.overflow, 0, some 1102, .int 9223372036854775808⟩ := by decide
/-- Vector A10. -/
theorem test_lt_signed : (after (prog [1107, -1, 0, 5, 99, 9])).mem.read 5 = 1 := by decide
/-- Vector A11. -/
theorem test_lt_equal : (after (prog [1107, 3, 3, 5, 99, 9])).mem.read 5 = 0 := by decide
/-- Vector A12. -/
theorem test_eq_apart :
    (after (prog [1108, -9223372036854775808, 9223372036854775807, 5, 99, 9])).mem.read 5 = 0 := by
  decide
/-- Vector A13. -/
theorem test_eq_same : (after (prog [1108, 8, 8, 5, 99, 9])).mem.read 5 = 1 := by decide
/-- Vector I8. -/
theorem test_input_sentinel :
    after (wired (.polling 0) (holding [] true) Channel.new [3, 10, 3, 11, 99]) =
      { wired (.polling 0) (holding [] true) Channel.new [3, 10, 3, 11, 99] with
        mem := (prog [3, 10, 3, 11, 99, 0, 0, 0, 0, 0, -1]).mem, idle := 1, pc := 2 } := by decide
/-- Vector I16. -/
theorem test_input_immediate :
    (after (prog [103, 0, 99])).fault = some ⟨.immediateWrite, 0, some 103, .int 0⟩ := by decide
/-- Vector I13. -/
theorem test_output : tick (wired .absent Channel.new Channel.new [104, 7, 99]) =
    (.producedOutput 7, { wired .absent Channel.new (holding [7] true) [104, 7, 99] with pc := 2 }) := by
  decide
/-- Vector I14. -/
theorem test_output_deaf : after (wired .absent Channel.new deaf [104, 7, 99]) =
    { wired .absent Channel.new deaf [104, 7, 99] with
      status := .halted, haltCause := some .sendFailed, pc := 2 } := by decide
/-- Vector J5, first tick. -/
theorem test_jnz_negative : after (prog [1105, 1, -5]) = { prog [1105, 1, -5] with pc := -5 } := by
  decide
/-- Vector J2. -/
theorem test_jnz_falls : (after (prog [1105, 0, 9, 99])).pc = 3 := by decide
/-- Vector J3. -/
theorem test_jz : (after (prog [1106, 0, 4, 0, 99])).pc = 4 := by decide
/-- Vector J4. -/
theorem test_jz_falls : (after (prog [1106, -1, 7, 99])).pc = 3 := by decide
/-- Vector R3. -/
theorem test_adjrel : after (prog [209, 3, 99, 7]) = { prog [209, 3, 99, 7] with rb := 7, pc := 2 } := by
  decide
/-- Vector R1, second tick. -/
theorem test_adjrel_overflow :
    (after { prog [109, 9223372036854775807, 109, 1, 99] with pc := 2, rb := 9223372036854775807 }).fault =
      some ⟨.overflow, 2, some 109, .int 9223372036854775808⟩ := by decide
/-- Vector H1. -/
theorem test_halt : tick (prog [99]) =
    (.halted, { prog [99] with status := .halted, haltCause := some .opcode99, pc := 1 }) := by decide
/-- Vector M3: the record of a negative read. -/
theorem test_negative_read :
    (after (prog [1, -1, 0, 0, 99])).fault = some ⟨.negativeAddress, 0, some 1, .int (-1)⟩ := by decide

/-! ### Witnesses: encoding -/

theorem witness_StrictWordsReencode :
    decode .faultIfNonzero [1002, 4, 3, 4] = .ok (.mul (pos 4) (imm 3) (pos 4)) ∧
    [(1002 : Int), 4, 3, 4].getD 0 0 < 100000 ∧
    [(1002 : Int), 4, 3, 4].length = Instr.width (.mul (pos 4) (imm 3) (pos 4)) := by decide

theorem witness_DecoderFollowsDigits :
    (-1 : Int) < 0 ∧ (0 : Int) % 100 ∉ knownOpcodes ∧ (98 : Int) % 100 ∉ knownOpcodes ∧
    (0 : Int) ≤ 1 ∧ (1 : Int) % 100 ∈ knownOpcodes ∧ (1099 : Int) % 100 ∈ knownOpcodes := by decide

/-- The four policy clauses, each at a word of `halt` (arity 0) or `output` (arity 1). -/
theorem witness_UnusedDigitPolicy :
    (decode .ignore [1099] = .ok .halt ∧ (0 : Int) ≤ 99 ∧
      (99 : Int) % 10 ^ (Instr.halt.arity + 2) = 1099 % 10 ^ (Instr.halt.arity + 2)) ∧
    (decode .ignore [20104, 7] = .ok (.output (imm 7)) ∧
      ∀ k, (Instr.output (imm 7)).arity < k → k ≤ 3 → (20104 : Int) / 10 ^ (k + 1) % 10 ≤ 2) ∧
    (decode .ignore [3099] = .ok .halt ∧ Instr.halt.arity < 2 ∧ 2 < (3099 : Int) / 10 ^ (2 + 1) % 10 ∧
      ∀ j, Instr.halt.arity < j → j < 2 → (3099 : Int) / 10 ^ (j + 1) % 10 ≤ 2) ∧
    (decode .ignore [104, 7] = .ok (.output (imm 7)) ∧
      ∀ k, (Instr.output (imm 7)).arity < k → k ≤ 3 → (104 : Int) / 10 ^ (k + 1) % 10 = 0) ∧
    (Instr.halt.arity < 2 ∧ (1099 : Int) / 10 ^ (2 + 1) % 10 ≠ 0 ∧
      ∀ j, Instr.halt.arity < j → j < 2 → (1099 : Int) / 10 ^ (j + 1) % 10 = 0) := by
  refine ⟨by decide, ⟨by decide, ?_⟩, ⟨by decide, by decide, by decide, ?_⟩, ⟨by decide, ?_⟩,
    by decide, by decide, ?_⟩ <;> intro k h1 h2 <;>
    simp only [Instr.arity, Instr.params, List.length_cons, List.length_nil] at h1 <;>
    interval_cases k <;> decide

/-- The word 1099 under the strict policy, in 16-bit words. -/
def strict1099 : State := State.loaded { narrow with wordBits := 16 } [1099]

theorem witness_UnusedDigitPolicy_step : strict1099.status = .running ∧ 0 ≤ strict1099.pc ∧
    decode strict1099.cfg.unusedMode (wordsAt strict1099.mem strict1099.pc.toNat) =
      .error (.invalidMode 2 1) := by decide

theorem witness_HighDigitsNeverRead :
    (0 : Int) ≤ 100001 ∧ decode .ignore [100001, 1, 2, 3] = .ok (.add (pos 1) (pos 2) (pos 3)) := by
  decide

theorem witness_LengthFollowsOpcode :
    decode .ignore [1105, 1, 9] = .ok (.jnz (imm 1) (imm 9)) := by decide

/-! ### Witnesses: the tick -/

theorem witness_StepRunsDecodedInstruction : (prog [99]).status = .running ∧ 0 ≤ (prog [99]).pc ∧
    decode (prog [99]).cfg.unusedMode (wordsAt (prog [99]).mem (prog [99]).pc.toNat) = .ok .halt := by
  decide

theorem witness_StepRunsInstructionInMemory : (prog [1002, 4, 3, 4]).status = .running ∧
    0 ≤ (prog [1002, 4, 3, 4]).pc ∧ ∀ k, k < Instr.width (.mul (pos 4) (imm 3) (pos 4)) →
      (prog [1002, 4, 3, 4]).mem.read ((prog [1002, 4, 3, 4]).pc.toNat + k) =
        (encode (.mul (pos 4) (imm 3) (pos 4))).getD k 0 := by decide

/-- Each clause of the fetch: a negative `pc`, `pc` at the extent, a bad word. -/
theorem witness_FetchFaults :
    (({ prog [] with pc := -1 } : State).status = .running ∧
      ({ prog [] with pc := -1 } : State).pc < 0) ∧
    (0 ≤ ({ prog [1101, 1, 1, 7] with pc := 4 } : State).pc ∧
      (({ prog [1101, 1, 1, 7] with pc := 4 } : State).mem.ext : Int) ≤ 4) ∧
    (0 ≤ (prog [-1]).pc ∧ (prog [-1]).mem.read 0 = -1 ∧ ((-1 : Int) < 0)) ∧
    ((prog [100]).mem.read 0 = 100 ∧ (100 : Int) % 100 ∉ knownOpcodes) := by decide

theorem witness_TerminalStatesNeverChange :
    (after (prog [99])).status = .halted ∧ (after (prog [0])).status = .faulted ∧
    (after (prog [0])).fault = some ⟨.unknownOpcode, 0, some 0, .int 0⟩ ∧
    patch 3 7 (prog [0]) = .ok { prog [0] with mem := ⟨[(3, 7)], 4⟩ } := ⟨by decide, by decide, by decide, rfl⟩

theorem halter_inv : (prog [99]).Inv where
  cfg_legal := by decide
  mem_wf := by decide
  mem_ext := by decide
  mem_words := fun a => by
    cases a with
    | zero => decide
    | succ a => rw [Memory.read_of_ext_le (show (prog [99]).mem.ext ≤ a + 1 by simp [prog, State.loaded, Memory.ofWords])]; decide
  pc_word := by decide
  rb_word := by decide
  seed_words := by decide
  chans_words := fun c v h => by cases h
  lastOut_word := fun v h => by cases h
  halted_iff := by decide
  faulted_iff := by decide
  fault_words := fun r h => by cases h

theorem witness_StepKeepsInvariant : (prog [99]).Inv ∧ step (prog [99]) = .next (after (prog [99])) :=
  ⟨halter_inv, rfl⟩

/-- The narrowest legal width, its memory full. -/
theorem witness_LoadedMachineMeetsInvariant : (⟨2, 16, .ignore⟩ : Config).legal ∧
    (∀ w ∈ [(1 : Int), -2], IsWord 2 w) ∧ (([(1 : Int), -2].length : Nat) : Int) ≤ wmax 2 + 1 := by decide

/-! ### Witnesses: faults and halts -/

theorem witness_FaultsArePrecise : (prog [98]).status = .running ∧
    step (prog [98]) = .next (after (prog [98])) ∧ (after (prog [98])).status = .faulted :=
  ⟨rfl, rfl, rfl⟩

/-- One faulting state for each code, the seven of R111. -/
theorem witness_FaultInfoMatchesCode :
    ((after (prog [0])).fault.map FaultRecord.code = some .unknownOpcode) ∧
    ((after (prog [1, -1, 0, 0])).fault.map FaultRecord.code = some .negativeAddress) ∧
    ((after (prog [11101, 1, 2, 3])).fault.map FaultRecord.code = some .immediateWrite) ∧
    ((after (prog [3, 0])).fault.map FaultRecord.code = some .inputNotWired) ∧
    ((after (prog [301, 0, 0, 0])).fault.map FaultRecord.code = some .invalidMode) ∧
    ((after (tiny [199])).fault.map FaultRecord.code = some .invalidMode) ∧
    ((after (prog [1101, 9223372036854775807, 1, 0])).fault.map FaultRecord.code = some .overflow) ∧
    ((after { prog [1101, 1, 1, 8, 99] with cfg := { Config.default with memCap := 8 } }).fault.map
      FaultRecord.code = some .memoryExhausted) := by decide

/-- A `pc` from which the parameters can be fetched and the next instruction has no address. -/
def brink (width : Int) : State := { tiny [] with pc := 128 - width }

theorem witness_OperandFaultsComeInOrder :
    (readParam (prog []) 1 (pos (-1)) = .error ⟨.negativeAddress, .int (-1)⟩) ∧
    (readParam (prog []) 1 (imm 1) = .ok 1 ∧
      readParam (prog []) 2 (rel (-1)) = .error ⟨.negativeAddress, .int (-1)⟩) ∧
    (readParam (prog []) 2 (imm 1) = .ok 1 ∧
      destParam (prog []) 3 (imm 7) = .error ⟨.immediateWrite, .int 7⟩) ∧
    (readParam (brink 4) 1 (imm 1) = .ok 1 ∧ readParam (brink 4) 2 (imm 1) = .ok 1 ∧
      destParam (brink 4) 3 (pos 0) = .ok 0 ∧ nextPc (brink 4) 4 = .error ⟨.overflow, .int 128⟩) ∧
    (readParam (brink 3) 1 (imm 1) = .ok 1 ∧ readParam (brink 3) 2 (imm 1) = .ok 1 ∧
      nextPc (brink 3) 3 = .error ⟨.overflow, .int 128⟩) ∧
    (readParam (brink 2) 1 (imm 1) = .ok 1 ∧ destParam (brink 2) 1 (pos 0) = .ok 0 ∧
      nextPc (brink 2) 2 = .error ⟨.overflow, .int 128⟩) ∧
    destParam (prog []) 1 (imm 7) = .error ⟨.immediateWrite, .int 7⟩ ∧
    nextPc (brink 1) 1 = .error ⟨.overflow, .int 128⟩ := by
  refine ⟨?_, ⟨?_, ?_⟩, ⟨?_, ?_⟩, ⟨?_, ?_, ?_, ?_⟩, ⟨?_, ?_, ?_⟩, ⟨?_, ?_, ?_⟩, ?_, ?_⟩ <;> rfl

/-- The three ways to halt. -/
theorem witness_OnlyThreeTransitionsHalt :
    ((prog [99]).status = .running ∧ (after (prog [99])).haltCause = some .opcode99) ∧
    ((after (wired .absent Channel.new deaf [104, 7, 99])).haltCause = some .sendFailed) ∧
    ((after (wired (.blocking 0) (holding [] false) Channel.new [3, 10])).haltCause =
      some .producerGone) := by decide

theorem witness_RelativeBaseWritersAndReaders :
    (step (prog [109, 5]) = .next (after (prog [109, 5])) ∧ (after (prog [109, 5])).rb ≠ (prog [109, 5]).rb) ∧
    (readsRb (.output (imm 7)) = false ∧
      exec (.output (imm 7)) (prog [104, 7]) = .next (after (prog [104, 7]))) :=
  ⟨⟨rfl, by decide⟩, rfl, rfl⟩

theorem witness_TicksKeepWiring :
    step (wired (.polling 0) (holding [5] true) Channel.new [3, 10]) =
      .next (after (wired (.polling 0) (holding [5] true) Channel.new [3, 10])) ∧
    (InEp.polling 0).chan? ≠ some 2 ∧ (OutEp.channel 1).chan? ≠ some 2 := ⟨rfl, by decide, by decide⟩

/-- Both ways the counter changes. -/
theorem witness_OnlyInputChangesIdle :
    (after (wired (.polling 0) (holding [] true) Channel.new [3, 10])).idle = 1 ∧
    (after { wired (.polling 0) (holding [5] true) Channel.new [3, 10] with idle := 3 }).idle = 0 := by
  decide

/-! ### Witnesses: memory and operands -/

/-- A negative address, the first address beyond the extent, a listed and an unlisted cell below it. -/
theorem witness_MemoryReadRule :
    ((-1 : Int) < 0) ∧ (((prog [7, 0]).mem.ext : Int) ≤ 2) ∧
    ((0 : Int) < (prog [7, 0]).mem.ext ∧ (prog [7, 0]).mem.wf ∧ (0, 7) ∈ (prog [7, 0]).mem.cells) ∧
    ((1 : Int) < (prog [7, 0]).mem.ext ∧ ∀ v, (1, v) ∉ (prog [7, 0]).mem.cells) := by
  refine ⟨by decide, by decide, by decide, by decide, fun v h => ?_⟩
  rw [show (prog [7, 0]).mem.cells = [(0, 7)] from rfl] at h
  simp at h

/-- A negative address, the cap itself, the last address below it. -/
theorem witness_MemoryWriteRule : ((-1 : Int) < 0) ∧ ((tiny []).cfg.memCap : Int) ≤ 16 ∧
    ((0 : Int) ≤ 15 ∧ (15 : Int) < (tiny []).cfg.memCap ∧ (tiny []).mem.wf) := by decide

theorem witness_ExtentOnlyGrows :
    step (prog [1101, 3, 4, 10]) = .next (after (prog [1101, 3, 4, 10])) ∧
    patch 9 7 (tiny [1]) = .ok ((tiny [1]).setMem ⟨[(0, 1), (9, 7)], 10⟩) ∧
    ((tiny [1]).mem.wf ∧ memWrite (tiny [1]) 0 5 = .ok ((tiny [1]).setMem ⟨[(0, 5)], 1⟩) ∧
      (0 : Int) < (tiny [1]).mem.ext) ∧
    (((tiny [1]).mem.ext : Int) ≤ 1 ∧ memWrite (tiny [1]) 1 5 = .ok ((tiny [1]).setMem ⟨[(0, 1), (1, 5)], 2⟩) ∧
      (tiny [0]).mem.read 0 = 0) :=
  ⟨rfl, rfl, ⟨by decide, rfl, by decide⟩, by decide, rfl, by decide⟩

theorem witness_ParameterWordRule :
    fetchInstr (prog [1105, 1, 9]) = .ok (.jnz (imm 1) (imm 9)) ∧
    (0 ≤ (brink 1).pc ∧ ¬ IsWord (brink 1).cfg.wordBits ((brink 1).pc + (1 : Nat))) ∧
    (IsWord (brink 2).cfg.wordBits ((brink 2).pc + (1 : Nat)) ∧
      (⟨.reserved 6, 0⟩ : Param).mode = .reserved 6) := ⟨rfl, by decide, by decide, rfl⟩

/-- `rb = 100` in 8-bit words: the largest address, one above it, the least, one below it. -/
theorem witness_ReadParameterRule :
    Fits { tiny [] with rb := 100 } 4 ∧ (3 : Nat) ≤ 4 ∧ (0 : Int) ≤ 0 ∧ (-1 : Int) < 0 ∧
    ¬ IsWord 8 ((100 : Int) + 28) ∧ (IsWord 8 ((100 : Int) + -101) ∧ (100 : Int) + -101 < 0) ∧
    (IsWord 8 ((100 : Int) + 27) ∧ (0 : Int) ≤ 100 + 27) ∧ IsWord 8 ((100 : Int) + -100) :=
  ⟨⟨by decide, by decide⟩, by decide⟩

theorem witness_DestParameterRule :
    Fits { tiny [] with rb := 100, pc := 123 } 4 ∧ (4 : Nat) ≤ 4 ∧ ¬ IsWord 8 ((100 : Int) + 28) ∧
    (IsWord 8 ((100 : Int) + -101) ∧ (100 : Int) + -101 < 0) ∧
    (IsWord 8 ((100 : Int) + 27) ∧ (0 : Int) ≤ 100 + 27) := ⟨⟨by decide, by decide⟩, by decide⟩

/-! ### Witnesses: the instructions -/

/-- Every mode of a read parameter and of a dest, at the boundaries: address 0 and the last address. -/
theorem witness_Reads_Targets :
    Fits (prog [7]) 4 ∧ Reads (prog [7]) (pos 0) 7 ∧ Reads (prog [7]) (imm (-3)) (-3) ∧
    Reads { prog [7] with rb := 9 } (rel (-9)) 7 ∧ Reads { tiny [7] with rb := 100 } (rel 27) 0 ∧
    Targets (prog [7]) (pos 0) 0 ∧ Targets { tiny [7] with rb := 100 } (rel 27) 127 :=
  ⟨⟨by decide, by decide⟩, .position (by decide) (by decide), .immediate rfl,
    .relative (by decide) (by decide) (by decide), .relative (by decide) (by decide) (by decide),
    .position rfl, .relative rfl (by decide)⟩

/-- The three cases of `add` in 8-bit words: the largest sum, one above it, a dest at the cap. -/
theorem witness_AddRule :
    (Fits (tiny []) 4 ∧ Reads (tiny []) (imm 100) 100 ∧ Reads (tiny []) (imm 27) 27 ∧
      Targets (tiny []) (pos 15) 15) ∧
    (IsWord (tiny []).cfg.wordBits ((100 : Int) + 27) ∧ 15 < (tiny []).cfg.memCap) ∧
    (Reads (tiny []) (imm 28) 28 ∧ ¬ IsWord (tiny []).cfg.wordBits ((100 : Int) + 28)) ∧
    (Targets (tiny []) (pos 16) 16 ∧ (tiny []).cfg.memCap ≤ 16) :=
  ⟨⟨⟨by decide, by decide⟩, .immediate rfl, .immediate rfl, .position rfl⟩, by decide,
    ⟨.immediate rfl, by decide⟩, .position rfl, by decide⟩

/-- The three cases of `mul`: the least product, one past the largest, a dest at the cap. -/
theorem witness_MulRule :
    (Fits (tiny []) 4 ∧ Reads (tiny []) (imm 64) 64 ∧ Reads (tiny []) (imm (-2)) (-2) ∧
      Targets (tiny []) (pos 15) 15) ∧
    (IsWord (tiny []).cfg.wordBits ((64 : Int) * (-2)) ∧ 15 < (tiny []).cfg.memCap) ∧
    (Reads (tiny []) (imm 2) 2 ∧ ¬ IsWord (tiny []).cfg.wordBits ((64 : Int) * 2)) ∧
    (Targets (tiny []) (pos 16) 16 ∧ (tiny []).cfg.memCap ≤ 16) :=
  ⟨⟨⟨by decide, by decide⟩, .immediate rfl, .immediate rfl, .position rfl⟩, by decide,
    ⟨.immediate rfl, by decide⟩, .position rfl, by decide⟩

theorem witness_LtRule :
    (Fits (tiny []) 4 ∧ Reads (tiny []) (imm (-1)) (-1) ∧ Reads (tiny []) (imm 0) 0 ∧
      Targets (tiny []) (pos 15) 15) ∧ 15 < (tiny []).cfg.memCap ∧ (-1 : Int) < 0 ∧ (0 : Int) ≤ 0 ∧
    (Targets (tiny []) (pos 16) 16 ∧ (tiny []).cfg.memCap ≤ 16) :=
  ⟨⟨⟨by decide, by decide⟩, .immediate rfl, .immediate rfl, .position rfl⟩, by decide, by decide,
    by decide, .position rfl, by decide⟩

theorem witness_EqRule :
    (Fits (tiny []) 4 ∧ Reads (tiny []) (imm (-1)) (-1) ∧ Reads (tiny []) (imm 0) 0 ∧
      Targets (tiny []) (pos 15) 15) ∧ 15 < (tiny []).cfg.memCap ∧ (-1 : Int) ≠ 0 ∧ (0 : Int) = 0 ∧
    (Targets (tiny []) (pos 16) 16 ∧ (tiny []).cfg.memCap ≤ 16) :=
  ⟨⟨⟨by decide, by decide⟩, .immediate rfl, .immediate rfl, .position rfl⟩, by decide, by decide,
    rfl, .position rfl, by decide⟩

/-- Every clause of `input`: a seed, a queued value on either kind of endpoint, a poll that finds
nothing, a hold, a producer that is gone, no endpoint, a full memory. -/
theorem witness_InputRule :
    (Fits { tiny [] with seed := [8] } 2 ∧ Targets { tiny [] with seed := [8] } (pos 15) 15 ∧
      15 < narrow.memCap) ∧
    (∀ i ∈ [InEp.blocking 0, .polling 0],
      Fits (wired i (holding [4] true) Channel.new []) 2 ∧
      Targets (wired i (holding [4] true) Channel.new []) (rel 9) 9 ∧
      (wired i (holding [4] true) Channel.new []).seed = [] ∧
      ((wired i (holding [4] true) Channel.new []).chan 0).q = [4]) ∧
    ((wired (.polling 0) (holding [] true) Channel.new []).inEp = .polling 0 ∧
      ((wired (.polling 0) (holding [] true) Channel.new []).chan 0).q = []) ∧
    ((wired (.blocking 0) (holding [] true) Channel.new []).inEp = .blocking 0 ∧
      ((wired (.blocking 0) (holding [] true) Channel.new []).chan 0).senderAlive = true) ∧
    ((wired (.blocking 0) (holding [] false) Channel.new []).chan 0).senderAlive = false ∧
    ((prog []).seed = [] ∧ (prog []).inEp = .absent) ∧
    (({ tiny [] with seed := [8] } : State).seed ≠ [] ∧ narrow.memCap ≤ 16 ∧
      Targets { tiny [] with seed := [8] } (pos 16) 16) := by
  refine ⟨⟨⟨by decide, by decide⟩, .position rfl, by decide⟩, ?_, by decide, by decide, by decide,
    by decide, by decide, by decide, .position rfl⟩
  intro i hi
  simp only [List.mem_cons, List.not_mem_nil, or_false] at hi
  rcases hi with rfl | rfl
  all_goals exact ⟨⟨by decide, by decide⟩, .relative rfl (by decide), rfl, rfl⟩

theorem witness_PollingReceiveRule :
    (Fits (wired (.polling 0) (holding [] true) Channel.new []) 2 ∧
      Targets (wired (.polling 0) (holding [] true) Channel.new []) (pos 10) 10 ∧
      10 < Config.default.memCap ∧ ((wired (.polling 0) (holding [] true) Channel.new []).chan 0).q = []) ∧
    ((wired (.polling 0) (holding [4] true) Channel.new []).inEp = .polling 0 ∧
      ((wired (.polling 0) (holding [4] true) Channel.new []).chan 0).q ≠ []) :=
  ⟨⟨⟨by decide, by decide⟩, .position rfl, by decide, rfl⟩, rfl, by decide⟩

theorem witness_OutputRule :
    (Fits (prog [7]) 2 ∧ Reads (prog [7]) (pos 0) 7 ∧ (prog [7]).outEp = .absent) ∧
    (Fits (wired .absent Channel.new Channel.new [7]) 2 ∧
      Reads (wired .absent Channel.new Channel.new [7]) (imm 7) 7 ∧
      ((wired .absent Channel.new Channel.new [7]).chan 1).receiverAlive = true) ∧
    ((wired .absent Channel.new deaf [7]).outEp = .channel 1 ∧
      ((wired .absent Channel.new deaf [7]).chan 1).receiverAlive = false) :=
  ⟨⟨⟨by decide, by decide⟩, .position (by decide) (by decide), rfl⟩,
    ⟨⟨by decide, by decide⟩, .immediate rfl, rfl⟩, rfl, rfl⟩

/-- The two branches of a jump, and its two faults after the first parameter. -/
theorem witness_JnzRule :
    (Fits (prog []) 3 ∧ Reads (prog []) (imm (-1)) (-1) ∧ Reads (prog []) (imm 0) 0 ∧
      Reads (prog []) (imm (-5)) (-5) ∧ (-1 : Int) ≠ 0) ∧
    (readParam (prog []) 1 (imm 0) = .ok 0 ∧
      readParam (prog []) 2 (pos (-1)) = .error ⟨.negativeAddress, .int (-1)⟩) ∧
    (readParam (brink 3) 1 (imm 0) = .ok 0 ∧ readParam (brink 3) 2 (imm 9) = .ok 9 ∧
      nextPc (brink 3) 3 = .error ⟨.overflow, .int 128⟩) :=
  ⟨⟨⟨by decide, by decide⟩, .immediate rfl, .immediate rfl, .immediate rfl, by decide⟩, ⟨rfl, rfl⟩,
    rfl, rfl, rfl⟩

theorem witness_JzRule :
    (Fits (prog []) 3 ∧ Reads (prog []) (imm (-1)) (-1) ∧ Reads (prog []) (rel 0) 0 ∧
      (-1 : Int) ≠ 0) ∧
    (readParam (prog []) 1 (imm 1) = .ok 1 ∧
      readParam (prog []) 2 (pos (-1)) = .error ⟨.negativeAddress, .int (-1)⟩) ∧
    (readParam (brink 3) 1 (imm 1) = .ok 1 ∧ readParam (brink 3) 2 (imm 9) = .ok 9 ∧
      nextPc (brink 3) 3 = .error ⟨.overflow, .int 128⟩) :=
  ⟨⟨⟨by decide, by decide⟩, .immediate rfl, .relative (by decide) (by decide) (by decide), by decide⟩,
    ⟨rfl, rfl⟩, rfl, rfl, rfl⟩

theorem witness_AdjrelRule :
    (Fits { tiny [] with rb := 100 } 2 ∧ Reads { tiny [] with rb := 100 } (imm 27) 27 ∧
      IsWord narrow.wordBits ((100 : Int) + 27)) ∧
    (Reads { tiny [] with rb := 100 } (imm 28) 28 ∧ ¬ IsWord narrow.wordBits ((100 : Int) + 28)) ∧
    (Instr.halt.opcode ≠ 9 ∧ exec .halt (tiny []) =
      .next { tiny [] with status := .halted, haltCause := some .opcode99, pc := 1 }) :=
  ⟨⟨⟨by decide, by decide⟩, .immediate rfl, by decide⟩, ⟨.immediate rfl, by decide⟩, by decide, rfl⟩

theorem witness_HaltRule : Fits { tiny [] with pc := 126 } 1 ∧
    ¬ IsWord (brink 1).cfg.wordBits ((brink 1).pc + 1) ∧ (0 : Int) ≤ 1099 ∧ (1099 : Int) % 100 = 99 :=
  ⟨⟨by decide, by decide⟩, by decide⟩

/-- A completing and a faulting instance of the frame's premises. -/
theorem witness_StoringFrame : (tiny []).mem.wf ∧
    exec (.add (imm 1) (imm 2) (pos 3)) (tiny []) = .next { tiny [] with mem := ⟨[(3, 3)], 4⟩, pc := 4 } ∧
    destParam (tiny []) 3 (pos 3) = .ok 3 ∧
    exec (.add (imm 1) (imm 2) (imm 3)) (tiny []) =
      .next (takeFault ⟨.immediateWrite, .int 3⟩ (tiny [])) ∧
    destParam (tiny []) 3 (imm 3) = .error ⟨.immediateWrite, .int 3⟩ := ⟨by decide, rfl, rfl, rfl, rfl⟩

theorem witness_InputFrame : (tiny []).mem.wf ∧
    exec (.input (pos 3)) { tiny [] with seed := [8] } =
      .next { tiny [] with mem := ⟨[(3, 8)], 4⟩, pc := 2 } ∧
    destParam { tiny [] with seed := [8] } 1 (pos 3) = .ok 3 ∧
    exec (.input (imm 3)) (tiny []) = .next (takeFault ⟨.immediateWrite, .int 3⟩ (tiny [])) ∧
    destParam (tiny []) 1 (imm 3) = .error ⟨.immediateWrite, .int 3⟩ := ⟨by decide, rfl, rfl, rfl, rfl⟩

theorem witness_NonStoringFrame :
    exec (.output (imm 7)) (tiny []) = .next { tiny [] with lastOut := some 7, pc := 2 } ∧
    exec (.jnz (imm 1) (imm 9)) (tiny []) = .next { tiny [] with pc := 9 } ∧
    exec (.jz (imm 1) (imm 9)) (tiny []) = .next { tiny [] with pc := 3 } ∧
    exec (.adjrel (imm 5)) (tiny []) = .next { tiny [] with rb := 5, pc := 2 } ∧
    exec .halt (tiny []) =
      .next { tiny [] with status := .halted, haltCause := some .opcode99, pc := 1 } ∧
    (tiny []).outEp.chan? ≠ some 0 := ⟨rfl, rfl, rfl, rfl, rfl, by decide⟩

/-! ### Witnesses: what cannot be told apart, what is seen -/

theorem witness_OtherInstructionsTouchNoPort : usesPort (.adjrel (imm 5)) = false ∧
    exec (.adjrel (imm 5)) (tiny []) = .next { tiny [] with rb := 5, pc := 2 } := ⟨rfl, rfl⟩

/-- One memory ends with a cell that holds 0, the other before it. -/
theorem witness_UnwrittenCellsReadAsZero :
    (prog [99, 0]).mem.wf ∧ (prog [99]).mem.wf ∧ SameButUnwritten (prog [99, 0]) (prog [99]) ∧
    step (prog [99, 0]) = .next (after (prog [99, 0])) := by
  refine ⟨by decide, by decide, ⟨fun a => ?_, rfl⟩, rfl⟩
  rw [Memory.read_eq_lookup (by decide), Memory.read_eq_lookup (by decide)]
  rfl

/-- The instruction at 0 stores the word 99 at 4. -/
theorem witness_StoreSeenByNextFetch :
    (prog []).status = .running ∧ (prog []).mem.wf ∧ Fits (prog []) 4 ∧ Reads (prog []) (imm 90) 90 ∧
    Reads (prog []) (imm 9) 9 ∧ Targets (prog []) (pos 4) ((prog []).pc.toNat + 4) ∧
    resultOf (.add (imm 90) (imm 9) (pos 4)) 90 9 = some 99 ∧ IsWord (prog []).cfg.wordBits 99 ∧
    (prog []).pc.toNat + 4 < (prog []).cfg.memCap ∧ decode .ignore [99, 0, 0, 0] = .ok .halt :=
  ⟨rfl, by decide, ⟨by decide, by decide⟩, .immediate rfl, .immediate rfl, .position rfl, rfl,
    by decide, by decide, rfl⟩

/-! ### Witnesses: the host's view -/

/-- A machine that holds. -/
def waiting : State := wired (.blocking 0) (holding [] true) Channel.new [3, 10, 99]

theorem witness_TickReports :
    ((prog [104, 7]).status = .running ∧ step (prog [104, 7]) = .next (after (prog [104, 7])) ∧
      fetchInstr (prog [104, 7]) = .ok (.output (imm 7)) ∧ (after (prog [104, 7])).status = .running) ∧
    (fetchInstr waiting = .ok (.input (pos 10)) ∧ nextInput waiting = .hold ∧
      (after waiting).status = .running) ∧
    ((after (prog [99])).status = .halted ∧ fetchInstr (prog [99]) = .ok .halt) ∧
    ((after (prog [3, 0])).status = .faulted ∧
      (after (prog [3, 0])).fault = some ⟨.inputNotWired, 0, some 3, .none⟩ ∧
      fetchInstr (prog [3, 0]) = .ok (.input (pos 0))) ∧
    (fetchInstr (prog [109, 5]) = .ok (.adjrel (imm 5)) ∧ usesPort (.adjrel (imm 5)) = false ∧
      (after (prog [109, 5])).status = .running) ∧
    (nextInput { prog [3, 5] with seed := [1] } ≠ .hold ∧
      (after { prog [3, 5] with seed := [1] }).status = .running) :=
  ⟨⟨rfl, rfl, rfl, rfl⟩, ⟨rfl, rfl, rfl⟩, ⟨rfl, rfl⟩, ⟨rfl, rfl, rfl⟩, ⟨rfl, rfl, rfl⟩, by decide,
    rfl⟩

theorem witness_HoldChangesNothing : waiting.status = .running ∧
    fetchInstr waiting = .ok (.input (pos 10)) ∧ Fits waiting 2 ∧ Targets waiting (pos 10) 10 ∧
    waiting.seed = [] ∧ waiting.inEp = .blocking 0 ∧ (waiting.chan 0).q = [] ∧
    (waiting.chan 0).senderAlive = true :=
  ⟨rfl, rfl, ⟨by decide, by decide⟩, .position rfl, rfl, rfl, rfl, rfl⟩

/-- A run that halts, one that faults, one that holds. -/
theorem witness_RunStopsWhereTicksDo : (0 : Nat) < 1 ∧ report (afterN 0 (prog [99])) = .halted ∧
    report (afterN 1 (prog [109, 5])) = .faulted (some .unknownOpcode) ∧
    report (afterN 0 waiting) = .needsInput := by decide

theorem witness_PreSeedAppends : ({ prog [] with seed := [1] } : State).seed ++ [2, 3] = 1 :: [2, 3] := rfl

theorem witness_SerializeThenLoad : (prog [3, 0, -4]).mem.wf ∧ 0 < (prog [3, 0, -4]).mem.ext ∧
    ∀ a, IsWord (prog [3, 0, -4]).cfg.wordBits ((prog [3, 0, -4]).mem.read a) := by
  refine ⟨by decide, by decide, fun a => ?_⟩
  match a with
  | 0 | 1 | 2 => decide
  | a + 3 =>
    rw [Memory.read_of_ext_le (show (prog [3, 0, -4]).mem.ext ≤ a + 3 by
      simp [prog, State.loaded, Memory.ofWords])]
    decide

/-- `1, ,x`: token 1 is bad; `1,2` with a trailing newline gives two words. -/
theorem witness_LoadReportsFirstBadToken :
    (splitComma (trim ['1', ',', ' ', ',', 'x']) = [['1']] ++ [' '] :: [['x']] ∧
      (∀ u ∈ [['1']], parseWord 64 (trim u) ≠ none) ∧ parseWord 64 (trim [' ']) = none) ∧
    (splitComma (trim ['1', ',', '2', '\n'])).map (fun t => parseWord 64 (trim t)) =
      [1, 2].map some := by decide

/-- Two machines; the second has ticked. -/
def pair : System :=
  { slots := [⟨tiny [99], false, false⟩, ⟨tiny [99], true, false⟩], chans := [] }

theorem witness_PatchBeforeFirstTickOnly :
    (pair.slot? 1 = some ⟨tiny [99], true, false⟩) ∧
    (pair.slot? 0 = some ⟨tiny [99], false, false⟩ ∧ (tiny [99]).chans = []) ∧
    (∀ a ∈ [(-1 : Int), 0, 15, 16], IsWord (tiny [99]).cfg.wordBits a) ∧
    ((tiny [99]).cfg.memCap : Int) ≤ 16 ∧ (15 : Int) < (tiny [99]).cfg.memCap := by decide

/-- The first machine sends to channel 0, from which the second reads; both can go on. -/
def sender : Slot := ⟨{ prog [104, 7] with outEp := .channel 0 }, false, false⟩
def taker : Slot := ⟨{ prog [3, 5] with inEp := .blocking 0 }, false, false⟩
def line : System :=
  { slots := [sender, taker]
    chans := [holding [4] true] }

/-- `line` with a third machine, unwired, that has not ticked, and a channel the host has whole. -/
def spare : System :=
  { slots := line.slots ++ [⟨tiny [99], false, false⟩], chans := line.chans ++ [Channel.new] }

/-- One of the two has ticked (either one); both are fresh and unwired, also when they are one; an
endpoint is wired; each wiring is done; another instance owns the half. -/
theorem witness_LinkMakesOneChannel :
    (pair.slot? 0 = some ⟨tiny [99], false, false⟩ ∧ pair.slot? 1 = some ⟨tiny [99], true, false⟩) ∧
    (spare.slot? 2 = some ⟨tiny [99], false, false⟩ ∧ (tiny [99]).outEp = .absent ∧
      (tiny [99]).inEp = .absent) ∧
    (spare.slot? 0 = some sender ∧ sender.started = false ∧ sender.st.outEp ≠ .absent) ∧
    (spare.slots[1]? = some taker ∧ taker.st.inEp.chan? = some 0 ∧
      spare.slots[0]? = some sender ∧ sender.st.outEp.chan? = some 0) := by decide

theorem spare_oneOwner : spare.OneOwner where
  created := by
    intro sl h c hc
    simp only [spare, line, List.cons_append, List.nil_append, List.mem_cons, List.not_mem_nil,
      or_false] at h
    rcases h with rfl | rfl | rfl <;> simp_all [sender, taker, tiny, prog, State.loaded, State.reset,
      InEp.chan?, OutEp.chan?, spare, line] <;> omega
  receivers := by
    intro i j si sj c hi hj h1 h2
    match i, j with
    | 0, _ => cases hi; cases h1
    | 2, _ => cases hi; cases h1
    | _ + 3, _ => cases hi
    | 1, 0 => cases hj; cases h2
    | 1, 1 => rfl
    | 1, 2 => cases hj; cases h2
    | 1, _ + 3 => cases hj
  senders := by
    intro i j si sj c hi hj h1 h2
    match i, j with
    | 1, _ => cases hi; cases h1
    | 2, _ => cases hi; cases h1
    | _ + 3, _ => cases hi
    | 0, 0 => rfl
    | 0, 1 => cases hj; cases h2
    | 0, 2 => cases hj; cases h2
    | 0, _ + 3 => cases hj

theorem witness_LinkMakesOneChannel_owners : spare.OneOwner ∧
    (∃ sys', spare.link 2 2 .blocking = .ok sys') ∧
    (∃ sys', spare.wireInput 2 .polling 1 = .ok sys') ∧ ∃ sys', spare.wireOutput 2 1 = .ok sys' :=
  ⟨spare_oneOwner, ⟨_, rfl⟩, ⟨_, rfl⟩, _, rfl⟩

/-- 93_implementation_defined row 14: a second producer, a second consumer, and a channel that does not
exist are refused. -/
theorem test_second_owner : spare.wireOutput 2 0 = .error .notOwner ∧
    spare.wireInput 2 .blocking 0 = .error .notOwner ∧ spare.wireOutput 2 2 = .error .notOwner := by
  decide

/-- R128: once the host has given up a half, it neither pushes nor pops through it. -/
theorem test_host_gave_up :
    ((spare.hostDropSender 1).bind fun sys => sys.hostPush 64 1 7) = .error .notOwner ∧
    ((spare.hostDropReceiver 1).bind fun sys => sys.hostPop 1) = .error .notOwner ∧
    ((spare.hostPush 64 1 7).bind fun sys => sys.hostPop 1) = .ok (7, spare) := by decide

theorem witness_DropReleasesEndpoints :
    line.slot? 0 = some sender ∧
    line.slot? 1 = some taker := by decide

theorem witness_TickLeavesOthersAlone :
    line.slot? 0 = some sender ∧
    tickAt 0 line = some (.producedOutput 7, line.afterTick 0) ∧
    InEp.chan? .absent ≠ some 1 ∧ OutEp.chan? (.channel 0) ≠ some 1 := by decide

theorem witness_TicksOfTwoInstancesCommute :
    line.slot? 0 = some sender ∧
    line.slot? 1 = some taker ∧
    line.Apart sender taker ∧
    InEp.notPolling .absent = true ∧ InEp.notPolling (.blocking 0) = true ∧
    report (line.view sender) ≠ .needsInput ∧
    report (line.view taker) ≠ .needsInput := by
  refine ⟨by decide, by decide, ⟨fun c h => (nomatch h), fun c _ h => (nomatch h), fun c => ?_⟩, rfl, rfl,
    by decide, by decide⟩
  cases c <;> exact ⟨rfl, rfl⟩

/-- A network of two machines with a queue on machine 0's output. -/
def net (q : List Int) : Net :=
  (Net.ofPrograms Config.default .y [[99], [99]]).setQueue (cout 0) q

/-- Too few values, the mailbox, the last machine, and the first destination that is none. -/
theorem witness_SwitchRoutesPackets :
    ((net [255, 5]).queue (cout 0)).length < 3 ∧ (net [255, 5, 7, 9]).queue (cout 0) = 255 :: 5 :: 7 :: [9] ∧
    ((net [1, 5, 7]).queue (cout 0) = 1 :: 5 :: 7 :: [] ∧ (1 : Int) < (net [1, 5, 7]).size) ∧
    ((net [2, 5, 7]).queue (cout 0) = 2 :: 5 :: 7 :: [] ∧ ((net [2, 5, 7]).size : Int) ≤ 2) := by decide

/-- A network of one machine that has halted, its idle counter at 2: the least that is quiescent. -/
def stalled (mailbox injected : Option Packet) : Net :=
  { sys :=
      { slots := [⟨{ prog [99] with
            status := .halted, haltCause := some .opcode99, pc := 1, idle := 2
            inEp := .polling 0, outEp := .channel 1 }, true, false⟩]
        chans := [Channel.new, Channel.new] }
    natCompare := .y
    mailbox := mailbox
    injected := injected }

theorem stalled_quiet (mailbox injected : Option Packet) : (stalled mailbox injected).Quiet where
  idle := by
    intro sl h
    cases List.mem_singleton.1 h
    decide
  noInput := by
    intro i hi
    cases Nat.lt_one_iff.1 hi
    rfl
  noOutput := by
    intro i hi
    cases Nat.lt_one_iff.1 hi
    rfl

/-- A bad destination; a network that is not quiescent; an empty mailbox; a repeated and a new packet. -/
theorem witness_QuiescentNetworkRecovers :
    (List.range (net [2, 5, 7]).size).foldlM Net.tickRoute (net [2, 5, 7]) = .error (.badDestination 2) ∧
    (∃ m, (List.range (net [255]).size).foldlM Net.tickRoute (net [255]) = .ok m ∧ ¬ m.Quiet) ∧
    (∀ p ∈ [none, some (5, 7)], ∀ q ∈ [none, some (6, 7), some (6, 8)],
      (List.range (stalled p q).size).foldlM Net.tickRoute (stalled p q) = .ok (stalled p q)) ∧
    (stalled (some (5, 7)) (some (6, 7))).Quiet ∧
    NatCompare.part .y (6, 7) = NatCompare.part .y (5, 7) ∧
    NatCompare.part .y (6, 8) ≠ NatCompare.part .y (5, 7) := by
  refine ⟨by decide, ⟨_, rfl, fun h => ?_⟩, by decide, stalled_quiet _ _, by decide, by decide⟩
  exact absurd (h.noOutput 0 (by decide)) (by decide)

theorem witness_FetchWordRunsNext : State.reset.status = .running ∧ 0 ≤ State.reset.pc ∧
    State.reset.mem.wf ∧ decode State.reset.cfg.unusedMode
      (unpackWords State.reset.cfg.wordBits 64 99) = .ok .halt := by decide

end Sys2Proof.Tests
end

/-! PROOFS of the family `20_memory`. -/

namespace Sys2Proof.Machine

variable {s t : State}

/-! ### What an instruction and a step do to memory -/

@[simp] theorem send_mem (v next : Int) (s : State) : (send v next s).mem = s.mem := by
  rcases send_cases v next s with ⟨-, e⟩ | ⟨_, -, -, e⟩ | ⟨_, -, -, e⟩ <;> rw [e] <;> rfl

/-- What is done to memory by one store, or by none. -/
inductive StoresAtMostOne : Memory → Memory → Prop where
  | none {m : Memory} : StoresAtMostOne m m
  | one {m : Memory} (addr : Nat) (v : Int) : StoresAtMostOne m (m.write addr v)

theorem StoresAtMostOne.of_eq {m m' : Memory} (h : m' = m) : StoresAtMostOne m m' :=
  h ▸ .none

/-- A store may raise the extent and never lowers it (20_memory R43). -/
theorem StoresAtMostOne.ext_le {m m' : Memory} (h : StoresAtMostOne m m') : m.ext ≤ m'.ext := by
  cases h with
  | none => exact le_rfl
  | one addr v => exact le_max_left _ _

theorem binary_storesAtMostOne {op : State → Int → Int → Except FaultCause Int} {a b d : Param}
    (h : binary op a b d s = .ok t) : StoresAtMostOne s.mem t.mem := by
  obtain ⟨-, -, r, addr, -, -, -, -, -, -, rfl⟩ := binary_eq_ok h
  exact .one addr r

theorem jump_mem {taken : Int → Bool} {a b : Param} (h : jump taken a b s = .ok t) :
    t.mem = s.mem := by
  obtain ⟨-, -, -, -, -, rfl⟩ := jump_eq_ok h
  rfl

theorem input_storesAtMostOne {d : Param} (h : effect (.input d) s = .ok t) :
    StoresAtMostOne s.mem t.mem := by
  obtain ⟨addr, -, -, h⟩ := input_eq_ok h
  cases hi : nextInput s <;> rw [hi] at h
  case value v =>
    obtain ⟨-, rfl⟩ := h
    simpa using StoresAtMostOne.one addr v
  case sentinel =>
    obtain ⟨-, rfl⟩ := h
    exact .one addr (-1)
  case hold =>
    obtain rfl : t = s := h
    exact .none
  case gone =>
    obtain rfl : t = s.halt .producerGone := h
    exact .none
  case notWired => exact h.elim

theorem effect_storesAtMostOne {i : Instr} (h : effect i s = .ok t) :
    StoresAtMostOne s.mem t.mem := by
  cases i with
  | add | mul | lt | eq => exact binary_storesAtMostOne h
  | input d => exact input_storesAtMostOne h
  | jnz | jz => exact .of_eq (jump_mem h)
  | output a =>
    obtain ⟨v, -, -, rfl⟩ := output_eq_ok h
    exact .of_eq (send_mem v _ s)
  | adjrel a =>
    obtain ⟨v, -, -, -, rfl⟩ := adjrel_eq_ok h
    exact .none
  | halt =>
    obtain ⟨-, rfl⟩ := halt_eq_ok h
    exact .none

/-- A tick stores at most one word: a terminal state and a fault store none. -/
theorem step_storesAtMostOne (h : step s = .next t) : StoresAtMostOne s.mem t.mem := by
  rcases step_eq_next.1 h with ⟨-, rfl⟩ | ⟨-, i, -, he⟩ | ⟨-, c, rfl, -⟩
  · exact .none
  · exact effect_storesAtMostOne he
  · exact .none

/-! ### What a `MemWrite` does to memory -/

theorem memWrite_storesAtMostOne {a v : Int} (h : memWrite s a v = .ok t) :
    StoresAtMostOne s.mem t.mem := by
  obtain ⟨-, -, rfl⟩ := memWrite_eq_ok.1 h
  exact .one a.toNat v

theorem memWrite_ext_of_lt {a v : Int} (h : memWrite s a v = .ok t) (ha : a < s.mem.ext) :
    t.mem.ext = s.mem.ext := by
  obtain ⟨h0, -, rfl⟩ := memWrite_eq_ok.1 h
  simp only [State.setMem_mem, Memory.write_ext]
  omega

/-- `MemRead` after `MemWrite`, at every address that is not negative. -/
theorem memRead_memWrite {a v : Int} (hm : s.mem.wf) (h : memWrite s a v = .ok t) (k : Nat) :
    memRead t k = .ok (if (k : Int) = a then v else s.mem.read k) := by
  obtain ⟨h0, -, rfl⟩ := memWrite_eq_ok.1 h
  have hk : k = a.toNat ↔ (k : Int) = a := by omega
  refine memRead_eq_ok.2 ⟨Int.natCast_nonneg k, ?_⟩
  simp only [State.setMem_mem, Int.toNat_natCast, Memory.read_write hm, hk]

theorem memRead_memWrite_same {a v : Int} (hm : s.mem.wf) (h : memWrite s a v = .ok t) :
    memRead t a = .ok v := by
  obtain ⟨h0, -, -⟩ := memWrite_eq_ok.1 h
  lift a to Nat using h0
  simpa using memRead_memWrite hm h a

/-! ### The extent -/

/-- Settles O25: a tick and a host write store at most one word, which never lowers the extent; a
write below the extent keeps it, and one beyond it is read back by `memRead_memWrite`. -/
theorem extentOnlyGrows : Obligations.ExtentOnlyGrows := by
  refine ⟨fun s t h => (step_storesAtMostOne h).ext_le,
    fun s t a v h => (memWrite_storesAtMostOne h).ext_le,
    fun s t a v hm h => ⟨memWrite_ext_of_lt h, fun _ => ⟨memRead_memWrite_same hm h, ?_⟩⟩⟩
  intro k hk h0
  rw [memRead_memWrite hm h, if_neg hk.ne, h0]

end Sys2Proof.Machine

/-! PROOFS of the family `30_encoding`. -/

namespace Sys2Proof

/-! ### The length of an instruction -/

/-- The width column of 30_encoding R64, said from the parameters and said from the opcode. -/
theorem Instr.width_eq_widthOfOpcode (i : Instr) :
    i.width = Machine.widthOfOpcode i.opcode := by
  cases i <;> rfl

@[simp] theorem encode_length (i : Instr) : (encode i).length = i.width := by
  simp [encode, Instr.width, Instr.arity]

/-- A word that decodes has its opcode in its two low decimal digits (R61, R63). -/
theorem opcode_of_decode_eq_ok {pol : UnusedModePolicy} {ws : List Int} {i : Instr}
    (h : decode pol ws = .ok i) : (i.opcode : Int) = ws.getD 0 0 % 100 := by
  obtain ⟨h0, hb, -⟩ := decode_eq_ok.1 h
  have := (build_eq_some hb).1
  omega

/-- Settles O6: the width is a function of the opcode, and the opcode of a decoded instruction is the
word's two low digits. -/
theorem lengthFollowsOpcode : Obligations.LengthFollowsOpcode := by
  intro pol ws i h
  refine ⟨rfl, ?_, encode_length i⟩
  rw [i.width_eq_widthOfOpcode, opcode_of_decode_eq_ok h]

end Sys2Proof

namespace Sys2Proof.Machine

variable {s : State} {i w : Nat} {raw : Int}

/-! ### A checked address, then its use -/

theorem chk_bind_of_isWord {α : Type} {v : Int} {f : Int → Except FaultCause α}
    (h : IsWord s.cfg.wordBits v) : (chk s v >>= f) = f v := by
  rw [chk_eq_ok.2 ⟨h, rfl⟩, ok_bind]

theorem chk_bind_of_not_isWord {α : Type} {v : Int} {f : Int → Except FaultCause α}
    (h : ¬ IsWord s.cfg.wordBits v) : (chk s v >>= f) = .error ⟨.overflow, .int v⟩ := by
  rw [chk_eq_error.2 ⟨h, rfl⟩, error_bind]

theorem destAddr_eq_error {a : Int} {c : FaultCause} :
    destAddr a = .error c ↔ a < 0 ∧ c = ⟨.negativeAddress, .int a⟩ := by
  unfold destAddr
  split_ifs with h <;> simp [h, eq_comm]

/-! ### What resolving a parameter comes to, by mode

The instruction fits, so the fetch of the parameter word raises nothing (30_encoding R65). -/

theorem Fits.readParam_position (hf : Fits s w) (hi : i ≤ w) :
    readParam s i ⟨.position, raw⟩ = memRead s raw := by
  obtain ⟨x, hx⟩ := hf.paramWordAt hi
  rw [Machine.readParam, hx, ok_bind]

theorem Fits.readParam_immediate (hf : Fits s w) (hi : i ≤ w) :
    readParam s i ⟨.immediate, raw⟩ = .ok raw :=
  (Reads.immediate rfl).readParam hf hi

theorem Fits.readParam_relative (hf : Fits s w) (hi : i ≤ w) :
    readParam s i ⟨.relative, raw⟩ = (chk s (s.rb + raw) >>= memRead s) := by
  obtain ⟨x, hx⟩ := hf.paramWordAt hi
  rw [Machine.readParam, hx, ok_bind]

theorem Fits.destParam_position (hf : Fits s w) (hi : i ≤ w) :
    destParam s i ⟨.position, raw⟩ = destAddr raw := by
  obtain ⟨x, hx⟩ := hf.paramWordAt hi
  rw [Machine.destParam, hx, ok_bind]

theorem Fits.destParam_immediate (hf : Fits s w) (hi : i ≤ w) :
    destParam s i ⟨.immediate, raw⟩ = .error ⟨.immediateWrite, .int raw⟩ := by
  obtain ⟨x, hx⟩ := hf.paramWordAt hi
  rw [Machine.destParam, hx, ok_bind]

theorem Fits.destParam_relative (hf : Fits s w) (hi : i ≤ w) :
    destParam s i ⟨.relative, raw⟩ = (chk s (s.rb + raw) >>= destAddr) := by
  obtain ⟨x, hx⟩ := hf.paramWordAt hi
  rw [Machine.destParam, hx, ok_bind]

/-- Settles O27: position mode is `MemRead` of the parameter word, relative mode is `MemRead` of the
checked `rb` + offset. -/
theorem readParameterRule : Obligations.ReadParameterRule := by
  intro s i w raw hf hi
  rw [hf.readParam_position hi, hf.readParam_immediate hi, hf.readParam_relative hi]
  refine ⟨fun h0 => memRead_eq_ok.2 ⟨h0, rfl⟩, fun hn => memRead_eq_error.2 ⟨hn, rfl⟩, rfl,
    chk_bind_of_not_isWord,
    fun hw hn => (chk_bind_of_isWord hw).trans (memRead_eq_error.2 ⟨hn, rfl⟩),
    fun hw h0 => (chk_bind_of_isWord hw).trans (memRead_eq_ok.2 ⟨h0, rfl⟩)⟩

/-- Settles O28: position mode is the sign check on the parameter word, relative mode is the sign
check on the checked `rb` + offset. -/
theorem destParameterRule : Obligations.DestParameterRule := by
  intro s i w raw hf hi
  rw [hf.destParam_position hi, hf.destParam_immediate hi, hf.destParam_relative hi]
  refine ⟨fun h0 => destAddr_eq_ok.2 ⟨h0, rfl⟩, fun hn => destAddr_eq_error.2 ⟨hn, rfl⟩, rfl,
    chk_bind_of_not_isWord,
    fun hw hn => (chk_bind_of_isWord hw).trans (destAddr_eq_error.2 ⟨hn, rfl⟩),
    fun hw h0 => (chk_bind_of_isWord hw).trans (destAddr_eq_ok.2 ⟨h0, rfl⟩)⟩

end Sys2Proof.Machine

/-! PROOFS of the family `40_arith_compare`. -/

namespace Sys2Proof

/-- The words of a three-parameter instruction: the mode digits stand at 100, 1000 and 10000
(30_encoding R60, R61). -/
theorem encode_of_params_eq {i : Instr} {a b d : Param} (h : i.params = [a, b, d]) :
    encode i = [(i.opcode + 100 * a.mode.digit + 1000 * b.mode.digit + 10000 * d.mode.digit : Int),
      a.raw, b.raw, d.raw] := by
  have hw : instrWord i =
      i.opcode + 100 * a.mode.digit + 1000 * b.mode.digit + 10000 * d.mode.digit := by
    simp only [instrWord, h, modeDigits]
    omega
  rw [encode, hw, h]
  rfl

end Sys2Proof

namespace Sys2Proof.Machine

/-! ### The comparisons never fault and answer 1 or 0 (40_arith_compare R88, R89) -/

theorem lessOp_of_lt {s : State} {x y : Int} (h : x < y) : lessOp s x y = .ok 1 := by
  simp [lessOp, lessThan, boolWord, h]

theorem lessOp_of_le {s : State} {x y : Int} (h : y ≤ x) : lessOp s x y = .ok 0 := by
  simp [lessOp, lessThan, boolWord, h]

theorem equalOp_of_eq {s : State} {x y : Int} (h : x = y) : equalOp s x y = .ok 1 := by
  simp [equalOp, equalTo, boolWord, h]

theorem equalOp_of_ne {s : State} {x y : Int} (h : x ≠ y) : equalOp s x y = .ok 0 := by
  simp [equalOp, equalTo, boolWord, h]

/-! ### An instruction of the shape `binary`, its parameters resolved

`hi` says that the instruction is `binary op`. The operation's own check comes before the store
(30_encoding R69), so an operation that faults does so whatever the address. -/

section Binary

variable {i : Instr} {op : State → Int → Int → Except FaultCause Int} {s : State} {a b d : Param}
  {v1 v2 r : Int} {addr : Nat}

theorem binary_eq_bind (hf : Fits s 4) (ha : Reads s a v1) (hb : Reads s b v2)
    (hd : Targets s d addr) : binary op a b d s =
      (op s v1 v2 >>= fun r => memWrite s addr r >>= fun t => .ok (t.setPc (s.pc + 4))) := by
  rw [binary, ha.readParam hf (by decide), ok_bind, hb.readParam hf (by decide), ok_bind,
    hd.destParam hf (by decide), ok_bind, hf.nextPc]
  rfl

variable (hi : effect i s = binary op a b d s)
  (hf : Fits s 4) (ha : Reads s a v1) (hb : Reads s b v2) (hd : Targets s d addr)

include hi hf ha hb hd

theorem exec_binary_stores (hr : op s v1 v2 = .ok r) (hc : addr < s.cfg.memCap) :
    exec i s = .next { s with mem := s.mem.write addr r, pc := s.pc + 4 } := by
  have hw : memWrite s addr r = .ok (s.setMem (s.mem.write addr r)) :=
    memWrite_eq_ok.2 ⟨by omega, by omega, rfl⟩
  refine exec_eq_next.2 (.inl ?_)
  rw [hi, binary_eq_bind hf ha hb hd, hr, ok_bind, hw]
  rfl

theorem exec_binary_faults_of_op {c : FaultCause} (hr : op s v1 v2 = .error c) :
    exec i s = .next (takeFault c s) := by
  refine exec_eq_next.2 (.inr ⟨c, ?_, rfl⟩)
  rw [hi, binary_eq_bind hf ha hb hd, hr, error_bind]

theorem exec_binary_faults_of_full (hr : op s v1 v2 = .ok r) (hc : s.cfg.memCap ≤ addr) :
    exec i s = .next (takeFault ⟨.memoryExhausted, .int addr⟩ s) := by
  have hw : memWrite s addr r = .error ⟨.memoryExhausted, .int addr⟩ :=
    memWrite_eq_error.2 (.inr ⟨by omega, by omega, rfl⟩)
  refine exec_eq_next.2 (.inr ⟨_, ?_, rfl⟩)
  rw [hi, binary_eq_bind hf ha hb hd, hr, ok_bind, hw, error_bind]

/-- An operation that is `chk` of an exact result: the result is stored, or it is no word, or the
memory is full (40_arith_compare R86, R87). -/
theorem exec_binary_of_chk (hr : op s v1 v2 = chk s r) :
    (IsWord s.cfg.wordBits r → addr < s.cfg.memCap →
      exec i s = .next { s with mem := s.mem.write addr r, pc := s.pc + 4 }) ∧
    (¬ IsWord s.cfg.wordBits r → exec i s = .next (takeFault ⟨.overflow, .int r⟩ s)) ∧
    (IsWord s.cfg.wordBits r → s.cfg.memCap ≤ addr →
      exec i s = .next (takeFault ⟨.memoryExhausted, .int addr⟩ s)) := by
  have hok (hw : IsWord s.cfg.wordBits r) : op s v1 v2 = .ok r := hr.trans (chk_eq_ok.2 ⟨hw, rfl⟩)
  exact ⟨fun hw => exec_binary_stores hi hf ha hb hd (hok hw),
    fun hw => exec_binary_faults_of_op hi hf ha hb hd (hr.trans (chk_eq_error.2 ⟨hw, rfl⟩)),
    fun hw => exec_binary_faults_of_full hi hf ha hb hd (hok hw)⟩

end Binary

/-! ### The rules -/

/-- Settles O29: `add` is `binary` of `chk` of the exact sum. -/
theorem addRule : Obligations.AddRule := by
  intro s a b d v1 v2 addr hf ha hb hd
  obtain ⟨hstore, hover, hfull⟩ :=
    exec_binary_of_chk (i := .add a b d) (op := sumOp) rfl hf ha hb hd rfl
  exact ⟨hstore, hover, hfull, encode_of_params_eq rfl⟩

/-- Settles O30: `mul` is `binary` of `chk` of the exact product. -/
theorem mulRule : Obligations.MulRule := by
  intro s a b d v1 v2 addr hf ha hb hd
  obtain ⟨hstore, hover, hfull⟩ :=
    exec_binary_of_chk (i := .mul a b d) (op := productOp) rfl hf ha hb hd rfl
  exact ⟨hstore, hover, hfull, encode_of_params_eq rfl⟩

/-- Settles O31: the operation of `lt` never faults, so only the cap keeps its 1 or 0 from memory. -/
theorem ltRule : Obligations.LtRule := by
  intro s a b d v1 v2 addr hf ha hb hd
  have hi : effect (.lt a b d) s = binary lessOp a b d s := rfl
  exact ⟨fun hc h => exec_binary_stores hi hf ha hb hd (lessOp_of_lt h) hc,
    fun hc h => exec_binary_stores hi hf ha hb hd (lessOp_of_le h) hc,
    exec_binary_faults_of_full hi hf ha hb hd rfl,
    encode_of_params_eq rfl⟩

/-- Settles O32: the operation of `eq` never faults, so only the cap keeps its 1 or 0 from memory. -/
theorem eqRule : Obligations.EqRule := by
  intro s a b d v1 v2 addr hf ha hb hd
  have hi : effect (.eq a b d) s = binary equalOp a b d s := rfl
  exact ⟨fun hc h => exec_binary_stores hi hf ha hb hd (equalOp_of_eq h) hc,
    fun hc h => exec_binary_stores hi hf ha hb hd (equalOp_of_ne h) hc,
    exec_binary_faults_of_full hi hf ha hb hd rfl,
    encode_of_params_eq rfl⟩

end Sys2Proof.Machine

/-! PROOFS of the family `42_control`. -/

namespace Sys2Proof

/-- The words of a one-parameter instruction: the mode digit stands at 100 (30_encoding R60, R61). -/
theorem encode_of_params_eq_singleton {i : Instr} {a : Param} (h : i.params = [a]) :
    encode i = [(i.opcode + 100 * a.mode.digit : Int), a.raw] := by
  have hw : instrWord i = i.opcode + 100 * a.mode.digit := by
    simp only [instrWord, h, modeDigits]
    omega
  rw [encode, hw, h]
  rfl

end Sys2Proof

namespace Sys2Proof.Machine

/-! ### Only `adjrel` writes `rb` -/

section RelativeBase

variable {s t : State}

@[simp] theorem send_rb (v next : Int) (s : State) : (send v next s).rb = s.rb := by
  rcases send_cases v next s with ⟨-, e⟩ | ⟨_, -, -, e⟩ | ⟨_, -, -, e⟩ <;> rw [e] <;> rfl

theorem binary_rb {op : State → Int → Int → Except FaultCause Int} {a b d : Param}
    (h : binary op a b d s = .ok t) : t.rb = s.rb := by
  obtain ⟨-, -, -, -, -, -, -, -, -, -, rfl⟩ := binary_eq_ok h
  rfl

theorem jump_rb {taken : Int → Bool} {a b : Param} (h : jump taken a b s = .ok t) :
    t.rb = s.rb := by
  obtain ⟨-, -, -, -, -, rfl⟩ := jump_eq_ok h
  rfl

theorem input_rb {d : Param} (h : effect (.input d) s = .ok t) : t.rb = s.rb := by
  obtain ⟨addr, -, -, h⟩ := input_eq_ok h
  cases hi : nextInput s <;> rw [hi] at h
  case value v =>
    obtain ⟨-, rfl⟩ := h
    simp
  case sentinel =>
    obtain ⟨-, rfl⟩ := h
    rfl
  case hold =>
    obtain rfl : t = s := h
    rfl
  case gone =>
    obtain rfl : t = s.halt .producerGone := h
    rfl
  case notWired => exact h.elim

theorem effect_rb {i : Instr} (hi : i.opcode ≠ 9) (h : effect i s = .ok t) : t.rb = s.rb := by
  cases i with
  | add | mul | lt | eq => exact binary_rb h
  | input d => exact input_rb h
  | jnz | jz => exact jump_rb h
  | output a =>
    obtain ⟨v, -, -, rfl⟩ := output_eq_ok h
    exact send_rb v _ s
  | adjrel a => exact absurd rfl hi
  | halt =>
    obtain ⟨-, rfl⟩ := halt_eq_ok h
    rfl

/-- A fault leaves `rb` too, so it is kept whether the instruction completes or not. -/
theorem exec_rb {i : Instr} (hi : i.opcode ≠ 9) (h : exec i s = .next t) : t.rb = s.rb := by
  rcases exec_eq_next.1 h with he | ⟨c, -, rfl⟩
  · exact effect_rb hi he
  · rfl

end RelativeBase

/-! ### `adjrel`, its operand resolved -/

/-- What is left of `adjrel` is the check of the new `rb`. -/
theorem adjrel_eq_bind {s : State} {a : Param} {v : Int} (hf : Fits s 2) (ha : Reads s a v) :
    effect (.adjrel a) s =
      (chk s (s.rb + v) >>= fun r => .ok ((s.setRb r).setPc (s.pc + 2))) := by
  rw [effect, ha.readParam hf (by decide), ok_bind, hf.nextPc]
  rfl

/-- Settles O38: `adjrel` is `chk` of the exact sum, then the write of `rb` and `pc`; the other
instructions keep `rb` by `exec_rb`. -/
theorem adjrelRule : Obligations.AdjrelRule := by
  intro s a v hf ha
  refine ⟨fun hw => exec_eq_next.2 (.inl ?_), fun hw => exec_eq_next.2 (.inr ⟨_, ?_, rfl⟩),
    fun i t hi h => exec_rb hi h, encode_of_params_eq_singleton rfl⟩
  · rw [adjrel_eq_bind hf ha, chk_bind_of_isWord hw]
    rfl
  · rw [adjrel_eq_bind hf ha, chk_bind_of_not_isWord hw]

end Sys2Proof.Machine

/-! PROOFS of the family `other`: encoding, decoding and the fetch. -/

namespace Sys2Proof

/-! ### Decimal digits -/

theorem digit_add_two (k w : Nat) : digit (k + 2) w = digit k (w / 100) := by
  rw [digit, digit, Nat.div_div_eq_div_mul, pow_add, mul_comm (10 ^ k)]
  rfl

theorem digit_zero_cons {m : Nat} (h : m < 10) (n : Nat) : digit 0 (m + 10 * n) = m := by
  simp only [digit, pow_zero, Nat.div_one]
  omega

theorem digit_succ_cons {m : Nat} (h : m < 10) (k n : Nat) :
    digit (k + 1) (m + 10 * n) = digit k n := by
  have hn : (m + 10 * n) / 10 = n := by omega
  rw [digit, digit, pow_succ', ← Nat.div_div_eq_div_mul, hn]

/-- A digit below position `n` does not see what stands at `n` and above. -/
theorem digit_mod_ten_pow {k n : Nat} (h : k < n) (w : Nat) : digit k (w % 10 ^ n) = digit k w := by
  obtain ⟨m, rfl⟩ := Nat.exists_eq_add_of_lt h
  have hp : 10 ^ (k + m + 1) = 10 ^ k * 10 ^ (m + 1) := by rw [← pow_add, Nat.add_assoc]
  rw [digit, digit, hp, Nat.mod_mul_right_div_self,
    Nat.mod_mod_of_dvd _ (dvd_pow_self 10 (Nat.succ_ne_zero m))]

/-- Five digits determine a number below 100000. -/
theorem eq_of_digit_eq {u v : Nat} (hu : u < 100000) (hv : v < 100000) (h : u % 100 = v % 100)
    (hd : ∀ k < 3, digit (k + 2) u = digit (k + 2) v) : u = v := by
  have h0 := hd 0 (by decide)
  have h1 := hd 1 (by decide)
  have h2 := hd 2 (by decide)
  simp only [digit] at h0 h1 h2
  omega

theorem digit_toNat {w : Int} (h : 0 ≤ w) (k : Nat) : (digit k w.toNat : Int) = w / 10 ^ k % 10 := by
  lift w to Nat using h
  simp [digit]

/-! ### Instructions: opcodes and parameters -/

theorem Instr.opcode_lt (i : Instr) : i.opcode < 100 := by
  cases i <;> simp [Instr.opcode]

theorem Instr.arity_le (i : Instr) : i.arity ≤ 3 := by
  cases i <;> simp [Instr.arity, Instr.params]

theorem Instr.opcode_mem_knownOpcodes (i : Instr) : (i.opcode : Int) ∈ Machine.knownOpcodes := by
  cases i <;> simp [Instr.opcode, Machine.knownOpcodes]

theorem wordShape (i : Instr) : Laws.WordShape.Statement i :=
  Laws.WordShape.of_params i i.arity_le i.opcode_lt

/-- The opcode map answers `i` exactly at the opcode of `i` and on the parameters of `i`. -/
theorem build_eq_some_iff {op : Nat} {p1 p2 p3 : Param} {i : Instr} :
    build op p1 p2 p3 = some i ↔ op = i.opcode ∧ i.params = [p1, p2, p3].take i.arity := by
  refine ⟨fun h => ⟨(build_eq_some h).1.symm, (build_eq_some h).2⟩, ?_⟩
  rintro ⟨rfl, h⟩
  cases i <;> simp_all [Instr.opcode, Instr.params, Instr.arity, build]

/-- The opcode map is defined on the assigned opcodes (30_encoding R71). -/
theorem exists_build {op : Nat} (h : (op : Int) ∈ Machine.knownOpcodes) (p1 p2 p3 : Param) :
    ∃ i, build op p1 p2 p3 = some i := by
  simp only [Machine.knownOpcodes, List.mem_cons, List.not_mem_nil, or_false] at h
  norm_cast at h
  rcases h with rfl | rfl | rfl | rfl | rfl | rfl | rfl | rfl | rfl | rfl <;> exact ⟨_, rfl⟩

theorem build_eq_none {op : Nat} (h : (op : Int) ∉ Machine.knownOpcodes) (p1 p2 p3 : Param) :
    build op p1 p2 p3 = none := by
  refine Option.eq_none_iff_forall_ne_some.2 fun i hi => h ?_
  rw [(build_eq_some_iff.1 hi).1]
  exact i.opcode_mem_knownOpcodes

/-- The first parameters of three, by their positions. -/
theorem take_three_eq_map_range {α : Type} (f : Nat → α) {n : Nat} (h : n ≤ 3) :
    [f 1, f 2, f 3].take n = (List.range n).map fun k => f (k + 1) := by
  interval_cases n <;> rfl

/-! ### The unused digits (30_encoding R68) -/

theorem unusedRefusal_eq_none {pol : UnusedModePolicy} {n w : Nat} : unusedRefusal pol n w = none ↔
    ∀ k, n < k → k ≤ 3 → refusesUnused pol (digit (k + 1) w) = false := by
  simp only [unusedRefusal, Option.map_eq_none_iff, List.find?_eq_none, Bool.and_eq_true,
    decide_eq_true_eq, not_and, Bool.not_eq_true]
  constructor
  · intro h k hn hk
    refine h k ?_ hn
    simp only [List.mem_cons, List.not_mem_nil, or_false]
    omega
  · intro h k hk hn
    refine h k hn ?_
    simp only [List.mem_cons, List.not_mem_nil, or_false] at hk
    omega

/-- The refused position is the lowest one (log entry 20). -/
theorem unusedRefusal_eq_some {pol : UnusedModePolicy} {n w k d : Nat} :
    unusedRefusal pol n w = some (k, d) ↔ n < k ∧ k ≤ 3 ∧ d = digit (k + 1) w ∧
      refusesUnused pol d = true ∧
      ∀ j, n < j → j < k → refusesUnused pol (digit (j + 1) w) = false := by
  have hr : [1, 2, 3] = List.range' 1 3 := rfl
  simp only [unusedRefusal, hr, Option.map_eq_some_iff, List.find?_range'_eq_some, Prod.mk.injEq,
    List.mem_range'_1, Bool.and_eq_true, decide_eq_true_eq, Bool.not_eq_eq_eq_not, Bool.not_true,
    Bool.and_eq_false_imp]
  constructor
  · rintro ⟨k, ⟨⟨hn, hk⟩, h13, hj⟩, rfl, rfl⟩
    exact ⟨hn, by omega, rfl, hk, fun j h1 h2 => hj j (by omega) h2 h1⟩
  · rintro ⟨hn, h3, rfl, hk, hj⟩
    exact ⟨k, ⟨⟨hn, hk⟩, by omega, fun j _ h2 h1 => hj j h1 h2⟩, rfl, rfl⟩

@[simp] theorem unusedRefusal_ignore (n w : Nat) : unusedRefusal .ignore n w = none :=
  unusedRefusal_eq_none.2 fun _ _ _ => rfl

/-! ### When the decoder answers -/

/-- The decoder answers `i` exactly when the word ends in the opcode of `i`, its mode digits and the
words after it are the parameters of `i`, and the policy refuses no unused digit. -/
theorem decode_eq_ok_iff {pol : UnusedModePolicy} {ws : List Int} {i : Instr} :
    decode pol ws = .ok i ↔ 0 ≤ ws.getD 0 0 ∧ (ws.getD 0 0).toNat % 100 = i.opcode ∧
      i.params = (List.range i.arity).map (fun k => paramOf ws (ws.getD 0 0).toNat (k + 1)) ∧
      unusedRefusal pol i.arity (ws.getD 0 0).toNat = none := by
  rw [decode_eq_ok, build_eq_some_iff, take_three_eq_map_range (paramOf ws _) i.arity_le, and_assoc]

/-- A word that is negative or of no assigned opcode (30_encoding R63). -/
theorem decode_eq_unknownOpcode (pol : UnusedModePolicy) {ws : List Int}
    (h : ws.getD 0 0 < 0 ∨ ws.getD 0 0 % 100 ∉ Machine.knownOpcodes) :
    decode pol ws = .error (.unknownOpcode (ws.getD 0 0)) := by
  unfold decode
  by_cases h0 : ws.getD 0 0 < 0
  · simp only [if_pos h0]
  · have hop : (((ws.getD 0 0).toNat % 100 : Nat) : Int) ∉ Machine.knownOpcodes := by
      rw [Int.natCast_mod, Int.toNat_of_nonneg (not_lt.1 h0)]
      exact h.resolve_left h0
    simp only [if_neg h0, build_eq_none hop]

/-- What a policy adds to `ignore`: a refused unused digit is an error. -/
theorem decode_of_ignore {pol : UnusedModePolicy} {ws : List Int} {i : Instr}
    (h : decode .ignore ws = .ok i) : 
    (unusedRefusal pol i.arity (ws.getD 0 0).toNat = none → decode pol ws = .ok i) ∧
    (∀ k d, unusedRefusal pol i.arity (ws.getD 0 0).toNat = some (k, d) →
      decode pol ws = .error (.invalidMode k d)) := by
  obtain ⟨h0, hb, -⟩ := decode_eq_ok.1 h
  refine ⟨fun hu => decode_eq_ok.2 ⟨h0, hb, hu⟩, fun k d hu => ?_⟩
  unfold decode
  simp only [if_neg (not_lt.2 h0), hb, hu]

/-! ### Decoding an encoding -/

/-- The digits of the mode number are the digits of the modes, then 0. -/
theorem digit_modeDigits (ps : List Param) (k : Nat) :
    digit k (modeDigits ps) = (ps[k]?.map fun p => p.mode.digit).getD 0 := by
  induction ps generalizing k with
  | nil => simp [modeDigits, digit]
  | cons p ps ih =>
    have hp := Laws.WordShape.digit_lt p.mode
    cases k with
    | zero => simp [modeDigits, digit_zero_cons hp]
    | succ k => simp [modeDigits, digit_succ_cons hp, ih]

theorem digit_instrWord (i : Instr) (k : Nat) :
    digit (k + 2) (instrWord i).toNat = (i.params[k]?.map fun p => p.mode.digit).getD 0 := by
  have hq : (instrWord i).toNat / 100 = modeDigits i.params := by
    have := i.opcode_lt
    simp only [instrWord, Int.toNat_natCast]
    omega
  rw [digit_add_two, hq, digit_modeDigits]

/-- Settles O1: the low digits are the opcode, the next the modes, and every unused digit is 0. -/
theorem encodedWordsDecodeBack : Obligations.EncodedWordsDecodeBack := by
  intro pol i rest
  obtain ⟨h0, -, hop, -⟩ := wordShape i
  have hw : (encode i ++ rest).getD 0 0 = instrWord i := rfl
  rw [decode_eq_ok_iff, hw]
  refine ⟨h0, by omega, ?_, unusedRefusal_eq_none.2 fun k hk _ => ?_⟩
  · refine List.ext_getElem (by simp [Instr.arity]) fun k hk _ => ?_
    have hr : (encode i ++ rest).getD (k + 1) 0 = i.params[k].raw := by
      simp [encode, List.getElem?_append_left, hk]
    simp only [List.getElem_map, List.getElem_range, paramOf, digit_instrWord, hr,
      List.getElem?_eq_getElem hk, Option.map_some, Option.getD_some, Mode.ofDigit_digit]
  · obtain ⟨k, rfl⟩ := Nat.exists_eq_add_of_lt hk
    have hn : i.params[i.arity + k]? = none := List.getElem?_eq_none (Nat.le_add_right _ _)
    rw [digit_instrWord, hn]
    cases pol <;> rfl

end Sys2Proof


namespace Sys2Proof

/-! ### The strict policy, the digits, the policies -/

theorem refusesUnused_faultIfNonzero_eq_false {d : Nat} :
    refusesUnused .faultIfNonzero d = false ↔ d = 0 := by
  simp [refusesUnused]

/-- A mode digit of a decoded word: that of the parameter, or, at an unused position, one that the
policy lets pass. -/
theorem digit_of_decode_eq_ok {pol : UnusedModePolicy} {ws : List Int} {i : Instr}
    (h : decode pol ws = .ok i) {k : Nat} (hk : k < 3) :
    (∃ p, i.params[k]? = some p ∧ digit (k + 2) (ws.getD 0 0).toNat = p.mode.digit) ∨
    (i.params[k]? = none ∧ refusesUnused pol (digit (k + 2) (ws.getD 0 0).toNat) = false) := by
  obtain ⟨-, -, hp, hu⟩ := decode_eq_ok_iff.1 h
  by_cases ha : k < i.arity
  · refine .inl ⟨paramOf ws (ws.getD 0 0).toNat (k + 1), ?_, ?_⟩
    · rw [hp]
      simp [ha]
    · exact (Mode.digit_ofDigit (digit_lt_ten _ _)).symm
  · exact .inr ⟨List.getElem?_eq_none (not_lt.1 ha),
      unusedRefusal_eq_none.1 hu (k + 1) (by omega) (by omega)⟩

/-- Settles O2: word and canonical word have the same five digits, and the parameter words are the
words that follow. -/
theorem strictWordsReencode : Obligations.StrictWordsReencode := by
  intro ws i h hlt hlen
  obtain ⟨h0, hop, hp, -⟩ := decode_eq_ok_iff.1 h
  obtain ⟨hs0, hslt, hsop, -⟩ := wordShape i
  have hdigits : ∀ k < 3, digit (k + 2) (instrWord i).toNat = digit (k + 2) (ws.getD 0 0).toNat := by
    intro k hk
    rw [digit_instrWord]
    rcases digit_of_decode_eq_ok h hk with ⟨p, hpk, hd⟩ | ⟨hpk, hd⟩
    · rw [hpk, hd]
      rfl
    · rw [hpk, refusesUnused_faultIfNonzero_eq_false.1 hd]
      rfl
  have hword : instrWord i = ws.getD 0 0 := by
    have := eq_of_digit_eq (by omega) (by omega) (by omega) hdigits
    omega
  refine List.ext_getElem (by rw [encode_length, hlen]) fun k hk hk' => ?_
  cases k with
  | zero => simpa [encode, List.getElem?_eq_getElem hk'] using hword
  | succ k =>
    have hraw : i.params.map Param.raw = (List.range i.arity).map fun k => ws.getD (k + 1) 0 := by
      rw [hp, List.map_map]
      simp [paramOf, Instr.arity]
    simp [encode, hraw, List.getElem?_eq_getElem hk']

/-- Settles O3: the opcode map is defined on the assigned opcodes alone, and the modes are read off
the digits. -/
theorem decoderFollowsDigits : Obligations.DecoderFollowsDigits := by
  intro pol w ps
  refine ⟨fun h => decode_eq_unknownOpcode pol h, fun h0 hop => ?_⟩
  have hop' : ((w.toNat % 100 : Nat) : Int) ∈ Machine.knownOpcodes := by
    rwa [Int.natCast_mod, Int.toNat_of_nonneg h0]
  obtain ⟨i, hb⟩ := exists_build hop' (paramOf (w :: ps) w.toNat 1) (paramOf (w :: ps) w.toNat 2)
    (paramOf (w :: ps) w.toNat 3)
  have hd : decode .ignore (w :: ps) = .ok i :=
    decode_eq_ok.2 ⟨h0, hb, unusedRefusal_ignore _ _⟩
  have hp := (decode_eq_ok_iff.1 hd).2.2.1
  refine ⟨i, hd, opcode_of_decode_eq_ok hd, ?_, ?_⟩ <;> rw [hp] <;>
    simp [paramOf, Instr.arity, Mode.digit_ofDigit (digit_lt_ten _ _), digit_toNat h0]

/-- A decoded word, rewritten: any other non-negative word with the same opcode and the same mode
digits at the positions used, and no refused digit at the others, decodes to the same. -/
theorem decode_congr {pol pol' : UnusedModePolicy} {w w' : Int} {ps : List Int} {i : Instr}
    (h : decode pol (w :: ps) = .ok i) (h0 : 0 ≤ w') (hop : w'.toNat % 100 = w.toNat % 100)
    (hd : ∀ k < i.arity, digit (k + 2) w'.toNat = digit (k + 2) w.toNat)
    (hu : unusedRefusal pol' i.arity w'.toNat = none) : decode pol' (w' :: ps) = .ok i := by
  obtain ⟨-, hiop, hp, -⟩ := decode_eq_ok_iff.1 h
  refine decode_eq_ok_iff.2 ⟨h0, hop.trans hiop, hp.trans (List.map_congr_left fun k hk => ?_), hu⟩
  simp [paramOf, hd k (List.mem_range.1 hk)]

/-- Settles O5: opcode and mode digits stand below digit 5. -/
theorem highDigitsNeverRead : Obligations.HighDigitsNeverRead := by
  intro pol w ps i h0
  lift w to Nat using h0
  have hlow (k : Nat) (hk : k < 5) :
      digit k ((w : Int) % 100000).toNat = digit k (w : Int).toNat := by
    have e : ((w : Int) % 100000).toNat = w % 10 ^ 5 := by omega
    rw [e, Int.toNat_natCast, digit_mod_ten_pow hk]
  have hop : ((w : Int) % 100000).toNat % 100 = (w : Int).toNat % 100 := by omega
  have hu : unusedRefusal pol i.arity ((w : Int) % 100000).toNat =
      none ↔ unusedRefusal pol i.arity (w : Int).toNat = none := by
    rw [unusedRefusal_eq_none, unusedRefusal_eq_none]
    exact forall_congr' fun k => forall_congr' fun _ => forall_congr' fun hk => by
      rw [hlow (k + 1) (by omega)]
  have ha := i.arity_le
  exact ⟨fun h => decode_congr h (by omega) hop (fun k hk => hlow _ (by omega))
      (hu.2 (decode_eq_ok_iff.1 h).2.2.2),
    fun h => decode_congr h (by omega) hop.symm (fun k hk => (hlow _ (by omega)).symm)
      (hu.1 (decode_eq_ok_iff.1 h).2.2.2)⟩

/-- Settles O7: each word of the table is evaluated. -/
theorem sampleWordsDecode : Obligations.SampleWordsDecode := by
  unfold Obligations.SampleWordsDecode
  decide

namespace Machine

variable {s : State}

/-! ### A step, its fetch known -/

theorem step_of_fetchInstr_eq_ok {i : Instr} (hs : s.status = .running) (h : fetchInstr s = .ok i) :
    step s = exec i s := by
  simp [step, hs, h]

theorem step_of_fetchInstr_eq_error {c : FaultCause} (hs : s.status = .running)
    (h : fetchInstr s = .error c) : step s = .next (takeFault c s) := by
  simp [step, hs, h]

theorem fetchInstr_of_pc_neg (h : s.pc < 0) : fetchInstr s = .error ⟨.negativeAddress, .int s.pc⟩ := by
  simp [fetchInstr, h]

theorem fetchInstr_of_reject {r : DecodeReject} (h0 : 0 ≤ s.pc)
    (h : decode s.cfg.unusedMode (wordsAt s.mem s.pc.toNat) = .error r) :
    fetchInstr s = .error (rejectCause r) := by
  simp [fetchInstr, not_lt.2 h0, h]

theorem faultWord_of_nonneg (h0 : 0 ≤ s.pc) : faultWord s = some (s.mem.read s.pc.toNat) := by
  simp [faultWord, not_lt.2 h0]

theorem wordsAt_getD {m : Memory} {a k : Nat} (h : k < 4) : (wordsAt m a).getD k 0 = m.read (a + k) := by
  interval_cases k <;> rfl

/-- Settles O8: the fetch is the decoder at the words of `pc`. -/
theorem stepRunsDecodedInstruction : Obligations.StepRunsDecodedInstruction := by
  intro s i hs h0 h
  exact step_of_fetchInstr_eq_ok hs (fetchInstr_eq_ok.2 ⟨h0, h⟩)

/-- Settles O9: the words at `pc` are the encoding and what stands behind it, so they decode to `i`. -/
theorem stepRunsInstructionInMemory : Obligations.StepRunsInstructionInMemory := by
  intro s i hs h0 hm
  have hle : i.width ≤ 4 := Nat.succ_le_succ i.arity_le
  have hpre : (wordsAt s.mem s.pc.toNat).take i.width = encode i := by
    refine List.ext_getElem (by simpa [wordsAt] using hle) fun k hk hk' => ?_
    rw [encode_length] at hk'
    have h4 : k < (wordsAt s.mem s.pc.toNat).length := lt_of_lt_of_le hk' hle
    calc ((wordsAt s.mem s.pc.toNat).take i.width)[k]
        = (wordsAt s.mem s.pc.toNat).getD k 0 := by simp [List.getElem?_eq_getElem h4]
      _ = (encode i).getD k 0 := by rw [wordsAt_getD h4, hm k hk']
      _ = (encode i)[k] := by simp [hk']
  refine stepRunsDecodedInstruction s i hs h0 ?_
  rw [← List.take_append_drop i.width (wordsAt s.mem s.pc.toNat), hpre]
  exact encodedWordsDecodeBack _ i _

/-- Settles O4: the policy acts on the unused digits alone, and a refused word is a fault of the
fetch. -/
theorem unusedDigitPolicy : Obligations.UnusedDigitPolicy := by
  refine ⟨fun w ps i h => ?_, fun s k d hs h0 h =>
    step_of_fetchInstr_eq_error hs (fetchInstr_of_reject h0 h)⟩
  have h0 : 0 ≤ w := (decode_eq_ok.1 h).1
  have pass (pol : UnusedModePolicy)
      (hd : ∀ k, i.arity < k → k ≤ 3 → refusesUnused pol (digit (k + 1) w.toNat) = false) :
      decode pol (w :: ps) = .ok i :=
    (decode_of_ignore h).1 (unusedRefusal_eq_none.2 hd)
  have refuse (pol : UnusedModePolicy) {k : Nat} (hn : i.arity < k) (h3 : k ≤ 3)
      (hk : refusesUnused pol (digit (k + 1) w.toNat) = true)
      (hd : ∀ j, i.arity < j → j < k → refusesUnused pol (digit (j + 1) w.toNat) = false) :
      decode pol (w :: ps) = .error (.invalidMode k (digit (k + 1) w.toNat)) :=
    (decode_of_ignore h).2 _ _ (unusedRefusal_eq_some.2 ⟨hn, h3, rfl, hk, hd⟩)
  simp only [← digit_toNat h0, Int.toNat_natCast]
  norm_cast
  refine ⟨fun w' h0' hw => ?_, fun hd => ?_, fun k hn h3 hk hd => ?_, fun hd => ?_,
    fun k hn h3 hk hd => ?_⟩
  · lift w to Nat using h0
    lift w' to Nat using h0'
    norm_cast at hw
    have low (k : Nat) (hk : k < i.arity + 2) : digit k w' = digit k w := by
      rw [← digit_mod_ten_pow hk, hw, digit_mod_ten_pow hk]
    have hop : w' % 100 = w % 100 := by
      have h2 : (100 : Nat) ∣ 10 ^ (i.arity + 2) := pow_dvd_pow 10 (Nat.le_add_left 2 _)
      rw [← Nat.mod_mod_of_dvd w' h2, hw, Nat.mod_mod_of_dvd w h2]
    exact decode_congr h (by omega) (by simpa using hop)
      (fun k hk => by simpa using low (k + 2) (by omega)) (unusedRefusal_ignore _ _)
  · exact pass _ fun k hn h3 => by simpa [refusesUnused] using hd k hn h3
  · exact refuse _ hn h3 (by simpa [refusesUnused] using hk)
      fun j hn hj => by simpa [refusesUnused] using hd j hn hj
  · exact pass _ fun k hn h3 => by simpa [refusesUnused] using hd k hn h3
  · exact refuse _ hn h3 (by simpa [refusesUnused] using hk)
      fun j hn hj => by simpa [refusesUnused] using hd j hn hj

/-- A word at `pc` that is negative or of no assigned opcode. -/
theorem fetchInstr_of_unknownOpcode (h0 : 0 ≤ s.pc)
    (h : s.mem.read s.pc.toNat < 0 ∨ s.mem.read s.pc.toNat % 100 ∉ knownOpcodes) :
    fetchInstr s = .error ⟨.unknownOpcode, .int (s.mem.read s.pc.toNat)⟩ :=
  fetchInstr_of_reject h0 (decode_eq_unknownOpcode s.cfg.unusedMode (ws := wordsAt s.mem s.pc.toNat) h)

theorem step_of_unknownOpcode {w : Int} (hs : s.status = .running) (h0 : 0 ≤ s.pc)
    (hw : s.mem.read s.pc.toNat = w) (h : w < 0 ∨ w % 100 ∉ knownOpcodes) :
    step s = .next { s with
      status := .faulted, fault := some ⟨.unknownOpcode, s.pc, some w, .int w⟩ } := by
  subst hw
  rw [step_of_fetchInstr_eq_error hs (fetchInstr_of_unknownOpcode h0 h), takeFault,
    faultWord_of_nonneg h0]

/-- Settles O10: beyond the extent the word is 0, which is no assigned opcode. -/
theorem fetchFaults : Obligations.FetchFaults := by
  intro s hs
  refine ⟨fun hn => ?_, fun h0 hx => ?_, fun w h0 hw h => step_of_unknownOpcode hs h0 hw h⟩
  · rw [step_of_fetchInstr_eq_error hs (fetchInstr_of_pc_neg hn), takeFault, faultWord, if_pos hn]
  · exact step_of_unknownOpcode hs h0 (Memory.read_of_ext_le (by omega)) (.inr (by decide))

/-! ### Parameter words (30_encoding R65) -/

theorem paramWordAt_of_not_isWord {i : Nat} (h : ¬ IsWord s.cfg.wordBits (s.pc + i)) :
    paramWordAt s i = .error ⟨.overflow, .int (s.pc + i)⟩ :=
  chk_bind_of_not_isWord h

/-- Settles O26: the fetch of the parameter word comes first, then the mode. -/
theorem parameterWordRule : Obligations.ParameterWordRule := by
  refine ⟨fun s i h => ?_, fun s i p h0 => ⟨fun hw => ?_, fun k hw hk => ?_⟩⟩
  · have hp := (decode_eq_ok_iff.1 (fetchInstr_eq_ok.1 h).2).2.2.1
    have ha := i.arity_le
    rw [hp, List.map_map]
    refine List.map_congr_left fun k hk => wordsAt_getD ?_
    have := List.mem_range.1 hk
    omega
  · rw [readParam, destParam, paramWordAt_of_not_isWord hw, error_bind, error_bind]
    exact ⟨rfl, rfl⟩
  · have hx := paramWordAt_eq_ok.2 ⟨hw, by omega, rfl⟩
    rw [readParam, destParam, hx, ok_bind, ok_bind, hk]
    exact ⟨rfl, rfl⟩

/-! ### The words of `withFetchWord` -/

theorem read_writeWords_of_lt {m : Memory} (hm : m.wf) {a b : Nat} (h : b < a) (ws : List Int) :
    (writeWords m a ws).read b = m.read b := by
  induction ws generalizing m a with
  | nil => rfl
  | cons w ws ih =>
    rw [writeWords, ih (Memory.write_wf hm a w) (by omega), Memory.read_write hm, if_neg (by omega)]

theorem read_writeWords {m : Memory} (hm : m.wf) (a : Nat) {ws : List Int} {k : Nat}
    (h : k < ws.length) : (writeWords m a ws).read (a + k) = ws.getD k 0 := by
  induction ws generalizing m a k with
  | nil => simp at h
  | cons w ws ih =>
    have hm' := Memory.write_wf hm a w
    cases k with
    | zero =>
      rw [writeWords, read_writeWords_of_lt hm' (by omega), Memory.read_write hm]
      simp
    | succ k =>
      have := ih hm' (a + 1) (Nat.lt_of_succ_lt_succ h)
      rw [writeWords, List.getD_cons_succ, ← this, Nat.add_right_comm a 1 k, Nat.add_assoc]

theorem wordsAt_writeWords {m : Memory} (hm : m.wf) (a : Nat) {ws : List Int} (h : ws.length = 4) :
    wordsAt (writeWords m a ws) a = ws := by
  refine List.ext_getElem h.symm fun k hk hk' => ?_
  calc (wordsAt (writeWords m a ws) a)[k]
      = (wordsAt (writeWords m a ws) a).getD k 0 := by simp [List.getElem?_eq_getElem hk]
    _ = ws.getD k 0 := by rw [wordsAt_getD hk, read_writeWords hm a hk']
    _ = ws[k] := by simp [List.getElem?_eq_getElem hk']

/-- Settles O60: the four words written are the four the fetch reads. -/
theorem fetchWordRunsNext : Obligations.FetchWordRunsNext := by
  intro s nbits w i hs h0 hm hd
  refine stepRunsDecodedInstruction (s.withFetchWord nbits w) i hs h0 ?_
  exact (congrArg (decode s.cfg.unusedMode) (wordsAt_writeWords hm _ rfl)).trans hd

end Machine

end Sys2Proof


/-! PROOFS of the family `other`: the program text and the loaded machine. -/

namespace Sys2Proof.Machine

/-! ### The canonical form is unique -/

/-- The least listed address of one list is listed in any other with the same look-ups. -/
theorem head_key_le {c d : Nat × Int} {cs ds : List (Nat × Int)}
    (hd : (d :: ds).Pairwise fun c d => c.1 < d.1) (hc : c.2 ≠ 0)
    (h : ∀ a, lookupCell (c :: cs) a = lookupCell (d :: ds) a) : d.1 ≤ c.1 := by
  by_contra hlt
  have above : Above c.1 (d :: ds) := by
    rintro e (_ | ⟨_, he⟩)
    · exact not_le.1 hlt
    · exact (not_le.1 hlt).trans ((List.pairwise_cons.1 hd).1 e he)
  have hlow : lookupCell (c :: cs) c.1 = c.2 := by simp [lookupCell]
  exact hc (hlow.symm.trans ((h c.1).trans (lookupCell_of_above above)))

theorem cells_ext {cs ds : List (Nat × Int)} (hc : cs.Pairwise fun c d => c.1 < d.1)
    (hd : ds.Pairwise fun c d => c.1 < d.1) (hc0 : ∀ c ∈ cs, c.2 ≠ 0) (hd0 : ∀ d ∈ ds, d.2 ≠ 0)
    (h : ∀ a, lookupCell cs a = lookupCell ds a) : cs = ds := by
  induction cs generalizing ds with
  | nil =>
    cases ds with
    | nil => rfl
    | cons d ds => exact absurd (by simpa [lookupCell] using (h d.1).symm) (hd0 d (by simp))
  | cons c cs ih =>
    cases ds with
    | nil => exact absurd (by simpa [lookupCell] using h c.1) (hc0 c (by simp))
    | cons d ds =>
      have hkey : c.1 = d.1 := le_antisymm (head_key_le hc (hd0 d (by simp)) fun a => (h a).symm)
        (head_key_le hd (hc0 c (by simp)) h)
      have hval : c.2 = d.2 := by simpa [lookupCell, hkey] using h c.1
      obtain rfl : c = d := Prod.ext hkey hval
      obtain ⟨hcs, hc⟩ := List.pairwise_cons.1 hc
      obtain ⟨hds, hd⟩ := List.pairwise_cons.1 hd
      refine congrArg (c :: ·) (ih hc hd (fun e he => hc0 e (by simp [he]))
        (fun e he => hd0 e (by simp [he])) fun a => ?_)
      by_cases ha : c.1 = a
      · subst ha
        rw [lookupCell_of_above fun e he => hcs e he, lookupCell_of_above fun e he => hds e he]
      · simpa [lookupCell, ha] using h a

theorem Memory.ext_of_read {m n : Memory} (hm : m.wf) (hn : n.wf) (hext : m.ext = n.ext)
    (h : ∀ a, m.read a = n.read a) : m = n := by
  have hcells : m.cells = n.cells :=
    cells_ext hm.1 hn.1 (fun c hc => (hm.2 c hc).1) (fun c hc => (hn.2 c hc).1) fun a => by
      rw [← Memory.read_eq_lookup hm, ← Memory.read_eq_lookup hn, h]
  cases m
  cases n
  exact congrArg₂ Memory.mk hcells hext

/-- The words of a memory, loaded, give it back. -/
theorem Memory.ofWords_words {m : Memory} (hm : m.wf) : Memory.ofWords m.words = m := by
  refine Memory.ext_of_read (Memory.ofWords_wf _) hm (by simp [Memory.ofWords, Memory.words]) fun a => ?_
  rw [Memory.read_ofWords]
  by_cases ha : a < m.ext
  · simp [Memory.words, ha]
  · rw [Memory.read_of_ext_le (not_lt.1 ha)]
    simp [Memory.words, ha]

/-- Settles O50: the listed cells of a program read back as its words. -/
theorem loadedProgramInResetState : Obligations.LoadedProgramInResetState := fun _ ws =>
  ⟨Memory.read_ofWords ws, rfl, Memory.ofWords_wf ws, rfl⟩

/-! ### Tokens (60_exceptions R120) -/

/-- The tokens before the first bad one are words. -/
theorem parseTokens_of_bad {bits : Nat} {pre post : List (List Char)} {t : List Char}
    (hpre : ∀ u ∈ pre, parseWord bits (trim u) ≠ none) (ht : parseWord bits (trim t) = none)
    (k : Nat) : parseTokens bits k (pre ++ t :: post) = .error (.badToken (k + pre.length) (trim t)) := by
  induction pre generalizing k with
  | nil => simp [parseTokens, ht]
  | cons u pre ih =>
    obtain ⟨w, hw⟩ := Option.ne_none_iff_exists'.1 (hpre u (by simp))
    have := ih (fun v hv => hpre v (by simp [hv])) (k + 1)
    simp [parseTokens, hw, this, Nat.add_assoc, Nat.add_comm 1]

theorem parseTokens_of_words {bits : Nat} {ts : List (List Char)} {ws : List Int}
    (h : ts.map (fun t => parseWord bits (trim t)) = ws.map some) (k : Nat) :
    parseTokens bits k ts = .ok ws := by
  induction ts generalizing ws k with
  | nil => cases ws <;> simp_all [parseTokens]
  | cons t ts ih =>
    cases ws with
    | nil => simp at h
    | cons w ws =>
      obtain ⟨hw, h⟩ := List.cons_eq_cons.1 h
      simp [parseTokens, hw, ih h]

/-- Settles O52: the tokens are parsed in order, up to the first bad one. -/
theorem loadReportsFirstBadToken : Obligations.LoadReportsFirstBadToken := by
  intro cfg text
  refine ⟨fun pre t post hs hpre ht => ?_, fun ws h => ?_, rfl⟩
  · rw [load, hs, parseTokens_of_bad hpre ht, Nat.zero_add]
  · rw [load, parseTokens_of_words h]

/-! ### Numbers in base 10 -/

theorem isDecimal_digitChar {d : Nat} (h : d < 10) : isDecimal (digitChar d) = true := by
  interval_cases d <;> decide

theorem digitVal_digitChar {d : Nat} (h : d < 10) : digitVal (digitChar d) = d := by
  interval_cases d <;> decide

theorem decimalVal_append_digit (cs : List Char) (c : Char) :
    decimalVal (cs ++ [c]) = 10 * decimalVal cs + digitVal c := by
  simp [decimalVal]

theorem showNatFuel_spec {fuel n : Nat} (h : n < fuel) : showNatFuel fuel n ≠ [] ∧
    (∀ c ∈ showNatFuel fuel n, isDecimal c = true) ∧ decimalVal (showNatFuel fuel n) = n := by
  induction fuel generalizing n with
  | zero => omega
  | succ fuel ih =>
    unfold showNatFuel
    split_ifs with hn
    · simp [isDecimal_digitChar hn, digitVal_digitChar hn, decimalVal]
    · obtain ⟨-, hd, hv⟩ := ih (n := n / 10) (by omega)
      have hm : n % 10 < 10 := Nat.mod_lt n (by decide)
      refine ⟨by simp, fun c hc => ?_, ?_⟩
      · rcases List.mem_append.1 hc with hc | hc
        · exact hd c hc
        · rw [List.mem_singleton.1 hc]
          exact isDecimal_digitChar hm
      · rw [decimalVal_append_digit, hv, digitVal_digitChar hm]
        omega

theorem isDecimal_of_mem_showNat {n : Nat} {c : Char} (h : c ∈ showNat n) : isDecimal c = true :=
  (showNatFuel_spec n.lt_succ_self).2.1 c h

theorem parseDigits_showNat (n : Nat) : parseDigits (showNat n) = some n := by
  obtain ⟨hne, hd, hv⟩ := showNatFuel_spec n.lt_succ_self
  rw [parseDigits, if_pos ⟨hne, List.all_eq_true.2 hd⟩]
  exact congrArg some hv

/-- A text that begins with no sign is parsed as digits. -/
theorem parseInt_of_isDecimal {cs : List Char} (h : ∀ c ∈ cs, isDecimal c = true) :
    parseInt cs = (parseDigits cs).map fun n => (n : Int) := by
  unfold parseInt
  split
  · exact absurd (h '-' (by simp)) (by decide)
  · exact absurd (h '+' (by simp)) (by decide)
  · rfl

theorem parseInt_showInt (v : Int) : parseInt (showInt v) = some v := by
  unfold showInt
  split_ifs with h
  · simp only [parseInt, parseDigits_showNat]
    show some (-((-v).toNat : Int)) = some v
    exact congrArg some (by omega)
  · rw [parseInt_of_isDecimal fun c => isDecimal_of_mem_showNat, parseDigits_showNat]
    show some (v.toNat : Int) = some v
    exact congrArg some (by omega)

/-! ### The characters of a serialized text -/

/-- The characters of a number: digits and the minus sign. -/
def IsNumeral (c : Char) : Prop := isDecimal c = true ∨ c = '-'

theorem isNumeral_of_mem_showInt {v : Int} {c : Char} (h : c ∈ showInt v) : IsNumeral c := by
  unfold showInt at h
  split_ifs at h
  · rcases List.mem_cons.1 h with h | h
    · exact .inr h
    · exact .inl (isDecimal_of_mem_showNat h)
  · exact .inl (isDecimal_of_mem_showNat h)

theorem IsNumeral.ne_comma {c : Char} (h : IsNumeral c) : c ≠ ',' := by
  rintro rfl
  revert h
  unfold IsNumeral
  decide

theorem IsNumeral.not_isBlank {c : Char} (h : IsNumeral c) : isBlank c = false := by
  by_contra hb
  simp only [isBlank, Bool.not_eq_false, Bool.or_eq_true, beq_iff_eq] at hb
  rcases hb with ((rfl | rfl) | rfl) | rfl <;> revert h <;> unfold IsNumeral <;> decide

/-- A text without white space is trimmed to itself. -/
theorem trim_of_not_isBlank {cs : List Char} (h : ∀ c ∈ cs, isBlank c = false) : trim cs = cs := by
  have keep (ds : List Char) (hd : ∀ c ∈ ds, isBlank c = false) : ds.dropWhile isBlank = ds := by
    cases ds with
    | nil => rfl
    | cons d ds => simp [hd d]
  rw [trim, keep cs h, keep cs.reverse fun c hc => h c (List.mem_reverse.1 hc), List.reverse_reverse]

theorem trim_showInt (v : Int) : trim (showInt v) = showInt v :=
  trim_of_not_isBlank fun _ hc => (isNumeral_of_mem_showInt hc).not_isBlank

theorem parseWord_showInt {bits : Nat} {v : Int} (h : IsWord bits v) :
    parseWord bits (trim (showInt v)) = some v := by
  rw [trim_showInt, parseWord, parseInt_showInt, Option.bind_some, if_pos h]

/-! ### Joining and splitting at commas -/

theorem mem_joinComma {ts : List (List Char)} {c : Char} (h : c ∈ joinComma ts) :
    c = ',' ∨ ∃ t ∈ ts, c ∈ t := by
  induction ts with
  | nil => simp [joinComma] at h
  | cons t ts ih =>
    cases ts with
    | nil => exact .inr ⟨t, by simp, h⟩
    | cons u ts =>
      rcases List.mem_append.1 h with h | h
      · exact .inr ⟨t, by simp, h⟩
      · rcases List.mem_cons.1 h with h | h
        · exact .inl h
        · exact (ih h).imp_right fun ⟨x, hx, hc⟩ => ⟨x, by simp [hx], hc⟩

theorem splitComma_of_no_comma {t : List Char} (h : ∀ c ∈ t, c ≠ ',') : splitComma t = [t] := by
  induction t with
  | nil => rfl
  | cons c t ih => simp [splitComma, h c (by simp), ih fun d hd => h d (by simp [hd])]

theorem splitComma_append_comma {t : List Char} (h : ∀ c ∈ t, c ≠ ',') (rest : List Char) :
    splitComma (t ++ ',' :: rest) = t :: splitComma rest := by
  induction t with
  | nil => simp [splitComma]
  | cons c t ih => simp [splitComma, h c (by simp), ih fun d hd => h d (by simp [hd])]

theorem splitComma_joinComma {ts : List (List Char)} (hne : ts ≠ [])
    (h : ∀ t ∈ ts, ∀ c ∈ t, c ≠ ',') : splitComma (joinComma ts) = ts := by
  induction ts with
  | nil => exact absurd rfl hne
  | cons t ts ih =>
    have ht := h t (by simp)
    cases ts with
    | nil => exact splitComma_of_no_comma ht
    | cons u ts =>
      rw [joinComma, splitComma_append_comma ht, ih (by simp) fun x hx => h x (by simp [hx])]
      simp

/-- The tokens of a serialized text are the numerals of its words. -/
theorem splitComma_trim_serialize {s : State} (h : 0 < s.mem.ext) :
    splitComma (trim (serialize s)) = s.mem.words.map showInt := by
  have htrim : trim (serialize s) = serialize s := by
    refine trim_of_not_isBlank fun c hc => ?_
    rcases mem_joinComma hc with rfl | ⟨t, ht, hc⟩
    · rfl
    · obtain ⟨v, -, rfl⟩ := List.mem_map.1 ht
      exact (isNumeral_of_mem_showInt hc).not_isBlank
  rw [htrim]
  refine splitComma_joinComma ?_ fun t ht c hc => ?_
  · simp only [Memory.words, ne_eq, List.map_eq_nil_iff, List.range_eq_nil]
    omega
  · obtain ⟨v, -, rfl⟩ := List.mem_map.1 ht
    exact (isNumeral_of_mem_showInt hc).ne_comma

/-- Settles O51: the tokens of the text are the numerals of the memory's words, each is read back, and
the canonical memory of those words is the one they came from. -/
theorem serializeThenLoad : Obligations.SerializeThenLoad := by
  intro s hm hext hwords
  have hparse : (s.mem.words.map showInt).map (fun t => parseWord s.cfg.wordBits (trim t)) =
      s.mem.words.map some := by
    rw [List.map_map]
    refine List.map_congr_left fun v hv => ?_
    obtain ⟨a, -, rfl⟩ := List.mem_map.1 hv
    exact parseWord_showInt (hwords a)
  rw [load, splitComma_trim_serialize hext, parseTokens_of_words hparse]
  show Except.ok (State.loaded s.cfg s.mem.words) = _
  rw [State.loaded, Memory.ofWords_words hm]

end Sys2Proof.Machine


/-! PROOFS of the family `other`: what a completed instruction leaves, and the invariant. -/

namespace Sys2Proof.Machine

variable {s t : State} {i : Instr}

/-! ### What a completed instruction leaves, said once for all ten -/

/-- The states in which `i`, begun in `s`, completes (40_arith_compare to 42_control). -/
inductive Completes (s : State) : Instr → State → Prop
  | store {i : Instr} {d : Param} {addr : Nat} {r : Int} : i.opcode ∈ [1, 2, 7, 8] → d ∈ i.params →
      Targets s d addr → IsWord s.cfg.wordBits r ∨ r = 0 ∨ r = 1 → IsWord s.cfg.wordBits (s.pc + 4) →
      Completes s i ((s.setMem (s.mem.write addr r)).setPc (s.pc + 4))
  | jump {i : Instr} {v : Int} : i.opcode ∈ [5, 6] →
      IsWord s.cfg.wordBits v ∨ (∃ p ∈ i.params, Reads s p v) → Completes s i (s.setPc v)
  | base {a : Param} {v : Int} : Reads s a v → IsWord s.cfg.wordBits (s.rb + v) →
      IsWord s.cfg.wordBits (s.pc + 2) →
      Completes s (.adjrel a) ((s.setRb (s.rb + v)).setPc (s.pc + 2))
  | halt : IsWord s.cfg.wordBits (s.pc + 1) →
      Completes s .halt ((s.halt .opcode99).setPc (s.pc + 1))
  | receive {d : Param} {addr : Nat} {v : Int} : Targets s d addr → nextInput s = .value v →
      IsWord s.cfg.wordBits (s.pc + 2) → Completes s (.input d)
        (((popInput (s.setMem (s.mem.write addr v))).setIdle 0).setPc (s.pc + 2))
  | poll {d : Param} {addr : Nat} : Targets s d addr → nextInput s = .sentinel →
      IsWord s.cfg.wordBits (s.pc + 2) → Completes s (.input d)
        (((s.setMem (s.mem.write addr (-1))).setIdle (s.idle + 1)).setPc (s.pc + 2))
  | hold {d : Param} : nextInput s = .hold → Completes s (.input d) s
  | gone {d : Param} : nextInput s = .gone → Completes s (.input d) (s.halt .producerGone)
  | record {a : Param} {v : Int} : Reads s a v → IsWord s.cfg.wordBits (s.pc + 2) →
      Completes s (.output a) ((s.setLastOut v).setPc (s.pc + 2))
  | push {a : Param} {v : Int} {c : Nat} : Reads s a v → IsWord s.cfg.wordBits (s.pc + 2) →
      s.outEp = .channel c →
      Completes s (.output a) ((s.setChan c ((s.chan c).push v)).setPc (s.pc + 2))
  | fail {a : Param} {c : Nat} : IsWord s.cfg.wordBits (s.pc + 2) → s.outEp = .channel c →
      (s.chan c).receiverAlive = false →
      Completes s (.output a) ((s.halt .sendFailed).setPc (s.pc + 2))

/-- The word a comparison stores. -/
theorem boolWord_eq (b : Bool) : boolWord b = 0 ∨ boolWord b = 1 := by
  cases b
  · exact .inl rfl
  · exact .inr rfl

theorem binary_completes {op : State → Int → Int → Except FaultCause Int} {a b d : Param}
    (h : binary op a b d s = .ok t) (hi : i.opcode ∈ [1, 2, 7, 8]) (hd : d ∈ i.params)
    (hop : ∀ x y r, op s x y = .ok r → IsWord s.cfg.wordBits r ∨ r = 0 ∨ r = 1) :
    Completes s i t := by
  obtain ⟨x, y, r, addr, -, -, ht, hr, -, hw, rfl⟩ := binary_eq_ok h
  exact .store hi hd ht (hop x y r hr) hw

theorem jump_completes {taken : Int → Bool} {a b : Param} (h : jump taken a b s = .ok t)
    (hi : i.opcode ∈ [5, 6]) (hb : b ∈ i.params) : Completes s i t := by
  obtain ⟨x, y, -, hy, hw, rfl⟩ := jump_eq_ok h
  refine .jump hi ?_
  split_ifs
  · exact .inr ⟨b, hb, hy⟩
  · exact .inl hw

theorem isWord_of_chk {x r : Int} (h : chk s x = .ok r) : IsWord s.cfg.wordBits r := by
  obtain ⟨hw, rfl⟩ := chk_eq_ok.1 h
  exact hw

theorem effect_completes (h : effect i s = .ok t) : Completes s i t := by
  cases i with
  | add | mul =>
    refine binary_completes h (by simp [Instr.opcode]) (by simp [Instr.params]) fun _ _ _ hr => .inl ?_
    exact isWord_of_chk hr
  | lt | eq =>
    refine binary_completes h (by simp [Instr.opcode]) (by simp [Instr.params]) fun _ _ _ hr => .inr ?_
    exact Except.ok.inj hr ▸ boolWord_eq _
  | jnz | jz => exact jump_completes h (by simp [Instr.opcode]) (by simp [Instr.params])
  | input d =>
    obtain ⟨addr, ht, hw, h⟩ := input_eq_ok h
    cases hn : nextInput s <;> rw [hn] at h
    case value => exact h.2 ▸ .receive ht hn hw
    case sentinel => exact h.2 ▸ .poll ht hn hw
    case hold =>
      obtain rfl : t = s := h
      exact .hold hn
    case gone =>
      obtain rfl : t = s.halt .producerGone := h
      exact .gone hn
    case notWired => exact h.elim
  | output a =>
    obtain ⟨v, hv, hw, rfl⟩ := output_eq_ok h
    rcases send_cases v (s.pc + 2) s with ⟨-, e⟩ | ⟨c, hc, -, e⟩ | ⟨c, hc, hr, e⟩ <;> rw [e]
    · exact .record hv hw
    · exact .push hv hw hc
    · exact .fail hw hc hr
  | adjrel a =>
    obtain ⟨v, hv, hw, hr, rfl⟩ := adjrel_eq_ok h
    exact .base hv hr hw
  | halt =>
    obtain ⟨hw, rfl⟩ := halt_eq_ok h
    exact .halt hw

/-! ### Words that every width has -/

theorem wmax_nonneg (bits : Nat) : 0 ≤ wmax bits := by
  have : 0 < 2 ^ (bits - 1) := Nat.two_pow_pos _
  unfold wmax
  omega

theorem isWord_zero (bits : Nat) : IsWord bits 0 := isWord_of_nonneg le_rfl (wmax_nonneg bits)

theorem isWord_neg_one (bits : Nat) : IsWord bits (-1) :=
  ⟨by have := wmin_neg bits; omega, by have := wmax_nonneg bits; omega⟩

theorem Config.isWord_one {c : Config} (h : c.legal) : IsWord c.wordBits 1 := by
  refine isWord_of_nonneg (by decide) ?_
  have hbits : 1 ≤ c.wordBits - 1 := Nat.le_sub_of_add_le h
  have : 2 ^ 1 ≤ 2 ^ (c.wordBits - 1) := Nat.pow_le_pow_right (by decide) hbits
  unfold wmax
  omega

/-! ### The invariant under each update -/

theorem State.Inv.setPc (h : s.Inv) {v : Int} (hv : IsWord s.cfg.wordBits v) : (s.setPc v).Inv :=
  { h with pc_word := hv }

theorem State.Inv.setRb (h : s.Inv) {v : Int} (hv : IsWord s.cfg.wordBits v) : (s.setRb v).Inv :=
  { h with rb_word := hv }

theorem State.Inv.setIdle (h : s.Inv) (n : Nat) : (s.setIdle n).Inv := { h with }

theorem State.Inv.setLastOut (h : s.Inv) {v : Int} (hv : IsWord s.cfg.wordBits v) :
    (s.setLastOut v).Inv :=
  { h with lastOut_word := fun _ e => Option.some.inj e ▸ hv }

theorem State.Inv.setSeed (h : s.Inv) {vs : List Int} (hv : ∀ v ∈ vs, IsWord s.cfg.wordBits v) :
    (s.setSeed vs).Inv :=
  { h with seed_words := hv }

theorem State.Inv.setChan (h : s.Inv) (c : Nat) {ch : Channel}
    (hv : ∀ v ∈ ch.q, IsWord s.cfg.wordBits v) : (s.setChan c ch).Inv := by
  refine { h with chans_words := fun d v hd => ?_ }
  rw [State.chan_setChan] at hd
  split_ifs at hd
  · exact hv v hd
  · exact h.chans_words d v hd

theorem State.Inv.store (h : s.Inv) {addr : Nat} {v : Int} (ha : (addr : Int) ≤ wmax s.cfg.wordBits)
    (hv : IsWord s.cfg.wordBits v) : (s.setMem (s.mem.write addr v)).Inv := by
  refine { h with
    mem_wf := Memory.write_wf h.mem_wf addr v, mem_ext := ?_, mem_words := fun a => ?_ }
  · have := h.mem_ext
    simp only [State.setMem_mem, State.setMem_cfg, Memory.write_ext]
    omega
  · simp only [State.setMem_mem, State.setMem_cfg, Memory.read_write h.mem_wf]
    split_ifs
    · exact hv
    · exact h.mem_words a

/-- A running machine has neither halted nor faulted, so the one field may be set. -/
theorem State.Inv.halt (h : s.Inv) (hs : s.status = .running) (c : HaltCause) : (s.halt c).Inv := by
  have hfault : s.fault = none := by
    have := h.faulted_iff
    simpa [hs] using this
  exact { h with
    halted_iff := by simp
    faulted_iff := by simp [hfault] }

theorem State.Inv.takeFault (h : s.Inv) (hs : s.status = .running) (c : FaultCause) :
    (takeFault c s).Inv := by
  have hcause : s.haltCause = none := by
    have := h.halted_iff
    simpa [hs] using this
  refine { h with
    halted_iff := by simp [hcause], faulted_iff := by simp, fault_words := ?_ }
  rintro r ⟨⟩
  refine ⟨h.pc_word, fun w hw => ?_⟩
  unfold faultWord at hw
  split_ifs at hw
  exact Option.some.inj hw ▸ h.mem_words _

/-! ### Operands of a machine that meets the invariant -/

theorem State.Inv.reads_isWord (h : s.Inv) {p : Param} {v : Int} (hr : Reads s p v)
    (hp : IsWord s.cfg.wordBits p.raw) : IsWord s.cfg.wordBits v := by
  cases hr with
  | position _ hv => exact hv ▸ h.mem_words _
  | immediate hv => exact hv ▸ hp
  | relative _ _ hv => exact hv ▸ h.mem_words _

/-- A dest address is a word (20_memory R45). -/
theorem Targets.le_wmax {p : Param} {addr : Nat} (h : Targets s p addr)
    (hp : IsWord s.cfg.wordBits p.raw) : (addr : Int) ≤ wmax s.cfg.wordBits := by
  cases h with
  | position ha => exact ha ▸ hp.2
  | relative ha hw => exact ha ▸ hw

/-- The parameter words of a fetched instruction are words of memory. -/
theorem State.Inv.raw_isWord (h : s.Inv) (hf : fetchInstr s = .ok i) {p : Param} (hp : p ∈ i.params) :
    IsWord s.cfg.wordBits p.raw := by
  have hraw : p.raw ∈ i.params.map Param.raw := List.mem_map.2 ⟨p, hp, rfl⟩
  rw [parameterWordRule.1 s i hf] at hraw
  obtain ⟨k, -, hk⟩ := List.mem_map.1 hraw
  exact hk ▸ h.mem_words _

theorem State.Inv.nextInput_isWord (h : s.Inv) {v : Int} (hv : nextInput s = .value v) :
    IsWord s.cfg.wordBits v := by
  rcases nextInput_eq_value.1 hv with ⟨vs, hs⟩ | ⟨-, c, vs, -, hq⟩
  · exact h.seed_words v (by simp [hs])
  · exact h.chans_words c v (by simp [hq])

theorem State.Inv.popInput (h : s.Inv) : (popInput s).Inv := by
  rcases popInput_cases s with ⟨v, vs, hs, e⟩ | ⟨-, c, -, e⟩ | ⟨-, -, e⟩ <;> rw [e]
  · exact h.setSeed fun w hw => h.seed_words w (by simp [hs, hw])
  · exact h.setChan c fun w hw => h.chans_words c w (List.mem_of_mem_tail hw)
  · exact h

theorem State.Inv.push (h : s.Inv) (c : Nat) {v : Int} (hv : IsWord s.cfg.wordBits v) :
    (s.setChan c ((s.chan c).push v)).Inv := by
  refine h.setChan c fun w hw => ?_
  rcases List.mem_append.1 hw with hw | hw
  · exact h.chans_words c w hw
  · exact List.mem_singleton.1 hw ▸ hv

/-- A completed instruction keeps the invariant, if its parameter words are words. -/
theorem State.Inv.completes (h : s.Inv) (hs : s.status = .running)
    (hp : ∀ p ∈ i.params, IsWord s.cfg.wordBits p.raw) (hc : Completes s i t) : t.Inv := by
  cases hc with
  | store _ hd ht hr hw =>
    refine (h.store (ht.le_wmax (hp _ hd)) ?_).setPc hw
    rcases hr with hr | rfl | rfl
    exacts [hr, isWord_zero _, Config.isWord_one h.cfg_legal]
  | jump _ hv =>
    rcases hv with hv | ⟨p, hm, hv⟩
    · exact h.setPc hv
    · exact h.setPc (h.reads_isWord hv (hp p hm))
  | base _ hr hw => exact (h.setRb hr).setPc hw
  | halt hw => exact (h.halt hs _).setPc hw
  | @receive d _ _ ht hv hw =>
    have hd : IsWord s.cfg.wordBits d.raw := hp d (by simp [Instr.params])
    have hstore := h.store (ht.le_wmax hd) (h.nextInput_isWord hv)
    exact (hstore.popInput.setIdle 0).setPc (by simpa using hw)
  | @poll d _ ht _ hw =>
    have hd : IsWord s.cfg.wordBits d.raw := hp d (by simp [Instr.params])
    exact ((h.store (ht.le_wmax hd) (isWord_neg_one _)).setIdle _).setPc hw
  | hold => exact h
  | gone => exact h.halt hs _
  | @record a _ hv hw =>
    exact (h.setLastOut (h.reads_isWord hv (hp a (by simp [Instr.params])))).setPc hw
  | @push a _ _ hv hw _ =>
    exact (h.push _ (h.reads_isWord hv (hp a (by simp [Instr.params])))).setPc hw
  | fail hw _ _ => exact (h.halt hs _).setPc hw

/-- Settles O13: a completed instruction keeps the invariant by the update it makes, and a fault is
taken from a running machine. -/
theorem stepKeepsInvariant : Obligations.StepKeepsInvariant := by
  intro s t h hst
  rcases step_eq_next.1 hst with ⟨-, rfl⟩ | ⟨hs, i, hf, he⟩ | ⟨hs, c, rfl, -⟩
  · exact h
  · exact h.completes hs (fun p hp => h.raw_isWord hf hp) (effect_completes he)
  · exact h.takeFault hs c

/-- Settles O15: a loaded memory reads back the program's words and 0 beyond. -/
theorem loadedMachineMeetsInvariant : Obligations.LoadedMachineMeetsInvariant := by
  intro cfg ws hcfg hws hlen
  refine
    { cfg_legal := hcfg, mem_wf := Memory.ofWords_wf ws, mem_ext := hlen, mem_words := fun a => ?_
      pc_word := isWord_zero _, rb_word := isWord_zero _
      seed_words := by simp [State.loaded, State.reset]
      chans_words := by simp [State.loaded, State.reset, State.chan, getChan, Channel.new]
      lastOut_word := by simp [State.loaded, State.reset]
      halted_iff := by simp [State.loaded, State.reset]
      faulted_iff := by simp [State.loaded, State.reset]
      fault_words := by simp [State.loaded, State.reset] }
  show IsWord cfg.wordBits ((Memory.ofWords ws).read a)
  rw [Memory.read_ofWords]
  by_cases ha : a < ws.length
  · simpa [ha] using hws ws[a] (List.getElem_mem ha)
  · simpa [ha] using isWord_zero cfg.wordBits

/-- Settles O14: the reset state is the machine loaded with no words. -/
theorem resetMeetsInvariant : Obligations.ResetMeetsInvariant :=
  loadedMachineMeetsInvariant Config.default [] (by decide) (by simp) (by decide)

end Sys2Proof.Machine


/-! PROOFS of the family `other`: two machines in step. -/

namespace Sys2Proof.Machine

variable {s s' t : State} {i : Instr} {R : State → State → Prop}

/-! ### Two results in step -/

/-- Both results are the same fault, or both are states and the relation holds of them. -/
inductive Tied (R : State → State → Prop) :
    Except FaultCause State → Except FaultCause State → Prop
  | ok {t t' : State} : R t t' → Tied R (.ok t) (.ok t')
  | error (c : FaultCause) : Tied R (.error c) (.error c)

theorem Tied.bind {α : Type} (x : Except FaultCause α) {f g : α → Except FaultCause State}
    (h : ∀ a, Tied R (f a) (g a)) : Tied R (x >>= f) (x >>= g) := by
  cases x with
  | ok a => exact h a
  | error c => exact .error c

/-- The second state is the image of the first. -/
def IsImage (f : State → State) (s s' : State) : Prop := s' = f s

theorem Tied.of_ok {r : Except FaultCause State} (h : Tied R (.ok t) r) :
    ∃ t', r = .ok t' ∧ R t t' := by
  cases h with
  | ok hR => exact ⟨_, rfl, hR⟩

theorem Tied.of_error {c : FaultCause} {r : Except FaultCause State} (h : Tied R (.error c) r) :
    r = .error c := by
  cases h with
  | error => rfl

/-- Instructions whose effects are tied go to related states, as soon as a fault does. -/
theorem Tied.exec (h : Tied R (effect i s) (effect i s'))
    (hfault : ∀ c, R (takeFault c s) (takeFault c s')) (hs : exec i s = .next t) :
    ∃ t', exec i s' = .next t' ∧ R t t' := by
  rcases exec_eq_next.1 hs with he | ⟨c, he, rfl⟩ <;> rw [he] at h
  · obtain ⟨t', ht', hR⟩ := h.of_ok
    exact ⟨t', exec_eq_next.2 (.inl ht'), hR⟩
  · exact ⟨_, exec_eq_next.2 (.inr ⟨c, h.of_error, rfl⟩), hfault c⟩

/-! ### States that resolve parameters alike -/

/-- What resolving parameters and `next` looks at is the same in both states; `rb` matters to
relative parameters only (30_encoding R65 to R67). -/
structure ResolveAlike (i : Instr) (s s' : State) : Prop where
  read : ∀ a, s.mem.read a = s'.mem.read a
  pc : s.pc = s'.pc
  cfg : s.cfg = s'.cfg
  rb : readsRb i = true → s.rb = s'.rb

theorem readsRb_of_relative {p : Param} (hp : p ∈ i.params) (hm : p.mode = .relative) :
    readsRb i = true := by
  unfold readsRb
  rw [List.any_eq_true.2 ⟨p, hp, by simpa using hm⟩, Bool.true_or]

theorem chk_congr (h : s.cfg = s'.cfg) (v : Int) : chk s v = chk s' v := by
  rw [chk, chk, h]

namespace ResolveAlike

variable (h : ResolveAlike i s s')
include h

theorem memRead_eq (a : Int) : memRead s a = memRead s' a := by
  rw [memRead, memRead, h.read]

theorem paramWordAt_eq (k : Nat) : paramWordAt s k = paramWordAt s' k := by
  rw [paramWordAt, paramWordAt, h.pc, chk_congr h.cfg, funext h.memRead_eq]

theorem nextPc_eq (w : Nat) : nextPc s w = nextPc s' w := by
  rw [nextPc, nextPc, h.pc, chk_congr h.cfg]

theorem readParam_eq (k : Nat) {p : Param} (hp : p ∈ i.params) :
    readParam s k p = readParam s' k p := by
  rw [readParam, readParam, h.paramWordAt_eq]
  cases hm : p.mode with
  | relative =>
    simp only [h.rb (readsRb_of_relative hp hm), chk_congr h.cfg, h.memRead_eq]
  | position => simp only [h.memRead_eq]
  | immediate | reserved => rfl

theorem destParam_eq (k : Nat) {p : Param} (hp : p ∈ i.params) :
    destParam s k p = destParam s' k p := by
  rw [destParam, destParam, h.paramWordAt_eq]
  cases hm : p.mode with
  | relative => simp only [h.rb (readsRb_of_relative hp hm), chk_congr h.cfg]
  | position | immediate | reserved => rfl

theorem memWrite_tied {f g : State → Except FaultCause State} {a v : Int}
    (hw : ∀ addr : Nat,
      Tied R (f (s.setMem (s.mem.write addr v))) (g (s'.setMem (s'.mem.write addr v)))) :
    Tied R (memWrite s a v >>= f) (memWrite s' a v >>= g) := by
  unfold memWrite
  rw [← h.cfg]
  split_ifs
  · exact .error _
  · exact .error _
  · exact hw a.toNat

end ResolveAlike

/-! ### Effects in step -/

/-- States that resolve alike and that every update `i` can make takes to related states. -/
structure Lockstep (R : State → State → Prop) (i : Instr) (s s' : State) : Prop
    extends ResolveAlike i s s' where
  store : ∀ (addr : Nat) (r n : Int),
    R ((s.setMem (s.mem.write addr r)).setPc n) ((s'.setMem (s'.mem.write addr r)).setPc n)
  jump : ∀ n, R (s.setPc n) (s'.setPc n)
  base : ∀ a, i = .adjrel a → ∀ r n, R ((s.setRb r).setPc n) ((s'.setRb r).setPc n)
  halt : ∀ n, R ((s.halt .opcode99).setPc n) ((s'.halt .opcode99).setPc n)
  receive : ∀ d, i = .input d → ∀ addr n, Tied R (receive addr n s) (receive addr n s')
  send : ∀ a, i = .output a → ∀ v n, R (send v n s) (send v n s')

theorem Lockstep.binary_tied {op : State → Int → Int → Except FaultCause Int} {a b d : Param}
    (h : Lockstep R i s s') (hi : i.params = [a, b, d]) (hop : ∀ x y, op s x y = op s' x y) :
    Tied R (binary op a b d s) (binary op a b d s') := by
  unfold Machine.binary
  rw [h.readParam_eq 1 (p := a) (by simp [hi]), h.readParam_eq 2 (p := b) (by simp [hi]),
    h.destParam_eq 3 (p := d) (by simp [hi]), h.nextPc_eq]
  refine .bind _ fun x => .bind _ fun y => .bind _ fun addr => .bind _ fun n => ?_
  rw [hop]
  exact .bind _ fun r => h.memWrite_tied fun k => .ok (h.store k r n)

theorem Lockstep.jump_tied {taken : Int → Bool} {a b : Param} (h : Lockstep R i s s')
    (hi : i.params = [a, b]) : Tied R (Machine.jump taken a b s) (Machine.jump taken a b s') := by
  unfold Machine.jump
  rw [h.readParam_eq 1 (p := a) (by simp [hi]), h.readParam_eq 2 (p := b) (by simp [hi]), h.nextPc_eq]
  exact .bind _ fun x => .bind _ fun y => .bind _ fun n => .ok (h.jump _)

theorem Lockstep.effect_tied (h : Lockstep R i s s') : Tied R (effect i s) (effect i s') := by
  cases i with
  | add a b d => exact h.binary_tied rfl fun x y => chk_congr h.cfg _
  | mul a b d => exact h.binary_tied rfl fun x y => chk_congr h.cfg _
  | lt a b d => exact h.binary_tied rfl fun x y => rfl
  | eq a b d => exact h.binary_tied rfl fun x y => rfl
  | jnz a b => exact h.jump_tied rfl
  | jz a b => exact h.jump_tied rfl
  | input d =>
    simp only [Machine.effect, h.destParam_eq 1 (p := d) (by simp [Instr.params]), h.nextPc_eq]
    exact .bind _ fun addr => .bind _ fun n => h.receive d rfl addr n
  | output a =>
    simp only [Machine.effect, h.readParam_eq 1 (p := a) (by simp [Instr.params]), h.nextPc_eq]
    exact .bind _ fun v => .bind _ fun n => .ok (h.send a rfl v n)
  | adjrel a =>
    have hrb : s.rb = s'.rb := h.rb (by simp [readsRb])
    simp only [Machine.effect, h.readParam_eq 1 (p := a) (by simp [Instr.params]), h.nextPc_eq, hrb,
      chk_congr h.cfg]
    exact .bind _ fun v => .bind _ fun n => .bind _ fun r => .ok (h.base a rfl r n)
  | halt =>
    simp only [Machine.effect, h.nextPc_eq]
    exact .bind _ fun n => .ok (h.halt n)

/-- A receive in two states that see the same input. -/
theorem receive_tied (h : ResolveAlike i s s') (hn : nextInput s = nextInput s')
    (hidle : s.idle = s'.idle)
    (hstore : ∀ (addr : Nat) (v : Int),
      R (s.setMem (s.mem.write addr v)) (s'.setMem (s'.mem.write addr v)))
    (hpop : ∀ u u', R u u' → R (popInput u) (popInput u'))
    (hset : ∀ u u' k n, R u u' → R ((u.setIdle k).setPc n) ((u'.setIdle k).setPc n))
    (hsame : R s s') (hgone : R (s.halt .producerGone) (s'.halt .producerGone)) (addr n : Int) :
    Tied R (receive addr n s) (receive addr n s') := by
  unfold receive
  rw [← hn, ← hidle]
  cases nextInput s with
  | value v => exact h.memWrite_tied fun k => .ok (hset _ _ 0 n (hpop _ _ (hstore k v)))
  | sentinel => exact h.memWrite_tied fun k => .ok (hset _ _ _ n (hstore k (-1)))
  | hold => exact .ok hsame
  | gone => exact .ok hgone
  | notWired => exact .error _

/-! ### Updates that the port does not see -/

/-- An update of a field that the port neither reads nor writes. -/
structure PortBlind (f : State → State) : Prop where
  seed : ∀ u, (f u).seed = u.seed
  inEp : ∀ u, (f u).inEp = u.inEp
  outEp : ∀ u, (f u).outEp = u.outEp
  chans : ∀ u, (f u).chans = u.chans
  setSeed : ∀ u vs, (f u).setSeed vs = f (u.setSeed vs)
  setChans : ∀ u cs, (f u).setChans cs = f (u.setChans cs)
  setLastOut : ∀ u v, (f u).setLastOut v = f (u.setLastOut v)
  setPc : ∀ u n, (f u).setPc n = f (u.setPc n)
  halt : ∀ u c, (f u).halt c = f (u.halt c)

theorem portBlind_setMem (m : Memory) : PortBlind (State.setMem · m) := by
  constructor <;> intros <;> rfl

theorem portBlind_setRb (r : Int) : PortBlind (State.setRb · r) := by
  constructor <;> intros <;> rfl

namespace PortBlind

variable {f : State → State} (h : PortBlind f)
include h

theorem setChan (c : Nat) (ch : Channel) : (f s).setChan c ch = f (s.setChan c ch) := by
  rw [State.setChan, h.chans, h.setChans, State.setChan]

theorem chan (c : Nat) : (f s).chan c = s.chan c := by
  rw [State.chan, h.chans, State.chan]

theorem popInput (s : State) : popInput (f s) = f (popInput s) := by
  unfold Machine.popInput
  rw [h.seed, h.inEp]
  cases s.seed with
  | cons v vs => exact h.setSeed s vs
  | nil =>
    cases s.inEp with
    | absent => rfl
    | blocking c | polling c => exact (h.setChan c _).trans (by rw [h.chan])

theorem send (v n : Int) (s : State) : send v n (f s) = f (send v n s) := by
  unfold Machine.send emitOutput
  rw [h.outEp]
  cases s.outEp with
  | absent => exact (congrArg (State.setPc · n) (h.setLastOut s v)).trans (h.setPc _ n)
  | channel c =>
    by_cases hr : (s.chan c).receiverAlive = true
    · simp only [h.chan, h.setChan, if_pos hr, h.setPc]
    · simp only [h.chan, if_neg hr, h.halt, h.setPc]

end PortBlind

/-! ### Unwritten cells -/

/-- Two states that agree but for the memory's representation agree after the same update of another
field. -/
theorem SameButUnwritten.congr (h : SameButUnwritten s s') {f : State → State}
    (hmem : ∀ u, (f u).mem = u.mem) (hf : ∀ u m, f (u.setMem m) = (f u).setMem m) :
    SameButUnwritten (f s) (f s') := by
  obtain ⟨hread, hsame⟩ := h
  refine ⟨by simpa only [hmem] using hread, ?_⟩
  rw [hmem, ← hf, hsame]

theorem SameButUnwritten.store (h : SameButUnwritten s s') (hm : s.mem.wf) (hm' : s'.mem.wf)
    (addr : Nat) (v : Int) :
    SameButUnwritten (s.setMem (s.mem.write addr v)) (s'.setMem (s'.mem.write addr v)) := by
  obtain ⟨hread, hsame⟩ := h
  have hmem : (s'.setMem s.mem).setMem (s.mem.write addr v) = s.setMem (s.mem.write addr v) := by
    rw [hsame]
  refine ⟨fun a => ?_, hmem⟩
  simp only [State.setMem_mem, Memory.read_write hm, Memory.read_write hm', hread]

theorem SameButUnwritten.resolveAlike (h : SameButUnwritten s s') (i : Instr) : ResolveAlike i s s' := by
  obtain ⟨hread, hsame⟩ := h
  exact ⟨hread, (congrArg State.pc hsame).symm, (congrArg State.cfg hsame).symm,
    fun _ => (congrArg State.rb hsame).symm⟩

theorem SameButUnwritten.lockstep (h : SameButUnwritten s s') (hm : s.mem.wf) (hm' : s'.mem.wf)
    (i : Instr) : Lockstep SameButUnwritten i s s' where
  toResolveAlike := h.resolveAlike i
  store addr r n := (h.store hm hm' addr r).congr (f := (State.setPc · n)) (fun _ => rfl) fun _ _ => rfl
  jump n := h.congr (f := (State.setPc · n)) (fun _ => rfl) fun _ _ => rfl
  base _ _ r n := h.congr (f := fun u => (u.setRb r).setPc n) (fun _ => rfl) fun _ _ => rfl
  halt n := h.congr (f := fun u => (u.halt _).setPc n) (fun _ => rfl) fun _ _ => rfl
  receive _ _ := receive_tied (h.resolveAlike i) (congrArg nextInput h.2).symm
    (congrArg State.idle h.2).symm (h.store hm hm')
    (fun _ _ hu => hu.congr (f := popInput) popInput_mem fun u m => (portBlind_setMem m).popInput u)
    (fun _ _ k n hu => hu.congr (f := fun u => (u.setIdle k).setPc n) (fun _ => rfl) fun _ _ => rfl)
    h (h.congr (f := (State.halt · _)) (fun _ => rfl) fun _ _ => rfl)
  send _ _ v n := h.congr (f := send v n) (send_mem v n) fun u m => (portBlind_setMem m).send v n u

theorem takeFault_setMem (c : FaultCause) {m : Memory} (h : faultWord (s.setMem m) = faultWord s) :
    takeFault c (s.setMem m) = (takeFault c s).setMem m := by
  rw [takeFault, h]
  rfl

theorem SameButUnwritten.takeFault (h : SameButUnwritten s s') (c : FaultCause) :
    SameButUnwritten (takeFault c s) (takeFault c s') := by
  have hword : faultWord s = faultWord s' := by
    rw [faultWord, faultWord, (h.resolveAlike .halt).pc, h.1]
  refine ⟨h.1, ?_⟩
  rw [takeFault_mem, ← takeFault_setMem c (by rw [h.2, hword]), h.2]

theorem wordsAt_congr {m m' : Memory} (h : ∀ a, m.read a = m'.read a) (a : Nat) :
    wordsAt m a = wordsAt m' a := by
  simp only [wordsAt, h]

theorem SameButUnwritten.fetchInstr_eq (h : SameButUnwritten s s') : fetchInstr s = fetchInstr s' := by
  have hr := h.resolveAlike .halt
  rw [fetchInstr, fetchInstr, hr.pc, hr.cfg, wordsAt_congr hr.read]

/-- Settles O44: fetch, parameters and port see the same in both machines, and every update takes
them to two that read alike. -/
theorem unwrittenCellsReadAsZero : Obligations.UnwrittenCellsReadAsZero := by
  intro s s' t hm hm' h hst
  have hstatus : (s'.setMem s.mem).status = s.status := congrArg State.status h.2
  rw [State.setMem_status] at hstatus
  unfold step at hst ⊢
  rw [hstatus, ← h.fetchInstr_eq]
  cases hs : s.status <;> simp only [hs] at hst ⊢
  case running =>
    cases hf : fetchInstr s <;> simp only [hf] at hst ⊢
    case ok i => exact (h.lockstep hm hm' i).effect_tied.exec h.takeFault hst
    case error c =>
      cases hst
      exact ⟨_, rfl, h.takeFault c⟩
  case halted =>
    cases hst
    exact ⟨_, rfl, h⟩
  case faulted =>
    cases hst
    exact ⟨_, rfl, h⟩

/-! ### Instructions that do not read `rb` -/

theorem withRb_lockstep (s : State) (r : Int) (hi : readsRb i = false) :
    Lockstep (IsImage (State.setRb · r)) i s (s.setRb r) := by
  have hr : ResolveAlike i s (s.setRb r) :=
    ⟨fun _ => rfl, rfl, rfl, fun h => absurd (h.symm.trans hi) (by decide)⟩
  exact
    { hr with
      store := fun _ _ _ => rfl
      jump := fun _ => rfl
      base := fun a ha => by subst ha; simp [readsRb] at hi
      halt := fun _ => rfl
      receive := fun _ _ => receive_tied hr rfl rfl (fun _ _ => rfl)
        (fun u _ hu => (congrArg popInput hu).trans ((portBlind_setRb r).popInput u))
        (fun u u' k n (hu : u' = u.setRb r) => by rw [hu]; rfl) rfl rfl
      send := fun _ _ v n => (portBlind_setRb r).send v n s }

theorem exists_adjrel_of_opcode (h : i.opcode = 9) : ∃ a, i = .adjrel a := by
  cases i <;> simp_all [Instr.opcode]

/-- Settles O20: of the completed instructions only `adjrel` changes `rb`; an instruction that reads no
`rb` runs in step with itself under another. -/
theorem relativeBaseWritersAndReaders : Obligations.RelativeBaseWritersAndReaders := by
  refine ⟨fun s t hst hne => ?_, fun i s t r hi h => ?_⟩
  · rcases step_eq_next.1 hst with ⟨-, rfl⟩ | ⟨-, i, hf, he⟩ | ⟨-, c, rfl, -⟩
    · exact absurd rfl hne
    · obtain ⟨a, rfl⟩ := exists_adjrel_of_opcode (of_not_not fun hi => hne (effect_rb hi he))
      obtain ⟨v, hv, -, -, rfl⟩ := adjrel_eq_ok he
      exact ⟨a, v, hf, hv, rfl⟩
    · exact absurd rfl hne
  · obtain ⟨t', ht', rfl⟩ := (withRb_lockstep s r hi).effect_tied.exec (fun _ => rfl) h
    exact ht'

/-! ### Instructions that do not use the port -/

theorem withPortsOf_lockstep (p s : State) (hi : usesPort i = false) :
    Lockstep (IsImage (withPortsOf p)) i s (withPortsOf p s) where
  read _ := rfl
  pc := rfl
  cfg := rfl
  rb _ := rfl
  store _ _ _ := rfl
  jump _ := rfl
  base _ _ _ _ := rfl
  halt _ := rfl
  receive _ hd := by subst hd; cases hi
  send _ ha := by subst ha; cases hi

/-- A completed instruction that does not use the port leaves the I/O state. -/
theorem Completes.eq_withPortsOf (h : Completes s i t) (hi : usesPort i = false) :
    t = withPortsOf s t := by
  cases h with
  | store | jump | base | halt => rfl
  | receive | poll | hold | gone | record | push | fail => cases hi

/-- Settles O43: such an instruction runs in step with itself under another I/O state. -/
theorem otherInstructionsTouchNoPort : Obligations.OtherInstructionsTouchNoPort := by
  intro i s t p hi h
  refine ⟨?_, ?_⟩
  · rcases exec_eq_next.1 h with he | ⟨c, -, rfl⟩
    · exact (effect_completes he).eq_withPortsOf hi
    · rfl
  · obtain ⟨t', ht', rfl⟩ := (withPortsOf_lockstep p s hi).effect_tied.exec (fun _ => rfl) h
    exact ht'

end Sys2Proof.Machine


/-! PROOFS of the family `other`: the rules that hold of every tick. -/

namespace Sys2Proof.Machine

variable {s t : State} {i : Instr}

/-! ### A tick and its report -/

theorem exec_of_effect_eq_ok (h : effect i s = .ok t) : exec i s = .next t :=
  exec_eq_next.2 (.inl h)

theorem exec_of_effect_eq_error {c : FaultCause} (h : effect i s = .error c) :
    exec i s = .next (takeFault c s) :=
  exec_eq_next.2 (.inr ⟨c, h, rfl⟩)

theorem exists_exec_eq_next (i : Instr) (s : State) : ∃ t, exec i s = .next t := by
  cases he : effect i s with
  | ok t => exact ⟨t, exec_of_effect_eq_ok he⟩
  | error c => exact ⟨_, exec_of_effect_eq_error he⟩

theorem step_of_terminal (h : s.status ≠ .running) : step s = .next s :=
  step_eq_next.2 (.inl ⟨h, rfl⟩)

/-- Settles O11: a terminal machine stays, a running one executes or faults. -/
theorem everyStepAnswersNext : Obligations.EveryStepAnswersNext := by
  intro s
  by_cases hs : s.status = .running
  · cases hf : fetchInstr s with
    | ok i => simpa only [step_of_fetchInstr_eq_ok hs hf] using exists_exec_eq_next i s
    | error c => exact ⟨_, step_of_fetchInstr_eq_error hs hf⟩
  · exact ⟨s, step_of_terminal hs⟩

theorem after_of_step (h : step s = .next t) : after s = t := by
  rw [after, h]

theorem step_after (s : State) : step s = .next (after s) := by
  obtain ⟨t, ht⟩ := everyStepAnswersNext s
  rw [ht, after_of_step ht]

theorem after_of_terminal (h : s.status ≠ .running) : after s = s :=
  after_of_step (step_of_terminal h)

theorem afterN_of_terminal (h : s.status ≠ .running) (n : Nat) : afterN n s = s := by
  induction n with
  | zero => rfl
  | succ n ih => rw [afterN, after_of_terminal h, ih]

theorem report_of_halted (h : (after s).status = .halted) : report s = .halted := by
  rw [report, h]

theorem report_of_faulted (h : (after s).status = .faulted) :
    report s = .faulted ((after s).fault.map FaultRecord.code) := by
  rw [report, h]

theorem report_of_running (h : (after s).status = .running) (hf : fetchInstr s = .ok i) :
    report s = reportOf i s := by
  rw [report, h, hf]

/-- Settles O12: `step` leaves a terminal machine, and no host operation names `status` or `fault`. -/
theorem terminalStatesNeverChange : Obligations.TerminalStatesNeverChange := by
  intro s
  refine ⟨fun hs => ?_, fun r hs hr => ?_, fun vs => ⟨rfl, rfl⟩, fun a v t h => ?_,
    fun d c => ?_, fun c => ⟨rfl, rfl⟩⟩
  · have hn : s.status ≠ .running := by simp [hs]
    refine ⟨step_of_terminal hn, report_of_halted (by rw [after_of_terminal hn, hs]), fun n => ?_⟩
    rw [afterN_of_terminal hn, hs]
    decide
  · have hn : s.status ≠ .running := by simp [hs]
    refine ⟨step_of_terminal hn, ?_⟩
    rw [report_of_faulted (by rw [after_of_terminal hn, hs]), after_of_terminal hn, hr]
    rfl
  · obtain ⟨-, -, rfl⟩ := memWrite_eq_ok.1 h
    exact ⟨rfl, rfl⟩
  · cases d <;> exact ⟨rfl, rfl⟩

/-! ### Status and faults -/

/-- A completed instruction takes no fault: it halts, or leaves the status and its cause. -/
theorem Completes.status (h : Completes s i t) : t.fault = s.fault ∧
    (t.status = s.status ∧ t.haltCause = s.haltCause ∨ t.status = .halted) := by
  cases h with
  | receive => simp
  | store | jump | base | poll | hold | record | push => exact ⟨rfl, .inl ⟨rfl, rfl⟩⟩
  | halt | gone | fail => exact ⟨rfl, .inr rfl⟩

/-- A running machine that comes out faulted took a fault of its fetch, or of its instruction. -/
theorem eq_takeFault_of_step (hs : s.status = .running) (h : step s = .next t)
    (ht : t.status = .faulted) : ∃ c, t = takeFault c s ∧
      (fetchInstr s = .error c ∨ ∃ i, fetchInstr s = .ok i ∧ effect i s = .error c) := by
  rcases step_eq_next.1 h with ⟨hn, -⟩ | ⟨-, i, -, he⟩ | ⟨-, hc⟩
  · exact absurd hs hn
  · rcases (effect_completes he).status.2 with ⟨hst, -⟩ | hst <;> simp [hst, hs] at ht
  · exact hc

/-- Settles O16: such a tick took a fault, which writes the status and the record. -/
theorem faultsArePrecise : Obligations.FaultsArePrecise := by
  intro s t hs h ht
  obtain ⟨c, rfl, -⟩ := eq_takeFault_of_step hs h ht
  refine ⟨c.code, c.info, rfl, ?_⟩
  rw [report_of_faulted (by rw [after_of_step h, ht]), after_of_step h]
  rfl

/-- A running machine that comes out not faulted completed its instruction. -/
theorem effect_of_step (hs : s.status = .running) (h : step s = .next t)
    (ht : t.status ≠ .faulted) : ∃ i, fetchInstr s = .ok i ∧ effect i s = .ok t := by
  rcases step_eq_next.1 h with ⟨hn, -⟩ | ⟨-, hi⟩ | ⟨-, c, rfl, -⟩
  · exact absurd hs hn
  · exact hi
  · exact absurd rfl ht

/-- Settles O19: three of the ways to complete set `Halted`. -/
theorem onlyThreeTransitionsHalt : Obligations.OnlyThreeTransitionsHalt := by
  intro s t hs h ht
  obtain ⟨i, hf, he⟩ := effect_of_step hs h (by simp [ht])
  cases effect_completes he with
  | halt => exact .inl ⟨rfl, hf⟩
  | fail _ hep hr => exact .inr (.inl ⟨rfl, _, _, hf, hep, hr⟩)
  | gone hn =>
    obtain ⟨hseed, c, hep, hq, hl⟩ := nextInput_eq_gone.1 hn
    exact .inr (.inr ⟨rfl, _, c, hf, hseed, hep, hq, hl⟩)
  | store | jump | base | receive | poll | hold | record | push => simp [hs] at ht

/-- Settles O22: `idle` is changed by a receive, which clears it, and by an empty poll, which adds one. -/
theorem onlyInputChangesIdle : Obligations.OnlyInputChangesIdle := by
  intro s t h hne
  rcases step_eq_next.1 h with ⟨-, rfl⟩ | ⟨-, i, hf, he⟩ | ⟨-, c, rfl, -⟩
  · exact absurd rfl hne
  · cases effect_completes he with
    | receive => exact ⟨⟨_, hf⟩, .inl rfl⟩
    | poll => exact ⟨⟨_, hf⟩, .inr rfl⟩
    | store | jump | base | halt | hold | gone | record | push | fail => exact absurd rfl hne
  · exact absurd rfl hne

/-! ### The wiring -/

/-- What no tick changes: endpoints, parameters, liveness flags, channels that no endpoint names. -/
structure KeepsWiring (s t : State) : Prop where
  inEp : t.inEp = s.inEp
  outEp : t.outEp = s.outEp
  cfg : t.cfg = s.cfg
  alive : ∀ c, (t.chan c).senderAlive = (s.chan c).senderAlive ∧
    (t.chan c).receiverAlive = (s.chan c).receiverAlive
  foreign : ∀ c, s.inEp.chan? ≠ some c → s.outEp.chan? ≠ some c → t.chan c = s.chan c

theorem KeepsWiring.of_chans_eq (hi : t.inEp = s.inEp) (ho : t.outEp = s.outEp) (hc : t.cfg = s.cfg)
    (h : t.chans = s.chans) : KeepsWiring s t := by
  have hchan (c : Nat) : t.chan c = s.chan c := congrArg (getChan · c) h
  exact ⟨hi, ho, hc, fun c => by rw [hchan]; exact ⟨rfl, rfl⟩, fun c _ _ => hchan c⟩

/-- A new queue for a channel that an endpoint names. -/
theorem KeepsWiring.setQueue {c : Nat} {q : List Int}
    (hc : s.inEp.chan? = some c ∨ s.outEp.chan? = some c) :
    KeepsWiring s (s.setChan c { s.chan c with q := q }) where
  inEp := rfl
  outEp := rfl
  cfg := rfl
  alive d := by
    rw [State.chan_setChan]
    split_ifs with h
    · rw [h]; exact ⟨rfl, rfl⟩
    · exact ⟨rfl, rfl⟩
  foreign d hi ho := by
    rw [State.chan_setChan, if_neg]
    rintro rfl
    exact hc.elim hi ho

theorem popInput_keepsWiring (s : State) : KeepsWiring s (popInput s) := by
  rcases popInput_cases s with ⟨v, vs, -, e⟩ | ⟨-, c, hc, e⟩ | ⟨-, -, e⟩ <;> rw [e]
  · exact .of_chans_eq rfl rfl rfl rfl
  · exact .setQueue (.inl hc)
  · exact .of_chans_eq rfl rfl rfl rfl

theorem Completes.keepsWiring (h : Completes s i t) : KeepsWiring s t := by
  cases h with
  | receive =>
    obtain ⟨hi, ho, hc, ha, hf⟩ := popInput_keepsWiring (s.setMem (s.mem.write _ _))
    exact ⟨hi, ho, hc, ha, hf⟩
  | push _ _ hep =>
    obtain ⟨hi, ho, hc, ha, hf⟩ := KeepsWiring.setQueue (q := (s.chan _).q ++ [_])
      (.inr (congrArg OutEp.chan? hep))
    exact ⟨hi, ho, hc, ha, hf⟩
  | store | jump | base | halt | poll | hold | gone | record | fail =>
    exact .of_chans_eq rfl rfl rfl rfl

theorem step_keepsWiring (h : step s = .next t) : KeepsWiring s t := by
  rcases step_eq_next.1 h with ⟨-, rfl⟩ | ⟨-, i, -, he⟩ | ⟨-, c, rfl, -⟩
  · exact .of_chans_eq rfl rfl rfl rfl
  · exact (effect_completes he).keepsWiring
  · exact .of_chans_eq rfl rfl rfl rfl

/-- Settles O21: a tick changes no more of the wiring than the queue of a channel it is on. -/
theorem ticksKeepWiring : Obligations.TicksKeepWiring := fun _ _ h =>
  have k := step_keepsWiring h
  ⟨k.inEp, k.outEp, k.cfg, k.alive, k.foreign⟩

/-! ### Memory (20_memory R41, R42) -/

theorem lookupCell_of_mem {cs : List (Nat × Int)} (hs : cs.Pairwise fun c d => c.1 < d.1) {a : Nat}
    {v : Int} (h : (a, v) ∈ cs) : lookupCell cs a = v := by
  induction cs with
  | nil => simp at h
  | cons c cs ih =>
    obtain ⟨hc, hs⟩ := List.pairwise_cons.1 hs
    rcases List.mem_cons.1 h with rfl | h
    · simp [lookupCell]
    · have hne : c.1 ≠ a := (hc _ h).ne
      simpa [lookupCell, hne] using ih hs h

theorem lookupCell_of_not_mem {cs : List (Nat × Int)} {a : Nat} (h : ∀ v, (a, v) ∉ cs) :
    lookupCell cs a = 0 := by
  induction cs with
  | nil => rfl
  | cons c cs ih =>
    have hne : c.1 ≠ a := by
      rintro rfl
      exact h c.2 (by simp)
    simpa [lookupCell, hne] using ih fun v hv => h v (by simp [hv])

/-- Settles O23: below the extent a read is a look-up in the list of cells. -/
theorem memoryReadRule : Obligations.MemoryReadRule := by
  intro s a
  refine ⟨fun hn => memRead_eq_error.2 ⟨hn, rfl⟩, fun h0 hx => ?_, fun h0 hx hm v hv => ?_,
    fun h0 hx hv => ?_⟩
  · exact memRead_eq_ok.2 ⟨h0, (Memory.read_of_ext_le (by omega)).symm⟩
  · refine memRead_eq_ok.2 ⟨h0, ?_⟩
    rw [Memory.read_eq_lookup hm, lookupCell_of_mem hm.1 hv]
  · refine memRead_eq_ok.2 ⟨h0, ?_⟩
    rw [Memory.read, if_neg (by omega), lookupCell_of_not_mem hv]

/-- Settles O24: the store is `Memory.write`, which reads back by `Memory.read_write`. -/
theorem memoryWriteRule : Obligations.MemoryWriteRule := by
  intro s a v
  refine ⟨fun hn => memWrite_eq_error.2 (.inl ⟨hn, rfl⟩),
    fun h0 hc => memWrite_eq_error.2 (.inr ⟨h0, hc, rfl⟩), fun h0 hc hm => ?_⟩
  have hread := Memory.read_write hm a.toNat (v := v)
  refine ⟨s.mem.write a.toNat v, memWrite_eq_ok.2 ⟨h0, hc, rfl⟩, Memory.write_wf hm _ _, ?_, ?_, ?_, ?_⟩
  · rw [Memory.write_ext]
    split_ifs <;> omega
  · rw [hread, if_pos rfl]
  · intro k hk
    rw [hread, if_neg hk]
  · intro k hx hk
    rw [hread, if_neg hk.ne, Memory.read_of_ext_le hx]

/-! ### The order of operand faults (30_encoding R69) -/

/-- Settles O18: each operand is bound before the next, and `next` before the effect. -/
theorem operandFaultsComeInOrder : Obligations.OperandFaultsComeInOrder := by
  intro s c a b d
  refine ⟨fun i hi => ?_, fun i hi => ?_, fun i hi => ?_, fun h => ?_, fun x hx h => ?_, fun h => ?_⟩
  · obtain ⟨op, hop⟩ : ∃ op, effect i s = binary op a b d s := by
      simp only [List.mem_cons, List.not_mem_nil, or_false] at hi
      rcases hi with rfl | rfl | rfl | rfl <;> exact ⟨_, rfl⟩
    refine ⟨fun h => ?_, fun v hv h => ?_, fun v w hv hw h => ?_, fun v w x hv hw hx h => ?_⟩ <;>
      refine exec_of_effect_eq_error (hop.trans ?_)
    · rw [binary, h, error_bind]
    · rw [binary, hv, ok_bind, h, error_bind]
    · rw [binary, hv, ok_bind, hw, ok_bind, h, error_bind]
    · rw [binary, hv, ok_bind, hw, ok_bind, hx, ok_bind, h, error_bind]
  · obtain ⟨taken, hj⟩ : ∃ taken, effect i s = jump taken a b s := by
      simp only [List.mem_cons, List.not_mem_nil, or_false] at hi
      rcases hi with rfl | rfl <;> exact ⟨_, rfl⟩
    refine ⟨fun h => ?_, fun v hv h => ?_, fun v w hv hw h => ?_⟩ <;>
      refine exec_of_effect_eq_error (hj.trans ?_)
    · rw [jump, h, error_bind]
    · rw [jump, hv, ok_bind, h, error_bind]
    · rw [jump, hv, ok_bind, hw, ok_bind, h, error_bind]
  · obtain ⟨f, hf⟩ : ∃ f : Int → Int → Except FaultCause State, effect i s =
        (readParam s 1 a >>= fun v => nextPc s 2 >>= fun n => f v n) := by
      simp only [List.mem_cons, List.not_mem_nil, or_false] at hi
      rcases hi with rfl | rfl <;> exact ⟨_, rfl⟩
    refine ⟨fun h => ?_, fun v hv h => ?_⟩ <;> refine exec_of_effect_eq_error (hf.trans ?_)
    · rw [h, error_bind]
    · rw [hv, ok_bind, h, error_bind]
  · exact exec_of_effect_eq_error (by rw [effect, h, error_bind])
  · exact exec_of_effect_eq_error (by rw [effect, hx, ok_bind, h, error_bind])
  · exact exec_of_effect_eq_error (by rw [effect, h, error_bind])

end Sys2Proof.Machine


/-! PROOFS of the family `other`: what a fault says of its cause. -/

namespace Sys2Proof

/-- The two ways a word decodes to nothing. -/
theorem decode_eq_error {pol : UnusedModePolicy} {ws : List Int} {r : DecodeReject}
    (h : decode pol ws = .error r) :
    (r = .unknownOpcode (ws.getD 0 0) ∧
      (ws.getD 0 0 < 0 ∨ ws.getD 0 0 % 100 ∉ Machine.knownOpcodes)) ∨
    ∃ i k d, r = .invalidMode k d ∧ decode .ignore ws = .ok i ∧
      unusedRefusal pol i.arity (ws.getD 0 0).toNat = some (k, d) := by
  by_cases hbad : ws.getD 0 0 < 0 ∨ ws.getD 0 0 % 100 ∉ Machine.knownOpcodes
  · rw [decode_eq_unknownOpcode pol hbad] at h
    exact .inl ⟨(Except.error.inj h).symm, hbad⟩
  · simp only [not_or, not_lt, not_not] at hbad
    obtain ⟨h0, hop⟩ := hbad
    have hop' : (((ws.getD 0 0).toNat % 100 : Nat) : Int) ∈ Machine.knownOpcodes := by
      rwa [Int.natCast_mod, Int.toNat_of_nonneg h0]
    obtain ⟨i, hb⟩ := exists_build hop' (paramOf ws (ws.getD 0 0).toNat 1)
      (paramOf ws (ws.getD 0 0).toNat 2) (paramOf ws (ws.getD 0 0).toNat 3)
    have hi : decode .ignore ws = .ok i := decode_eq_ok.2 ⟨h0, hb, unusedRefusal_ignore _ _⟩
    obtain ⟨hpass, hrefuse⟩ := decode_of_ignore (pol := pol) hi
    cases hu : unusedRefusal pol i.arity (ws.getD 0 0).toNat with
    | none => rw [hpass hu] at h; cases h
    | some kd =>
      obtain ⟨k, d⟩ := kd
      rw [hrefuse k d hu] at h
      exact .inr ⟨i, k, d, (Except.error.inj h).symm, hi, hu⟩

theorem refusesUnused_eq_true {pol : UnusedModePolicy} {d : Nat} : refusesUnused pol d = true ↔
    pol = .faultIfInvalid ∧ 2 < d ∨ pol = .faultIfNonzero ∧ d ≠ 0 := by
  cases pol <;> simp [refusesUnused]

namespace Machine

variable {s t : State} {i : Instr} {c : FaultCause}

/-! ### What an instruction can raise (60_exceptions R111) -/

/-- The faults that `i`, begun in `s`, can raise, each with what it says of them. -/
inductive Raises (s : State) (i : Instr) : FaultCause → Prop
  | negativeAddress {a : Int} : a < 0 → Forms s i a → Raises s i ⟨.negativeAddress, .int a⟩
  | immediateWrite {raw : Int} : i.opcode ∈ [1, 2, 3, 7, 8] →
      i.params.getLast? = some ⟨.immediate, raw⟩ → Raises s i ⟨.immediateWrite, .int raw⟩
  | inputNotWired {d : Param} : i = .input d → s.seed = [] → s.inEp = .absent →
      Raises s i ⟨.inputNotWired, .none⟩
  | invalidMode {n : Nat} {p : Param} : i.params[n]? = some p → 2 < p.mode.digit →
      Raises s i ⟨.invalidMode, .modeDigit (n + 1) p.mode.digit⟩
  | overflow {v : Int} : ¬ IsWord s.cfg.wordBits v → Checks s i v → Raises s i ⟨.overflow, .int v⟩
  | memoryExhausted {addr : Nat} {p : Param} : s.cfg.memCap ≤ addr → i.opcode ∈ [1, 2, 3, 7, 8] →
      i.params.getLast? = some p → Targets s p addr → Raises s i ⟨.memoryExhausted, .int addr⟩

section Operands

variable {n : Nat} {p : Param}

theorem chk_raises {v : Int} (h : chk s v = .error c) (hc : Checks s i v) : Raises s i c := by
  obtain ⟨hw, rfl⟩ := chk_eq_error.1 h
  exact .overflow hw hc

theorem reserved_raises {k : Fin 7} (hp : i.params[n]? = some p) (hm : p.mode = .reserved k) :
    Raises s i (invalidMode (n + 1) k) := by
  have h := Raises.invalidMode (s := s) hp (by simp [hm, Mode.digit])
  rwa [hm] at h

theorem nextPc_raises (h : nextPc s i.width = .error c) : Raises s i c :=
  chk_raises h (.word (Nat.succ_pos _) le_rfl)

variable (h0 : 0 ≤ s.pc) (hp : i.params[n]? = some p)
include h0 hp

theorem paramWordAt_raises (h : paramWordAt s (n + 1) = .error c) : Raises s i c := by
  have hn : n < i.params.length := (List.getElem?_eq_some_iff.1 hp).1
  rcases bind_eq_error.1 h with h | ⟨a, ha, h⟩
  · exact chk_raises h (.word (Nat.succ_pos n) (Nat.succ_le_succ hn.le))
  · obtain ⟨-, rfl⟩ := chk_eq_ok.1 ha
    obtain ⟨hneg, -⟩ := memRead_eq_error.1 h
    omega

theorem readParam_raises (h : readParam s (n + 1) p = .error c) : Raises s i c := by
  have hm : p ∈ i.params := List.mem_of_getElem? hp
  rcases bind_eq_error.1 h with h | ⟨x, -, h⟩
  · exact paramWordAt_raises h0 hp h
  · cases hmode : p.mode <;> simp only [hmode] at h
    case position =>
      obtain ⟨hneg, rfl⟩ := memRead_eq_error.1 h
      exact .negativeAddress hneg (.position hm hmode)
    case immediate => cases h
    case relative =>
      rcases bind_eq_error.1 h with h | ⟨a, ha, h⟩
      · exact chk_raises h (.address hm hmode)
      · obtain ⟨-, rfl⟩ := chk_eq_ok.1 ha
        obtain ⟨hneg, rfl⟩ := memRead_eq_error.1 h
        exact .negativeAddress hneg (.relative hm hmode)
    case reserved k =>
      cases h
      exact reserved_raises hp hmode

theorem destParam_raises (hi : i.opcode ∈ [1, 2, 3, 7, 8]) (hl : i.params.getLast? = some p)
    (h : destParam s (n + 1) p = .error c) : Raises s i c := by
  have hm : p ∈ i.params := List.mem_of_getElem? hp
  rcases bind_eq_error.1 h with h | ⟨x, -, h⟩
  · exact paramWordAt_raises h0 hp h
  · cases hmode : p.mode <;> simp only [hmode] at h
    case position =>
      obtain ⟨hneg, rfl⟩ := destAddr_eq_error.1 h
      exact .negativeAddress hneg (.position hm hmode)
    case immediate =>
      cases h
      exact .immediateWrite hi (by rw [hl, ← hmode])
    case relative =>
      rcases bind_eq_error.1 h with h | ⟨a, ha, h⟩
      · exact chk_raises h (.address hm hmode)
      · obtain ⟨-, rfl⟩ := chk_eq_ok.1 ha
        obtain ⟨hneg, rfl⟩ := destAddr_eq_error.1 h
        exact .negativeAddress hneg (.relative hm hmode)
    case reserved k =>
      cases h
      exact reserved_raises hp hmode

end Operands

/-- A write to a resolved dest can fail at the cap only. -/
theorem memWrite_raises {p : Param} {k : Nat} {a v : Int} (hi : i.opcode ∈ [1, 2, 3, 7, 8])
    (hl : i.params.getLast? = some p) (hd : destParam s k p = .ok a)
    (h : memWrite s a v = .error c) : Raises s i c := by
  obtain ⟨addr, rfl, ht⟩ := destParam_eq_ok hd
  rcases memWrite_eq_error.1 h with ⟨hneg, -⟩ | ⟨-, hcap, rfl⟩
  · omega
  · exact .memoryExhausted (by omega) hi hl ht

theorem binary_raises {op : State → Int → Int → Except FaultCause Int} {a b d : Param}
    (h0 : 0 ≤ s.pc) (hi : i.opcode ∈ [1, 2, 3, 7, 8]) (hp : i.params = [a, b, d])
    (hop : ∀ x y, Reads s a x → Reads s b y → op s x y = .error c → Raises s i c)
    (h : binary op a b d s = .error c) : Raises s i c := by
  have hl : i.params.getLast? = some d := by simp [hp]
  rcases bind_eq_error.1 h with h | ⟨x, hx, h⟩
  · exact readParam_raises (n := 0) h0 (by simp [hp]) h
  rcases bind_eq_error.1 h with h | ⟨y, hy, h⟩
  · exact readParam_raises (n := 1) h0 (by simp [hp]) h
  rcases bind_eq_error.1 h with h | ⟨addr, hd, h⟩
  · exact destParam_raises (n := 2) h0 (by simp [hp]) hi hl h
  rcases bind_eq_error.1 h with h | ⟨n, -, h⟩
  · exact nextPc_raises (by simpa [Instr.width, Instr.arity, hp] using h)
  rcases bind_eq_error.1 h with h | ⟨r, -, h⟩
  · exact hop x y (readParam_eq_ok hx) (readParam_eq_ok hy) h
  rcases bind_eq_error.1 h with h | ⟨u, -, h⟩
  · exact memWrite_raises hi hl hd h
  · cases h

theorem jump_raises {taken : Int → Bool} {a b : Param} (h0 : 0 ≤ s.pc) (hp : i.params = [a, b])
    (h : jump taken a b s = .error c) : Raises s i c := by
  rcases bind_eq_error.1 h with h | ⟨x, -, h⟩
  · exact readParam_raises (n := 0) h0 (by simp [hp]) h
  rcases bind_eq_error.1 h with h | ⟨y, -, h⟩
  · exact readParam_raises (n := 1) h0 (by simp [hp]) h
  rcases bind_eq_error.1 h with h | ⟨n, -, h⟩
  · exact nextPc_raises (by simpa [Instr.width, Instr.arity, hp] using h)
  · cases h

theorem receive_raises {d : Param} {addr n : Int} (hd : destParam s 1 d = .ok addr)
    (h : receive addr n s = .error c) : Raises s (.input d) c := by
  have hi : (Instr.input d).opcode ∈ [1, 2, 3, 7, 8] := by simp [Instr.opcode]
  unfold receive at h
  cases hn : nextInput s <;> rw [hn] at h
  case value | sentinel =>
    rcases bind_eq_error.1 h with h | ⟨u, -, h⟩
    · exact memWrite_raises hi rfl hd h
    · cases h
  case hold | gone => cases h
  case notWired =>
    cases h
    obtain ⟨hseed, hep⟩ := nextInput_eq_notWired.1 hn
    exact .inputNotWired rfl hseed hep

theorem effect_raises (h0 : 0 ≤ s.pc) (h : effect i s = .error c) : Raises s i c := by
  cases i with
  | add a b d =>
    exact binary_raises h0 (by simp [Instr.opcode]) rfl (fun x y hx hy h => chk_raises h (.sum hx hy)) h
  | mul a b d =>
    exact binary_raises h0 (by simp [Instr.opcode]) rfl
      (fun x y hx hy h => chk_raises h (.product hx hy)) h
  | lt a b d | eq a b d =>
    exact binary_raises h0 (by simp [Instr.opcode]) rfl (fun x y _ _ h => by cases h) h
  | jnz a b | jz a b => exact jump_raises h0 rfl h
  | input d =>
    rcases bind_eq_error.1 h with h | ⟨addr, hd, h⟩
    · exact destParam_raises (n := 0) h0 rfl (by simp [Instr.opcode]) rfl h
    rcases bind_eq_error.1 h with h | ⟨n, -, h⟩
    · exact nextPc_raises h
    · exact receive_raises hd h
  | output a =>
    rcases bind_eq_error.1 h with h | ⟨v, -, h⟩
    · exact readParam_raises (n := 0) h0 rfl h
    rcases bind_eq_error.1 h with h | ⟨n, -, h⟩
    · exact nextPc_raises h
    · cases h
  | adjrel a =>
    rcases bind_eq_error.1 h with h | ⟨v, hv, h⟩
    · exact readParam_raises (n := 0) h0 rfl h
    rcases bind_eq_error.1 h with h | ⟨n, -, h⟩
    · exact nextPc_raises h
    rcases bind_eq_error.1 h with h | ⟨r, -, h⟩
    · exact chk_raises h (.base (readParam_eq_ok hv))
    · cases h
  | halt =>
    rcases bind_eq_error.1 h with h | ⟨n, -, h⟩
    · exact nextPc_raises h
    · cases h

/-! ### What a fetch can raise -/

theorem fetchInstr_eq_error (h : fetchInstr s = .error c) :
    (s.pc < 0 ∧ c = ⟨.negativeAddress, .int s.pc⟩) ∨
    (0 ≤ s.pc ∧ ∃ r, decode s.cfg.unusedMode (wordsAt s.mem s.pc.toNat) = .error r ∧
      c = rejectCause r) := by
  unfold fetchInstr at h
  split_ifs at h with hn
  · exact .inl ⟨hn, (Except.error.inj h).symm⟩
  · cases hd : decode s.cfg.unusedMode (wordsAt s.mem s.pc.toNat) with
    | ok i => rw [hd] at h; cases h
    | error r => rw [hd] at h; exact .inr ⟨not_lt.1 hn, r, rfl, (Except.error.inj h).symm⟩

/-- Settles O17: a fault of an instruction is one that it `Raises`; one of the fetch is a negative
`pc`, a word of no opcode, or a refused digit. -/
theorem faultInfoMatchesCode : Obligations.FaultInfoMatchesCode := by
  intro s t r hs h ht hr
  obtain ⟨c, rfl, hc⟩ := eq_takeFault_of_step hs h ht
  obtain rfl : ⟨c.code, s.pc, faultWord s, c.info⟩ = r := Option.some.inj hr
  rcases hc with hf | ⟨i, hf, he⟩
  · rcases fetchInstr_eq_error hf with ⟨hn, rfl⟩ | ⟨h0, r, hd, rfl⟩
    · exact ⟨s.pc, hn, rfl, .inl ⟨rfl, if_pos hn⟩⟩
    · have hword := faultWord_of_nonneg h0
      rcases decode_eq_error hd with ⟨rfl, hbad⟩ | ⟨i, k, d, rfl, hi, hu⟩
      · exact ⟨_, hword, rfl, hbad⟩
      · obtain ⟨hk, h3, rfl, href, -⟩ := unusedRefusal_eq_some.1 hu
        have hlen := (lengthFollowsOpcode _ _ _ hi).2.1
        refine ⟨_, k, _, hword, rfl, by omega, h3, digit_toNat (decode_eq_ok.1 hi).1 _, .inr ⟨?_, ?_⟩⟩
        · exact hlen ▸ hk
        · exact refusesUnused_eq_true.1 href
  · obtain ⟨h0, hd⟩ := fetchInstr_eq_ok.1 hf
    have hword := faultWord_of_nonneg h0
    cases effect_raises h0 he with
    | negativeAddress hneg hform => exact ⟨_, hneg, rfl, .inr ⟨i, hf, hform⟩⟩
    | immediateWrite hi hl => exact ⟨i, _, hf, hi, hl, rfl⟩
    | inputNotWired hi hseed hep => exact ⟨rfl, hseed, hep, _, hi ▸ hf⟩
    | overflow hw hc => exact ⟨_, i, rfl, hw, hf, hc⟩
    | memoryExhausted hcap hi hl htar => exact ⟨_, i, _, rfl, hcap, hf, hi, hl, htar⟩
    | @invalidMode n p hp hdig =>
      have hn : n < i.arity := (List.getElem?_eq_some_iff.1 hp).1
      have ha := i.arity_le
      have hlen := (lengthFollowsOpcode _ _ _ hd).2.1
      refine ⟨_, n + 1, _, hword, rfl, by omega, by omega, ?_, .inl ⟨?_, hdig⟩⟩
      · rcases digit_of_decode_eq_ok hd (k := n) (by omega) with ⟨q, hq, hdq⟩ | ⟨hq, -⟩
        · obtain rfl : p = q := Option.some.inj (hp.symm.trans hq)
          exact hdq ▸ digit_toNat (decode_eq_ok.1 hd).1 _
        · rw [hp] at hq; cases hq
      · exact hlen ▸ Nat.succ_lt_succ hn

end Machine

end Sys2Proof


/-! PROOFS of the family `other`: the port, the jumps, `halt`, and the frames. -/

namespace Sys2Proof

/-- The words of a two-parameter instruction (30_encoding R60, R61). -/
theorem encode_of_params_eq_pair {i : Instr} {a b : Param} (h : i.params = [a, b]) :
    encode i = [(i.opcode + 100 * a.mode.digit + 1000 * b.mode.digit : Int), a.raw, b.raw] := by
  have hw : instrWord i = i.opcode + 100 * a.mode.digit + 1000 * b.mode.digit := by
    simp only [instrWord, h, modeDigits]
    omega
  rw [encode, hw, h]
  rfl

namespace Machine

variable {s t : State}

/-! ### `input`, its dest resolved -/

/-- What is left of `input` is the receive. -/
theorem input_eq_receive {d : Param} {addr : Nat} (hf : Fits s 2) (hd : Targets s d addr) :
    effect (.input d) s = receive addr (s.pc + 2) s := by
  rw [effect, hd.destParam hf (by decide), ok_bind, hf.nextPc, ok_bind]
  rfl

theorem memWrite_of_lt {addr : Nat} (h : addr < s.cfg.memCap) (v : Int) :
    memWrite s addr v = .ok (s.setMem (s.mem.write addr v)) :=
  memWrite_eq_ok.2 ⟨by omega, by omega, rfl⟩

theorem memWrite_of_le {addr : Nat} (h : s.cfg.memCap ≤ addr) (v : Int) :
    memWrite s addr v = .error ⟨.memoryExhausted, .int addr⟩ :=
  memWrite_eq_error.2 (.inr ⟨by omega, by omega, rfl⟩)

section Input

variable {d : Param} {addr : Nat} (hf : Fits s 2) (hd : Targets s d addr)
include hf hd

theorem exec_input_of_value {v : Int} (hn : nextInput s = .value v) (hc : addr < s.cfg.memCap) :
    exec (.input d) s = .next
      ((((popInput s).setMem (s.mem.write addr v)).setIdle 0).setPc (s.pc + 2)) := by
  refine exec_of_effect_eq_ok ?_
  rw [input_eq_receive hf hd, receive, hn]
  simp only [memWrite_of_lt hc, ok_bind, (portBlind_setMem _).popInput]

theorem exec_input_of_sentinel (hn : nextInput s = .sentinel) (hc : addr < s.cfg.memCap) :
    exec (.input d) s = .next
      { s with mem := s.mem.write addr (-1), idle := s.idle + 1, pc := s.pc + 2 } := by
  refine exec_of_effect_eq_ok ?_
  rw [input_eq_receive hf hd, receive, hn]
  simp only [memWrite_of_lt hc, ok_bind]
  rfl

theorem exec_input_of_hold (hn : nextInput s = .hold) : exec (.input d) s = .next s :=
  exec_of_effect_eq_ok (by rw [input_eq_receive hf hd, receive, hn])

theorem exec_input_of_gone (hn : nextInput s = .gone) :
    exec (.input d) s = .next { s with status := .halted, haltCause := some .producerGone } :=
  exec_of_effect_eq_ok (by rw [input_eq_receive hf hd, receive, hn]; rfl)

theorem exec_input_of_notWired (hn : nextInput s = .notWired) :
    exec (.input d) s = .next (takeFault ⟨.inputNotWired, .none⟩ s) :=
  exec_of_effect_eq_error (by rw [input_eq_receive hf hd, receive, hn])

/-- With something to write, the cap is looked at before anything is popped. -/
theorem exec_input_of_full (hn : (∃ v, nextInput s = .value v) ∨ nextInput s = .sentinel)
    (hc : s.cfg.memCap ≤ addr) :
    exec (.input d) s = .next (takeFault ⟨.memoryExhausted, .int addr⟩ s) := by
  refine exec_of_effect_eq_error ?_
  rw [input_eq_receive hf hd, receive]
  rcases hn with ⟨v, hn⟩ | hn <;> rw [hn] <;> simp only [memWrite_of_le hc, error_bind]

end Input

/-! ### What the port gives, by its state -/

theorem nextInput_of_seed {v : Int} {vs : List Int} (h : s.seed = v :: vs) : nextInput s = .value v :=
  nextInput_eq_value.2 (.inl ⟨vs, h⟩)

theorem nextInput_of_queue {c : Nat} {v : Int} {vs : List Int} (hs : s.seed = [])
    (hc : s.inEp.chan? = some c) (hq : (s.chan c).q = v :: vs) : nextInput s = .value v :=
  nextInput_eq_value.2 (.inr ⟨hs, c, vs, hc, hq⟩)

theorem InEp.chan?_of_wired {e : InEp} {c : Nat} (h : e = .blocking c ∨ e = .polling c) :
    e.chan? = some c := by
  rcases h with rfl | rfl <;> rfl

theorem popInput_of_seed {v : Int} {vs : List Int} (h : s.seed = v :: vs) :
    popInput s = s.setSeed vs := by
  rw [popInput, h]

theorem popInput_of_wired {c : Nat} (hs : s.seed = []) (hc : s.inEp.chan? = some c) :
    popInput s = s.setChan c (s.chan c).pop := by
  rcases popInput_cases s with ⟨v, vs, h, -⟩ | ⟨-, e, he, h⟩ | ⟨-, h, -⟩
  · simp [h] at hs
  · obtain rfl : e = c := Option.some.inj (he.symm.trans hc)
    exact h
  · simp [h, InEp.chan?] at hc

/-- A polling endpoint always gives something to write. -/
theorem nextInput_of_polling {c : Nat} (h : s.inEp = .polling c) :
    (∃ v, nextInput s = .value v) ∨ nextInput s = .sentinel := by
  cases hs : s.seed with
  | cons v vs => exact .inl ⟨v, nextInput_of_seed hs⟩
  | nil =>
    cases hq : (s.chan c).q with
    | nil => exact .inr (nextInput_eq_sentinel.2 ⟨hs, c, h, hq⟩)
    | cons v vs => exact .inl ⟨v, nextInput_of_queue hs (InEp.chan?_of_wired (.inr h)) hq⟩

/-- Settles O33: one lemma for each outcome of `NextInput`. -/
theorem inputRule : Obligations.InputRule := by
  intro s d addr hf hd
  refine ⟨fun v vs hs hc => ?_, fun c v vs hs hep hq hc => ?_, fun c hs hep hq hc => ?_,
    fun c hs hep hq hl => ?_, fun c hs hep hq hl => ?_, fun hs hep => ?_, fun hin hc => ?_,
    encode_of_params_eq_singleton rfl⟩
  · rw [exec_input_of_value hf hd (nextInput_of_seed hs) hc, popInput_of_seed hs]
    rfl
  · have hch := InEp.chan?_of_wired hep
    rw [exec_input_of_value hf hd (nextInput_of_queue hs hch hq) hc, popInput_of_wired hs hch]
    have hpop : (s.chan c).pop = { s.chan c with q := vs } := by rw [Channel.pop, hq, List.tail_cons]
    exact congrArg (fun ch => Host.Outcome.next { s with
      chans := Machine.setChan s.chans c ch, mem := s.mem.write addr v, idle := 0, pc := s.pc + 2 }) hpop
  · exact exec_input_of_sentinel hf hd (nextInput_eq_sentinel.2 ⟨hs, c, hep, hq⟩) hc
  · exact exec_input_of_hold hf hd (nextInput_eq_hold.2 ⟨hs, c, hep, hq, hl⟩)
  · exact exec_input_of_gone hf hd (nextInput_eq_gone.2 ⟨hs, c, hep, hq, hl⟩)
  · exact exec_input_of_notWired hf hd (nextInput_eq_notWired.2 ⟨hs, hep⟩)
  · refine exec_input_of_full hf hd ?_ hc
    cases hs : s.seed with
    | cons v vs => exact .inl ⟨v, nextInput_of_seed hs⟩
    | nil =>
      rcases hin with hne | ⟨c, hep⟩ | ⟨c, hep, hne⟩
      · exact absurd hs hne
      · exact nextInput_of_polling hep
      · obtain ⟨v, vs, hq⟩ := List.exists_cons_of_ne_nil hne
        exact .inl ⟨v, nextInput_of_queue hs (InEp.chan?_of_wired (.inl hep)) hq⟩

theorem reportOf_eq_needsInput {i : Instr} (h : reportOf i s = .needsInput) :
    (∃ d, i = .input d) ∧ nextInput s = .hold := by
  cases i with
  | input d =>
    rw [reportOf] at h
    split_ifs at h with hn
    exact ⟨⟨d, rfl⟩, hn⟩
  | output a => cases hv : readParam s 1 a <;> simp [reportOf, hv] at h
  | add | mul | jnz | jz | lt | eq | adjrel | halt => cases h

/-- Only a held `input` reports that it needs input. -/
theorem eq_input_of_report_needsInput (h : report s = .needsInput) :
    ∃ d, fetchInstr s = .ok (.input d) ∧ nextInput s = .hold := by
  cases hst : (after s).status with
  | halted =>
    rw [report_of_halted hst] at h
    cases h
  | faulted =>
    rw [report_of_faulted hst] at h
    cases h
  | running =>
    cases hf : fetchInstr s with
    | error c => simp [report, hst, hf] at h
    | ok i =>
      rw [report_of_running hst hf] at h
      obtain ⟨⟨d, rfl⟩, hn⟩ := reportOf_eq_needsInput h
      exact ⟨d, rfl, hn⟩

/-- Settles O34: with a polling endpoint `NextInput` never holds. -/
theorem pollingReceiveRule : Obligations.PollingReceiveRule := by
  intro s d c addr hf hd hep hc
  refine ⟨fun hs hq => exec_input_of_sentinel hf hd (nextInput_eq_sentinel.2 ⟨hs, c, hep, hq⟩) hc,
    fun hin => ?_, fun hr => ?_⟩
  · rcases nextInput_of_polling hep with ⟨v, hn⟩ | hn
    · exact ⟨_, exec_input_of_value hf hd hn hc, rfl, rfl⟩
    · obtain ⟨hs, e, he, hq⟩ := nextInput_eq_sentinel.1 hn
      obtain rfl : c = e := InEp.polling.inj (hep.symm.trans he)
      exact absurd hin (by simp [hs, hq])
  · obtain ⟨-, -, hn⟩ := eq_input_of_report_needsInput hr
    rcases nextInput_of_polling hep with ⟨v, hv⟩ | hv <;> simp [hn] at hv

/-! ### `output` -/

/-- What is left of `output` is the send. -/
theorem exec_output_of_reads {a : Param} {v : Int} (hf : Fits s 2) (ha : Reads s a v) :
    exec (.output a) s = .next (send v (s.pc + 2) s) := by
  refine exec_of_effect_eq_ok ?_
  rw [effect, ha.readParam hf (by decide), ok_bind, hf.nextPc, ok_bind]
  rfl

theorem send_of_absent {v n : Int} (h : s.outEp = .absent) :
    send v n s = (s.setLastOut v).setPc n := by
  simp only [send, emitOutput, h]

theorem send_of_alive {v n : Int} {c : Nat} (h : s.outEp = .channel c)
    (hr : (s.chan c).receiverAlive = true) :
    send v n s = (s.setChan c ((s.chan c).push v)).setPc n := by
  simp only [send, emitOutput, h, hr, if_true]

theorem send_of_gone {v n : Int} {c : Nat} (h : s.outEp = .channel c)
    (hr : (s.chan c).receiverAlive = false) : send v n s = (s.halt .sendFailed).setPc n := by
  simp only [send, emitOutput, h, hr, if_neg Bool.false_ne_true]

/-- Settles O35: the three cases of a send. -/
theorem outputRule : Obligations.OutputRule := by
  intro s a v hf ha
  have hreport : reportOf (.output a) s = .producedOutput v := by
    rw [reportOf, ha.readParam hf (by decide)]
  rw [exec_output_of_reads hf ha]
  refine ⟨fun hep => ⟨?_, hreport⟩, fun c hep hr => ⟨?_, hreport⟩, fun c hep hr => ?_,
    encode_of_params_eq_singleton rfl⟩
  · exact congrArg Host.Outcome.next (send_of_absent hep)
  · exact congrArg Host.Outcome.next (send_of_alive hep hr)
  · exact congrArg Host.Outcome.next (send_of_gone hep hr)

/-! ### The jumps and `halt` -/

theorem jump_of_reads {taken : Int → Bool} {a b : Param} {v w : Int} (hf : Fits s 3)
    (ha : Reads s a v) (hb : Reads s b w) :
    jump taken a b s = .ok (s.setPc (if taken v then w else s.pc + 3)) := by
  rw [jump, ha.readParam hf (by decide), ok_bind, hb.readParam hf (by decide), ok_bind, hf.nextPc]
  rfl

theorem jump_eq_error {taken : Int → Bool} {a b : Param} {v : Int} {c : FaultCause}
    (ha : readParam s 1 a = .ok v)
    (h : readParam s 2 b = .error c ∨ (∃ w, readParam s 2 b = .ok w) ∧ nextPc s 3 = .error c) :
    jump taken a b s = .error c := by
  rw [jump, ha, ok_bind]
  rcases h with h | ⟨⟨w, hw⟩, h⟩
  · rw [h, error_bind]
  · rw [hw, ok_bind, h, error_bind]

/-- Settles O36: `jnz` is `jump` on a value that is not 0. -/
theorem jnzRule : Obligations.JnzRule := by
  refine ⟨fun s a b v w hf ha hb => ⟨fun hv => exec_of_effect_eq_ok ?_,
      fun hv => exec_of_effect_eq_ok ?_, encode_of_params_eq_pair rfl⟩,
    fun s a b v c ha h => exec_of_effect_eq_error (jump_eq_error ha h)⟩ <;>
  · refine (jump_of_reads hf ha hb).trans ?_
    simp only [isZero, hv, decide_true, decide_false, Bool.not_true, Bool.not_false, if_true,
      if_neg Bool.false_ne_true]
    rfl

/-- Settles O37: `jz` is `jump` on 0. -/
theorem jzRule : Obligations.JzRule := by
  refine ⟨fun s a b v w hf ha hb => ⟨fun hv => exec_of_effect_eq_ok ?_,
      fun hv => exec_of_effect_eq_ok ?_, encode_of_params_eq_pair rfl⟩,
    fun s a b v c ha h => exec_of_effect_eq_error (jump_eq_error ha h)⟩ <;>
  · refine (jump_of_reads hf ha hb).trans ?_
    simp only [isZero, hv, decide_true, decide_false, if_true, if_neg Bool.false_ne_true]
    rfl

/-- Settles O39: what is left of `halt` is the check of `next`. -/
theorem haltRule : Obligations.HaltRule := by
  intro s
  refine ⟨fun hf => ?_, fun hw => ?_, rfl, fun w ps h0 h99 => ?_⟩
  · have hstep := step_of_terminal (s := (s.halt .opcode99).setPc (s.pc + 1)) (by simp)
    refine ⟨_, exec_of_effect_eq_ok ?_, hstep, report_of_halted (by rw [after_of_step hstep]; rfl), rfl⟩
    rw [effect, hf.nextPc, ok_bind]
    rfl
  · refine exec_of_effect_eq_error ?_
    rw [effect, nextPc, Nat.cast_one, chk_bind_of_not_isWord hw]
  · refine decode_eq_ok_iff.2 ⟨h0, ?_, rfl, unusedRefusal_ignore _ _⟩
    show w.toNat % 100 = 99
    omega

/-! ### The frames -/

/-- A resolved dest, and the store made there. -/
theorem binary_dest {op : State → Int → Int → Except FaultCause Int} {a b d : Param}
    (h : binary op a b d s = .ok t) : ∃ (addr : Nat) (r : Int), destParam s 3 d = .ok (addr : Int) ∧
      t = (s.setMem (s.mem.write addr r)).setPc (s.pc + 4) := by
  obtain ⟨_, -, h⟩ := bind_eq_ok.1 h
  obtain ⟨_, -, h⟩ := bind_eq_ok.1 h
  obtain ⟨x, hx, h⟩ := bind_eq_ok.1 h
  obtain ⟨n, hn, h⟩ := bind_eq_ok.1 h
  obtain ⟨r, -, h⟩ := bind_eq_ok.1 h
  obtain ⟨u, hu, h⟩ := bind_eq_ok.1 h
  obtain ⟨addr, rfl, -⟩ := destParam_eq_ok hx
  obtain ⟨-, rfl⟩ := nextPc_eq_ok.1 hn
  obtain ⟨-, -, rfl⟩ := memWrite_eq_ok.1 hu
  cases h
  exact ⟨addr, r, hx, rfl⟩

theorem read_write_of_ne {m : Memory} (hm : m.wf) {a k : Nat} (h : (k : Int) ≠ a) (v : Int) :
    (m.write a v).read k = m.read k := by
  rw [Memory.read_write hm, if_neg (by omega)]

/-- Settles O40: a completed instruction stores at its dest and moves `pc`. -/
theorem storingFrame : Obligations.StoringFrame := by
  intro s t a b d hm i hi h
  obtain ⟨op, hop⟩ : ∃ op, effect i s = binary op a b d s := by
    simp only [List.mem_cons, List.not_mem_nil, or_false] at hi
    rcases hi with rfl | rfl | rfl | rfl <;> exact ⟨_, rfl⟩
  rcases exec_eq_next.1 h with he | ⟨c, -, rfl⟩
  · obtain ⟨addr, r, hd, rfl⟩ := binary_dest (hop ▸ he)
    refine ⟨rfl, rfl, rfl, rfl, rfl, rfl, rfl, rfl, rfl, fun x hx k hk => ?_, fun c hc => ?_,
      .inl ⟨rfl, rfl⟩⟩
    · rw [hd] at hx
      cases hx
      exact read_write_of_ne hm hk r
    · rw [hd] at hc
      cases hc
  · exact ⟨rfl, rfl, rfl, rfl, rfl, rfl, rfl, rfl, rfl, fun _ _ _ _ => rfl, fun _ _ => rfl,
      .inr ⟨rfl, rfl, rfl⟩⟩

/-- A resolved dest, and the memory after an `input`. -/
theorem input_dest {d : Param} (h : effect (.input d) s = .ok t) : ∃ addr : Nat,
    destParam s 1 d = .ok (addr : Int) ∧ (t.mem = s.mem ∨ ∃ v, t.mem = s.mem.write addr v) := by
  obtain ⟨x, hx, h⟩ := bind_eq_ok.1 h
  obtain ⟨n, -, h⟩ := bind_eq_ok.1 h
  obtain ⟨addr, rfl, -⟩ := destParam_eq_ok hx
  refine ⟨addr, hx, ?_⟩
  unfold receive at h
  cases hi : nextInput s <;> rw [hi] at h
  case value v =>
    obtain ⟨u, hu, h⟩ := bind_eq_ok.1 h
    obtain ⟨-, -, rfl⟩ := memWrite_eq_ok.1 hu
    cases h
    exact .inr ⟨v, by simp⟩
  case sentinel =>
    obtain ⟨u, hu, h⟩ := bind_eq_ok.1 h
    obtain ⟨-, -, rfl⟩ := memWrite_eq_ok.1 hu
    cases h
    exact .inr ⟨-1, rfl⟩
  case hold | gone => cases h; exact .inl rfl
  case notWired => cases h

/-- A pop takes from the seed, or from a channel with the seed left. -/
theorem popInput_seed_or_chans (s : State) : (popInput s).seed = s.seed ∨
    (popInput s).seed = s.seed.tail ∧ (popInput s).chans = s.chans := by
  rcases popInput_cases s with ⟨v, vs, hs, e⟩ | ⟨-, c, -, e⟩ | ⟨-, -, e⟩ <;> rw [e]
  · exact .inr ⟨by rw [hs]; rfl, rfl⟩
  · exact .inl rfl
  · exact .inl rfl

theorem popInput_chan_of_ne {c : Nat} (h : s.inEp.chan? ≠ some c) : (popInput s).chan c = s.chan c := by
  rcases popInput_cases s with ⟨v, vs, hs, e⟩ | ⟨-, d, hd, e⟩ | ⟨-, -, e⟩ <;> rw [e]
  · rfl
  · rw [State.chan_setChan, if_neg]
    rintro rfl
    exact h hd

/-- The registers and the seed after an `input`. -/
theorem input_keeps {d : Param} (h : Completes s (.input d) t) :
    t.rb = s.rb ∧ t.lastOut = s.lastOut ∧
    (t.seed = s.seed ∨ t.seed = s.seed.tail ∧ t.chans = s.chans) ∧
    (∀ c, s.inEp.chan? ≠ some c → t.chan c = s.chan c) ∧
    (t.status = s.status ∧ t.fault = s.fault ∧ t.haltCause = s.haltCause ∨
      t.status ≠ .running ∧ t.mem = s.mem ∧ t.pc = s.pc ∧ t.seed = s.seed ∧ t.chans = s.chans ∧
        t.idle = s.idle) := by
  cases h with
  | poll | hold =>
    exact ⟨rfl, rfl, .inl rfl, fun _ _ => rfl, .inl ⟨rfl, rfl, rfl⟩⟩
  | gone =>
    exact ⟨rfl, rfl, .inl rfl, fun _ _ => rfl, .inr ⟨by simp, rfl, rfl, rfl, rfl, rfl⟩⟩
  | receive =>
    refine ⟨by simp, by simp, ?_, fun c hc => ?_, .inl (by simp)⟩
    · exact popInput_seed_or_chans (s.setMem _)
    · exact popInput_chan_of_ne (s := s.setMem _) hc
  | store hi | jump hi => simp [Instr.opcode] at hi

/-- Settles O41: at most one store at the dest, at most one pop, or a fault that leaves all of it. -/
theorem inputFrame : Obligations.InputFrame := by
  intro s t d hm h
  rcases exec_eq_next.1 h with he | ⟨c, -, rfl⟩
  · obtain ⟨addr, hd, hmem⟩ := input_dest he
    have hwire := (effect_completes he).keepsWiring
    obtain ⟨hrb, hlast, hseed, hchan, hstatus⟩ := input_keeps (effect_completes he)
    refine ⟨hrb, hwire.inEp, hwire.outEp, hlast, hwire.cfg, hseed, hchan, fun x hx k hk => ?_,
      fun c hc => ?_, hstatus⟩
    · rw [hd] at hx
      cases hx
      rcases hmem with hmem | ⟨v, hmem⟩ <;> rw [hmem]
      exact read_write_of_ne hm hk v
    · rw [hd] at hc
      cases hc
  · exact ⟨rfl, rfl, rfl, rfl, rfl, .inl rfl, fun _ _ => rfl, fun _ _ _ _ => rfl, fun _ _ => rfl,
      .inr ⟨by simp, rfl, rfl, rfl, rfl, rfl⟩⟩

/-- What the instructions that store nothing leave. -/
theorem Completes.of_no_store {i : Instr} (h : Completes s i t) (hi : i.opcode ∈ [4, 5, 6, 9, 99]) :
    t.mem = s.mem ∧ t.seed = s.seed ∧ t.idle = s.idle := by
  cases h with
  | store ho =>
    simp only [List.mem_cons, List.not_mem_nil, or_false] at hi ho
    omega
  | receive | poll | hold | gone => simp [Instr.opcode] at hi
  | jump | base | halt | record | push | fail => exact ⟨rfl, rfl, rfl⟩

/-- What an `output` leaves of its port. -/
theorem Completes.output_port {a : Param} (h : Completes s (.output a) t) :
    (t.lastOut = s.lastOut ∨ t.chans = s.chans) ∧
      ∀ c, s.outEp.chan? ≠ some c → t.chan c = s.chan c := by
  cases h with
  | store hi | jump hi => simp [Instr.opcode] at hi
  | record => exact ⟨.inr rfl, fun _ _ => rfl⟩
  | fail => exact ⟨.inl rfl, fun _ _ => rfl⟩
  | push _ _ hep =>
    refine ⟨.inl rfl, fun c hc => getChan_setChan_ne ?_ s.chans _⟩
    rintro rfl
    exact hc (congrArg OutEp.chan? hep)

/-- A jump and `adjrel` leave the halt cause. -/
theorem Completes.haltCause {i : Instr} (h : Completes s i t) (hi : i.opcode ∈ [5, 6, 9]) :
    t.haltCause = s.haltCause := by
  cases h with
  | receive | poll | hold | gone | record | push | fail | halt => simp [Instr.opcode] at hi
  | store | jump | base => rfl

/-- Settles O42: what the completed instruction leaves, and a fault leaves all of it. -/
theorem nonStoringFrame : Obligations.NonStoringFrame := by
  intro s t a b
  refine ⟨fun i hi h => ?_, fun i hi h => ?_, fun i hi h => ?_, fun i hi h => ?_, fun h => ?_⟩
  · rcases exec_eq_next.1 h with he | ⟨c, -, rfl⟩
    · have hc := effect_completes he
      obtain ⟨hmem, hseed, hidle⟩ := hc.of_no_store (by
        simp only [List.mem_cons, List.not_mem_nil, or_false] at hi
        rcases hi with rfl | rfl | rfl | rfl | rfl <;> simp [Instr.opcode])
      obtain ⟨hfault, hstatus⟩ := hc.status
      exact ⟨hmem, hseed, hc.keepsWiring.inEp, hc.keepsWiring.outEp, hidle, hc.keepsWiring.cfg,
        hstatus.imp (fun e => ⟨e.1, hfault⟩) fun e => by simp [e]⟩
    · exact ⟨rfl, rfl, rfl, rfl, rfl, rfl, .inr (by simp)⟩
  · have hport : usesPort i = false := by
      simp only [List.mem_cons, List.not_mem_nil, or_false] at hi
      rcases hi with rfl | rfl | rfl | rfl <;> rfl
    rw [(otherInstructionsTouchNoPort i s t s hport h).1]
    exact ⟨rfl, rfl⟩
  · refine exec_rb ?_ h
    simp only [List.mem_cons, List.not_mem_nil, or_false] at hi
    rcases hi with rfl | rfl | rfl | rfl <;> simp [Instr.opcode]
  · rcases exec_eq_next.1 h with he | ⟨c, -, rfl⟩
    · refine (effect_completes he).haltCause ?_
      simp only [List.mem_cons, List.not_mem_nil, or_false] at hi
      rcases hi with rfl | rfl | rfl <;> simp [Instr.opcode]
    · rfl
  · rcases exec_eq_next.1 h with he | ⟨c, -, rfl⟩
    · exact (effect_completes he).output_port
    · exact ⟨.inl rfl, fun _ _ => rfl⟩

/-! ### A store seen by the next fetch -/

/-- The operation of each storing instruction gives its exact result. -/
theorem exists_op_of_resultOf {i : Instr} {a b d : Param} {x y r : Int}
    (hi : i ∈ [Instr.add a b d, .mul a b d, .lt a b d, .eq a b d]) (h : resultOf i x y = some r)
    (hr : IsWord s.cfg.wordBits r) :
    ∃ op, effect i s = binary op a b d s ∧ op s x y = .ok r := by
  simp only [List.mem_cons, List.not_mem_nil, or_false] at hi
  rcases hi with rfl | rfl | rfl | rfl <;> obtain rfl := Option.some.inj h
  · exact ⟨sumOp, rfl, chk_eq_ok.2 ⟨hr, rfl⟩⟩
  · exact ⟨productOp, rfl, chk_eq_ok.2 ⟨hr, rfl⟩⟩
  · refine ⟨lessOp, rfl, ?_⟩
    split_ifs with hlt
    · exact lessOp_of_lt hlt
    · exact lessOp_of_le (not_lt.1 hlt)
  · refine ⟨equalOp, rfl, ?_⟩
    split_ifs with he
    · exact equalOp_of_eq he
    · exact equalOp_of_ne he

/-- Settles O45: the first of the next four words is the one stored, the other three are as before. -/
theorem storeSeenByNextFetch : Obligations.StoreSeenByNextFetch := by
  intro s a b d x y r i hi hs hm hf ha hb hd hres hr hcap
  obtain ⟨op, hop, hval⟩ := exists_op_of_resultOf hi hres hr
  refine ⟨_, exec_binary_stores hop hf ha hb hd hval hcap, rfl, fun j hj => ?_⟩
  have h0 := hf.1
  have hpc : (s.pc + 4).toNat = s.pc.toNat + 4 := by omega
  have hwords : wordsAt (s.mem.write (s.pc.toNat + 4) r) (s.pc + 4).toNat =
      [r, s.mem.read (s.pc.toNat + 5), s.mem.read (s.pc.toNat + 6), s.mem.read (s.pc.toNat + 7)] := by
    simp [hpc, wordsAt, Memory.read_write hm, Nat.add_assoc]
  exact stepRunsDecodedInstruction _ j hs (by show 0 ≤ s.pc + 4; omega)
    ((congrArg (decode s.cfg.unusedMode) hwords).trans hj)

end Machine

end Sys2Proof


/-! PROOFS of the family `other`: reports, runs and the seed. -/

namespace Sys2Proof.Machine

variable {s t : State}

/-! ### Reports (60_exceptions R122) -/

theorem reportOf_of_usesPort_eq_false {i : Instr} (h : usesPort i = false) :
    reportOf i s = .continued := by
  cases i with
  | input | output => cases h
  | add | mul | jnz | jz | lt | eq | adjrel | halt => rfl

theorem input_of_hold {d : Param} (he : effect (.input d) s = .ok t) (hn : nextInput s = .hold) :
    t = s := by
  obtain ⟨_, -, -, h⟩ := input_eq_ok he
  rwa [hn] at h

/-- Settles O46: a machine that comes out running completed its instruction, and reports as it. -/
theorem tickReports : Obligations.TickReports := by
  intro s t i hs h hf
  have hafter := after_of_step h
  refine ⟨fun ht => report_of_halted (hafter ▸ ht), fun r ht hr => ?_, fun ht => ?_⟩
  · rw [report_of_faulted (hafter ▸ ht), hafter, hr]
    rfl
  · rw [report_of_running (hafter ▸ ht) hf]
    have he : effect i s = .ok t := by
      obtain ⟨j, hj, he⟩ := effect_of_step hs h (by simp [ht])
      obtain rfl : i = j := Except.ok.inj (hf.symm.trans hj)
      exact he
    refine ⟨?_, ?_, ?_, reportOf_of_usesPort_eq_false⟩
    · rintro a rfl
      obtain ⟨v, hv, -⟩ := bind_eq_ok.1 he
      exact ⟨v, readParam_eq_ok hv, by rw [reportOf, hv]⟩
    · rintro d rfl hn
      exact ⟨if_pos hn, input_of_hold he hn⟩
    · rintro d rfl hn
      exact if_neg hn

/-- A tick that needs input changes nothing. -/
theorem after_of_needsInput (h : report s = .needsInput) : after s = s := by
  obtain ⟨d, hf, hn⟩ := eq_input_of_report_needsInput h
  by_cases hs : s.status = .running
  · have ht : (after s).status ≠ .faulted := by
      intro ht
      rw [report_of_faulted ht] at h
      cases h
    obtain ⟨i, hi, he⟩ := effect_of_step hs (step_after s) ht
    obtain rfl : .input d = i := Except.ok.inj (hf.symm.trans hi)
    exact input_of_hold he hn
  · exact after_of_terminal hs

/-! ### Runs (60_exceptions R123) -/

/-- The result with which a tick's report ends a run. -/
def stopOf (pol : BlockingRunPolicy) : TickResult → Option RunResult
  | .halted => some .halted
  | .faulted c => some (.faulted c)
  | .needsInput => if pol = .returnBlocked then some .blocked else none
  | .continued | .producedOutput _ => none

theorem run_of_stop {pol : BlockingRunPolicy} {r : RunResult} (h : stopOf pol (report s) = some r)
    (fuel : Nat) : run pol (fuel + 1) s = (some r, after s) := by
  unfold run
  generalize report s = rep at h ⊢
  cases rep with
  | halted | faulted c => cases h; rfl
  | needsInput =>
    cases pol with
    | returnBlocked => cases h; rfl
    | wait => cases h
  | continued | producedOutput v => cases h

theorem run_of_go {pol : BlockingRunPolicy} (h : stopOf pol (report s) = none) (fuel : Nat) :
    run pol (fuel + 1) s = run pol fuel (after s) := by
  conv_lhs => unfold run
  generalize report s = rep at h ⊢
  cases rep with
  | halted | faulted c => cases h
  | needsInput =>
    cases pol with
    | returnBlocked => cases h
    | wait => rfl
  | continued | producedOutput v => rfl

/-- Of the reports of a completed instruction only the need of input ends a run. -/
theorem stopOf_reportOf_eq_some {pol : BlockingRunPolicy} {i : Instr} {r : RunResult}
    (h : stopOf pol (reportOf i s) = some r) :
    pol = .returnBlocked ∧ r = .blocked ∧ reportOf i s = .needsInput := by
  have hne : reportOf i s ≠ .halted ∧ ∀ c, reportOf i s ≠ .faulted c := by
    cases i with
    | input d =>
      rw [reportOf]
      split_ifs <;> simp
    | output a => cases hv : readParam s 1 a <;> simp [reportOf, hv]
    | add | mul | jnz | jz | lt | eq | adjrel | halt => simp [reportOf]
  cases hr : reportOf i s <;> rw [hr] at h
  case halted => exact absurd hr hne.1
  case faulted c => exact absurd hr (hne.2 c)
  case needsInput =>
    cases pol with
    | returnBlocked => exact ⟨rfl, (Option.some.inj h).symm, rfl⟩
    | wait => cases h
  case continued | producedOutput => cases h

/-- What the state shows after the tick that ends a run. -/
theorem status_of_stop {pol : BlockingRunPolicy} {r : RunResult}
    (h : stopOf pol (report s) = some r) :
    match r with
    | .halted => (after s).status = .halted
    | .faulted c => (after s).status = .faulted ∧ c = (after s).fault.map FaultRecord.code
    | .blocked => pol = .returnBlocked ∧ report s = .needsInput := by
  cases hst : (after s).status with
  | halted =>
    rw [report_of_halted hst] at h
    cases h
    rfl
  | faulted =>
    rw [report_of_faulted hst] at h
    cases h
    exact ⟨rfl, rfl⟩
  | running =>
    cases hf : fetchInstr s with
    | ok i =>
      rw [report_of_running hst hf] at h
      obtain ⟨hpol, rfl, hr⟩ := stopOf_reportOf_eq_some h
      exact ⟨hpol, (report_of_running hst hf).trans hr⟩
    | error c => simp [report, hst, hf, stopOf] at h

/-- A report that ends a run is the report of the next tick, too. -/
theorem report_after_of_stop {pol : BlockingRunPolicy} {r : RunResult}
    (h : stopOf pol (report s) = some r) : report (after s) = report s := by
  have hs := status_of_stop h
  cases hst : (after s).status with
  | halted =>
    rw [report_of_halted hst, report_of_halted]
    rw [after_of_terminal (by simp [hst]), hst]
  | faulted =>
    have hsame : after (after s) = after s := after_of_terminal (by simp [hst])
    rw [report_of_faulted hst, report_of_faulted (by rw [hsame, hst]), hsame]
  | running =>
    cases r with
    | halted | faulted => simp [hst] at hs
    | blocked => rw [after_of_needsInput hs.2]

theorem report_afterN_of_stop {pol : BlockingRunPolicy} {r : RunResult}
    (h : stopOf pol (report s) = some r) (k : Nat) : report (afterN k s) = report s := by
  induction k generalizing s with
  | zero => rfl
  | succ k ih =>
    have hnext := report_after_of_stop h
    exact (ih (hnext.symm ▸ h)).trans hnext

/-- A run comes back with the first report that ends it. -/
theorem run_of_stop_at {pol : BlockingRunPolicy} {r : RunResult} {k fuel : Nat} (hk : k < fuel)
    (h : stopOf pol (report (afterN k s)) = some r) : (run pol fuel s).1 = some r := by
  induction fuel generalizing s k with
  | zero => omega
  | succ fuel ih =>
    cases hs : stopOf pol (report s) with
    | some q =>
      rw [report_afterN_of_stop hs, hs] at h
      rw [run_of_stop hs, h]
    | none =>
      rw [run_of_go hs]
      cases k with
      | zero => exact absurd (hs.symm.trans h) (by simp)
      | succ k => exact ih (Nat.lt_of_succ_lt_succ hk) h

/-- What a run that has made `n` of its `fuel` ticks comes back with. -/
def RunShows (pol : BlockingRunPolicy) (fuel n : Nat) (s : State) : Option RunResult → Prop
  | none => n = fuel
  | some .halted => (afterN n s).status = .halted
  | some (.faulted c) => (afterN n s).status = .faulted ∧
      c = (afterN n s).fault.map FaultRecord.code
  | some .blocked => pol = .returnBlocked ∧ report (afterN n s) = .needsInput

theorem runShows_of_stop {pol : BlockingRunPolicy} {r : RunResult} (fuel : Nat)
    (h : stopOf pol (report s) = some r) : RunShows pol fuel 1 s (some r) := by
  have hs := status_of_stop h
  cases r with
  | halted | faulted c => exact hs
  | blocked => exact ⟨hs.1, (report_after_of_stop h).trans hs.2⟩

theorem RunShows.succ {pol : BlockingRunPolicy} {fuel n : Nat} {r : Option RunResult}
    (h : RunShows pol fuel n (after s) r) : RunShows pol (fuel + 1) (n + 1) s r := by
  match r with
  | none => exact congrArg (· + 1) h
  | some .halted | some (.faulted _) | some .blocked => exact h

/-- A run has made so many ticks, and comes back with what they show. -/
theorem exists_runShows (pol : BlockingRunPolicy) (fuel : Nat) (s : State) :
    ∃ n, n ≤ fuel ∧ (run pol fuel s).2 = afterN n s ∧ RunShows pol fuel n s (run pol fuel s).1 := by
  induction fuel generalizing s with
  | zero => exact ⟨0, le_rfl, rfl, rfl⟩
  | succ fuel ih =>
    cases hs : stopOf pol (report s) with
    | some r =>
      rw [run_of_stop hs]
      exact ⟨1, by omega, rfl, runShows_of_stop _ hs⟩
    | none =>
      rw [run_of_go hs]
      obtain ⟨n, hn, hstate, hr⟩ := ih (after s)
      exact ⟨n + 1, by omega, hstate, hr.succ⟩

/-- Settles O48: by induction on the bound, over the reports that end a run. -/
theorem runStopsWhereTicksDo : Obligations.RunStopsWhereTicksDo := by
  intro pol fuel s
  refine ⟨?_, fun k hk => ⟨fun h => run_of_stop_at hk (by rw [h]; rfl),
    fun c h => run_of_stop_at hk (by rw [h]; rfl),
    fun h hpol => run_of_stop_at hk (by rw [h, hpol]; rfl)⟩⟩
  obtain ⟨n, hn, hstate, hr⟩ := exists_runShows pol fuel s
  refine ⟨n, hn, hstate, ?_⟩
  revert hr
  rcases (run pol fuel s).1 with _ | _ | _ | c <;> exact id

/-- Settles O47: a held `input` completes in the state it began in, so each tick of a run is the same. -/
theorem holdChangesNothing : Obligations.HoldChangesNothing := by
  intro s d c addr hs hf hfit hd hseed hep hq hl
  have hn : nextInput s = .hold := nextInput_eq_hold.2 ⟨hseed, c, hep, hq, hl⟩
  have hstep : step s = .next s := by
    rw [step_of_fetchInstr_eq_ok hs hf, exec_input_of_hold hfit hd hn]
  have hafter := after_of_step hstep
  have hreport : report s = .needsInput := by
    rw [report_of_running (hafter.symm ▸ hs) hf]
    exact if_pos hn
  refine ⟨hstep, hreport, fun fuel => ?_, fun fuel => ?_⟩
  · rw [run_of_stop (r := .blocked) (by rw [hreport]; rfl), hafter]
  · induction fuel with
    | zero => rfl
    | succ fuel ih => rw [run_of_go (by rw [hreport]; rfl), hafter, ih]

/-! ### The seed (60_exceptions R121) -/

/-- Settles O49: `NextInput` looks at the seed before the endpoint. -/
theorem preSeedAppends : Obligations.PreSeedAppends := by
  intro s vs
  refine ⟨rfl, fun v rest h => ?_⟩
  have hseed : (preSeed vs s).seed = v :: rest := h
  rw [popInput_of_seed hseed]
  exact ⟨nextInput_of_seed hseed, rfl, rfl⟩

end Sys2Proof.Machine


/-! PROOFS of the family `other`: several machines, and the Switch. -/

namespace Sys2Proof.Machine

variable {sys sys' : System} {k : Nat} {sl : Slot}

/-! ### `patch` (60_exceptions R127) -/

theorem System.modify_of_slot {f : State → Except HostError State} (h : sys.slot? k = some sl) :
    sys.modify k f = f (sys.view sl) >>= fun t => .ok (sys.put k t sl.started) := by
  simp only [System.modify, h]
  cases f (sys.view sl) <;> rfl

section Patch

variable {a v : Int} (h : sys.slot? k = some sl) (hs : sl.started = false)
  (ha : IsWord sl.st.cfg.wordBits a) (hv : IsWord sl.st.cfg.wordBits v)
include h hs ha hv

theorem System.patch_of_memWrite_eq_error {c : FaultCause}
    (hw : memWrite (sys.view sl) a v = .error c) : sys.patch k a v = .error (.patchFailed c) := by
  have hword : IsWord (sys.view sl).cfg.wordBits a ∧ IsWord (sys.view sl).cfg.wordBits v := ⟨ha, hv⟩
  rw [System.patch, System.fresh_eq_ok.2 ⟨h, hs⟩, ok_bind, System.modify_of_slot h]
  simp only [if_pos hword, Machine.patch, hw, error_bind]

theorem System.patch_of_memWrite_eq_ok {t : State} (hw : memWrite (sys.view sl) a v = .ok t) :
    sys.patch k a v = .ok (sys.put k t sl.started) := by
  have hword : IsWord (sys.view sl).cfg.wordBits a ∧ IsWord (sys.view sl).cfg.wordBits v := ⟨ha, hv⟩
  rw [System.patch, System.fresh_eq_ok.2 ⟨h, hs⟩, ok_bind, System.modify_of_slot h]
  simp only [if_pos hword, Machine.patch, hw, ok_bind]

end Patch

/-- Settles O53: what is left of `patch`, before the first tick, is the `MemWrite`. -/
theorem patchBeforeFirstTickOnly : Obligations.PatchBeforeFirstTickOnly := by
  intro sys k sl a v h ha hv
  refine ⟨fun hs => ?_, fun hs hn => ?_, fun hs h0 hc => ?_, fun hs h0 hc hch => ?_⟩
  · rw [System.patch, System.fresh_of_started h hs, error_bind]
  · exact System.patch_of_memWrite_eq_error h hs ha hv (memWrite_eq_error.2 (.inl ⟨hn, rfl⟩))
  · exact System.patch_of_memWrite_eq_error h hs ha hv (memWrite_eq_error.2 (.inr ⟨h0, hc, rfl⟩))
  · rw [System.patch_of_memWrite_eq_ok h hs ha hv (memWrite_eq_ok.2 ⟨h0, hc, rfl⟩)]
    have hd := (System.slot?_eq_some.1 h).2
    simp only [System.put, System.view, State.setMem, State.setChans, ← hch, ← hd]

/-! ### `drop` (60_exceptions R124) -/

theorem getChan_dropSender (c d : Nat) (cs : List Channel) : getChan (dropSender c cs) d =
    if d = c then { getChan cs d with senderAlive := false } else getChan cs d := by
  rw [dropSender, getChan_setChan]
  split_ifs with h
  · rw [h]
  · rfl

theorem getChan_dropReceiver (c d : Nat) (cs : List Channel) : getChan (dropReceiver c cs) d =
    if d = c then { getChan cs d with receiverAlive := false } else getChan cs d := by
  rw [dropReceiver, getChan_setChan]
  split_ifs with h
  · rw [h]
  · rfl

/-- A release clears the two flags of the owner's halves, and keeps every queue. -/
theorem getChan_releaseEndpoints (i : InEp) (o : OutEp) (cs : List Channel) (d : Nat) :
    getChan (releaseEndpoints i o cs) d = { getChan cs d with
      senderAlive := if o.chan? = some d then false else (getChan cs d).senderAlive
      receiverAlive := if i.chan? = some d then false else (getChan cs d).receiverAlive } := by
  unfold releaseEndpoints
  cases i.chan? <;> cases o.chan? <;>
    simp only [getChan_dropSender, getChan_dropReceiver, Option.some.injEq, reduceCtorEq, if_false,
      eq_comm (a := d)]
  all_goals split_ifs <;> rfl

theorem System.slot?_of_dropped (h : sys.slots[k]? = some sl) (hd : sl.dropped = true) :
    sys.slot? k = none := by
  rw [System.slot?, h]
  simp [hd]

/-- Settles O55: the dropped machine has no live slot, and its endpoints are released. -/
theorem dropReleasesEndpoints : Obligations.DropReleasesEndpoints := by
  intro sys k sl h
  obtain ⟨hk, -⟩ := System.slot?_eq_some.1 h
  have hlen : k < sys.slots.length := (List.getElem?_eq_some_iff.1 hk).1
  refine ⟨_, by rw [System.drop, h], ?_, fun j hj => ?_, fun c => ?_⟩
  · have hgone := List.getElem?_set_self (a := { sl with dropped := true }) hlen
    rw [tickAt, System.slot?_of_dropped hgone rfl]
  · exact List.getElem?_set_ne hj.symm
  · have hc := getChan_releaseEndpoints sl.st.inEp sl.st.outEp sys.chans c
    exact ⟨(congrArg Channel.q hc).trans rfl, (congrArg Channel.senderAlive hc).trans rfl,
      (congrArg Channel.receiverAlive hc).trans rfl⟩

/-! ### A tick of one machine -/

/-- The system after a tick of a live machine: its state is the one after the tick of its view. -/
theorem System.afterTick_of_slot (h : sys.slot? k = some sl) :
    sys.afterTick k = sys.put k (after (sys.view sl)) true := by
  rw [System.afterTick, tickAt, h]
  rfl

/-- Settles O56: a tick writes one slot, and of the channels what `KeepsWiring` allows. -/
theorem tickLeavesOthersAlone : Obligations.TickLeavesOthersAlone := by
  intro sys sys' k sl r h ht
  rw [tickAt, h] at ht
  obtain ⟨rfl, rfl⟩ := Prod.ext_iff.1 (Option.some.inj ht)
  exact ⟨fun j hj => List.getElem?_set_ne hj.symm,
    fun c hi ho => (step_keepsWiring (step_after (sys.view sl))).foreign c hi ho⟩

/-! ### The Switch (60_exceptions R137 to R139) -/

theorem Net.queue_setQueue (n : Net) (c : Nat) (q : List Int) (d : Nat) :
    (n.setQueue c q).queue d = if d = c then q else n.queue d := by
  rw [Net.queue, Net.setQueue, getChan_setChan]
  split_ifs <;> rfl

theorem Net.queue_setQueue_same (n : Net) (c : Nat) (q : List Int) : (n.setQueue c q).queue c = q := by
  rw [Net.queue_setQueue, if_pos rfl]

theorem Net.queue_setQueue_ne {c d : Nat} (h : d ≠ c) (n : Net) (q : List Int) :
    (n.setQueue c q).queue d = n.queue d := by
  rw [Net.queue_setQueue, if_neg h]

theorem cin_ne_cout (d i : Nat) : cin d ≠ cout i := by
  unfold cin cout
  omega

theorem Net.route_of_packet {n : Net} {i : Nat} {d x y : Int} {rest : List Int}
    (h : n.queue (cout i) = d :: x :: y :: rest) : n.route i =
      if d = 255 then .ok { n.setQueue (cout i) rest with mailbox := some (x, y) }
      else if 0 ≤ d ∧ d < (n.size : Int) then .ok ((n.setQueue (cout i) rest).deliver d.toNat (x, y))
      else .error (.badDestination d) := by
  simp only [Net.route, h]
  rfl

theorem Net.route_of_short {n : Net} {i : Nat} (h : (n.queue (cout i)).length < 3) :
    n.route i = .ok n := by
  unfold Net.route
  split
  · rename_i hq
    simp only [hq, List.length_cons] at h
    omega
  · rfl

/-- Settles O58: the routing takes three values off machine `i`'s queue, then delivers. -/
theorem switchRoutesPackets : Obligations.SwitchRoutesPackets := by
  intro n i
  refine ⟨Net.route_of_short, fun d x y rest hq => ?_⟩
  rw [Net.route_of_packet hq]
  refine ⟨fun hd => ⟨_, if_pos hd, rfl, n.queue_setQueue_same _ _, fun c hc => ?_⟩,
    fun hd h0 hlt => ⟨_, (if_neg hd).trans (if_pos ⟨h0, hlt⟩), rfl, ?_, ?_, fun c hc hc' => ?_⟩,
    fun hd hout => (if_neg hd).trans (if_neg (by omega))⟩
  · exact Net.queue_setQueue_ne hc n rest
  · exact (Net.queue_setQueue_same _ _ _).trans
      (congrArg (· ++ [x, y]) (Net.queue_setQueue_ne (cin_ne_cout _ _) n rest))
  · exact (Net.queue_setQueue_ne (cin_ne_cout _ _).symm _ _).trans (n.queue_setQueue_same _ _)
  · exact (Net.queue_setQueue_ne hc' _ _).trans (Net.queue_setQueue_ne hc n rest)

theorem Net.recover_of_repeat {n : Net} {p p' : Packet} (hm : n.mailbox = some p)
    (hi : n.injected = some p') (h : n.natCompare.part p' = n.natCompare.part p) :
    n.recover = .error (.returned (n.natCompare.part p)) := by
  simp [Net.recover, hm, hi, h]

theorem Net.recover_of_new {n : Net} {p : Packet} (hm : n.mailbox = some p)
    (h : ∀ p', n.injected = some p' → n.natCompare.part p' ≠ n.natCompare.part p) :
    n.recover = .ok { n.deliver 0 p with injected := some p } := by
  cases hi : n.injected with
  | none => simp [Net.recover, hm, hi]
  | some p' => simp [Net.recover, hm, hi, h p' hi]

/-- Settles O59: a pass is its ticks, then the recovery of a quiescent network. -/
theorem quiescentNetworkRecovers : Obligations.QuiescentNetworkRecovers := by
  refine ⟨fun n e h => ?_, fun n m h => ?_⟩
  · rw [Net.pass, Net.tickAll, h]
  · have hpass : n.pass = if m.quiescent then m.recover else .ok m := by
      rw [Net.pass, Net.tickAll, h]
    rw [hpass]
    refine ⟨fun hq => if_neg (Net.quiescent_eq_true.not.2 hq), fun hm => ?_, fun p hq hm => ?_⟩
    · rw [Net.recover, hm]
      exact ite_self _
    · rw [if_pos (Net.quiescent_eq_true.2 hq)]
      refine ⟨fun p' hi hp => Net.recover_of_repeat hm hi hp, fun hnew =>
        ⟨_, Net.recover_of_new hm hnew, m.queue_setQueue_same _ _, rfl, hm, rfl, fun c hc => ?_, rfl⟩⟩
      exact Net.queue_setQueue_ne hc m _

end Sys2Proof.Machine


/-! PROOFS of the family `other`: the wiring of machines. -/

namespace Sys2Proof.Machine

variable {sys sys' : System} {k c : Nat}

/-! ### Who owns a half (10_state R31) -/

theorem attachInput_inEp (d : Discipline) (c : Nat) (s : State) :
    (attachInput d c s).inEp.chan? = some c := by
  cases d <;> rfl

theorem attachInput_outEp (d : Discipline) (c : Nat) (s : State) :
    (attachInput d c s).outEp = s.outEp := by
  cases d <;> rfl

/-- The slots after a receive half is given: the receiver has it, its send half and the other slots are
as before. -/
theorem System.slot_of_giveReceiver {d : Discipline} {l : Nat} {sl : Slot}
    (h : (sys.giveReceiver k d c).slots[l]? = some sl) : ∃ sl₀, sys.slots[l]? = some sl₀ ∧
      sl.st.outEp = sl₀.st.outEp ∧
      (l = k ∧ sl.st.inEp.chan? = some c ∨ l ≠ k ∧ sl.st.inEp = sl₀.st.inEp) := by
  rw [System.giveReceiver_slots] at h
  split_ifs at h with hk
  · obtain ⟨sl₀, h₀, rfl⟩ := Option.map_eq_some_iff.1 h
    exact ⟨sl₀, h₀, attachInput_outEp d c sl₀.st, .inl ⟨hk.symm, attachInput_inEp d c sl₀.st⟩⟩
  · exact ⟨sl, h, rfl, .inr ⟨Ne.symm hk, rfl⟩⟩

theorem System.slot_of_giveSender {l : Nat} {sl : Slot}
    (h : (sys.giveSender k c).slots[l]? = some sl) : ∃ sl₀, sys.slots[l]? = some sl₀ ∧
      sl.st.inEp = sl₀.st.inEp ∧
      (l = k ∧ sl.st.outEp.chan? = some c ∨ l ≠ k ∧ sl.st.outEp = sl₀.st.outEp) := by
  rw [System.giveSender_slots] at h
  split_ifs at h with hk
  · obtain ⟨sl₀, h₀, rfl⟩ := Option.map_eq_some_iff.1 h
    exact ⟨sl₀, h₀, rfl, .inl ⟨hk.symm, rfl⟩⟩
  · exact ⟨sl, h, rfl, .inr ⟨Ne.symm hk, rfl⟩⟩

/-- A receive half that no machine owns may be given away. -/
theorem System.OneOwner.giveReceiver (h : sys.OneOwner) (d : Discipline) (hc : c < sys.chans.length)
    (hfree : ∀ sl ∈ sys.slots, sl.st.inEp.chan? ≠ some c) : (sys.giveReceiver k d c).OneOwner where
  created sl hsl e he := by
    obtain ⟨l, hl⟩ := List.mem_iff_getElem?.1 hsl
    obtain ⟨sl₀, h₀, hout, hin⟩ := System.slot_of_giveReceiver hl
    have hm := List.mem_of_getElem? h₀
    rw [hout] at he
    rcases hin with ⟨-, hin⟩ | ⟨-, hin⟩ <;> rw [hin] at he
    · rcases he with he | he
      · exact Option.some.inj he ▸ hc
      · exact h.created sl₀ hm e (.inr he)
    · exact h.created sl₀ hm e he
  receivers i j si sj e hi hj hei hej := by
    obtain ⟨si₀, hi₀, -, hin⟩ := System.slot_of_giveReceiver hi
    obtain ⟨sj₀, hj₀, -, hjn⟩ := System.slot_of_giveReceiver hj
    rcases hin with ⟨rfl, hin⟩ | ⟨-, hin⟩ <;> rcases hjn with ⟨rfl, hjn⟩ | ⟨-, hjn⟩
    · rfl
    · obtain rfl : c = e := Option.some.inj (hin.symm.trans hei)
      exact absurd (hjn ▸ hej) (hfree sj₀ (List.mem_of_getElem? hj₀))
    · obtain rfl : c = e := Option.some.inj (hjn.symm.trans hej)
      exact absurd (hin ▸ hei) (hfree si₀ (List.mem_of_getElem? hi₀))
    · exact h.receivers i j si₀ sj₀ e hi₀ hj₀ (hin ▸ hei) (hjn ▸ hej)
  senders i j si sj e hi hj hei hej := by
    obtain ⟨si₀, hi₀, hio, -⟩ := System.slot_of_giveReceiver hi
    obtain ⟨sj₀, hj₀, hjo, -⟩ := System.slot_of_giveReceiver hj
    exact h.senders i j si₀ sj₀ e hi₀ hj₀ (hio ▸ hei) (hjo ▸ hej)

/-- A send half that no machine owns may be given away. -/
theorem System.OneOwner.giveSender (h : sys.OneOwner) (hc : c < sys.chans.length)
    (hfree : ∀ sl ∈ sys.slots, sl.st.outEp.chan? ≠ some c) : (sys.giveSender k c).OneOwner where
  created sl hsl e he := by
    obtain ⟨l, hl⟩ := List.mem_iff_getElem?.1 hsl
    obtain ⟨sl₀, h₀, hin, hout⟩ := System.slot_of_giveSender hl
    have hm := List.mem_of_getElem? h₀
    rw [hin] at he
    rcases hout with ⟨-, hout⟩ | ⟨-, hout⟩ <;> rw [hout] at he
    · rcases he with he | he
      · exact h.created sl₀ hm e (.inl he)
      · exact Option.some.inj he ▸ hc
    · exact h.created sl₀ hm e he
  receivers i j si sj e hi hj hei hej := by
    obtain ⟨si₀, hi₀, hii, -⟩ := System.slot_of_giveSender hi
    obtain ⟨sj₀, hj₀, hji, -⟩ := System.slot_of_giveSender hj
    exact h.receivers i j si₀ sj₀ e hi₀ hj₀ (hii ▸ hei) (hji ▸ hej)
  senders i j si sj e hi hj hei hej := by
    obtain ⟨si₀, hi₀, -, hio⟩ := System.slot_of_giveSender hi
    obtain ⟨sj₀, hj₀, -, hjo⟩ := System.slot_of_giveSender hj
    rcases hio with ⟨rfl, hio⟩ | ⟨-, hio⟩ <;> rcases hjo with ⟨rfl, hjo⟩ | ⟨-, hjo⟩
    · rfl
    · obtain rfl : c = e := Option.some.inj (hio.symm.trans hei)
      exact absurd (hjo ▸ hej) (hfree sj₀ (List.mem_of_getElem? hj₀))
    · obtain rfl : c = e := Option.some.inj (hjo.symm.trans hej)
      exact absurd (hio ▸ hei) (hfree si₀ (List.mem_of_getElem? hi₀))
    · exact h.senders i j si₀ sj₀ e hi₀ hj₀ (hio ▸ hei) (hjo ▸ hej)

theorem System.newChan_length (sys : System) : sys.newChan.chans.length = sys.chans.length + 1 := by
  simp [System.newChan]

theorem System.OneOwner.newChan (h : sys.OneOwner) : sys.newChan.OneOwner where
  created sl hsl e he := by
    rw [System.newChan_length]
    exact Nat.lt_succ_of_lt (h.created sl hsl e he)
  receivers := h.receivers
  senders := h.senders

/-- No machine owns a half of a channel that is yet to be created. -/
theorem System.OneOwner.not_owned (h : sys.OneOwner) {sl : Slot} (hsl : sl ∈ sys.slots) :
    sl.st.inEp.chan? ≠ some sys.chans.length ∧ sl.st.outEp.chan? ≠ some sys.chans.length :=
  ⟨fun he => (h.created sl hsl _ (.inl he)).false, fun he => (h.created sl hsl _ (.inr he)).false⟩

/-- `link` gives the two halves of a new channel, which no one owns. -/
theorem System.OneOwner.link (h : sys.OneOwner) {i j : Nat} {d : Discipline}
    (hl : sys.link i j d = .ok sys') : sys'.OneOwner := by
  obtain ⟨si, sj, -, -, -, -, rfl⟩ := System.link_eq_ok.1 hl
  have hlen : sys.chans.length < sys.newChan.chans.length := by
    rw [System.newChan_length]
    exact Nat.lt_succ_self _
  refine (h.newChan.giveSender hlen fun sl hsl => (h.not_owned hsl).2).giveReceiver d hlen ?_
  intro sl hsl
  obtain ⟨l, hl⟩ := List.mem_iff_getElem?.1 hsl
  obtain ⟨sl₀, h₀, hin, -⟩ := System.slot_of_giveSender hl
  rw [hin]
  exact (h.not_owned (List.mem_of_getElem? h₀)).1

/-! ### `link` (60_exceptions R125) -/

theorem System.link_of_started {i j : Nat} {si sj : Slot} (d : Discipline)
    (hi : sys.slot? i = some si) (hj : sys.slot? j = some sj)
    (h : si.started = true ∨ sj.started = true) : sys.link i j d = .error .alreadyStarted := by
  rw [System.link]
  cases hs : si.started with
  | true => rw [System.fresh_of_started hi hs, error_bind]
  | false =>
    rw [System.fresh_eq_ok.2 ⟨hi, hs⟩, ok_bind,
      System.fresh_of_started hj (h.resolve_left (by simp [hs])), error_bind]

theorem System.link_of_wired {i j : Nat} {si sj : Slot} (d : Discipline)
    (hi : sys.fresh i = .ok si) (hj : sys.fresh j = .ok sj)
    (h : si.st.outEp ≠ .absent ∨ sj.st.inEp ≠ .absent) : sys.link i j d = .error .alreadyWired := by
  rw [System.link, hi, ok_bind, hj, ok_bind, if_pos h]

/-- Settles O54: `link` looks at both machines, then gives away the halves of a new channel; the other
wirings give away a half that the host has, which no machine owns. -/
theorem linkMakesOneChannel : Obligations.LinkMakesOneChannel := by
  refine ⟨fun sys i j si sj d hi hj => ⟨System.link_of_started d hi hj, fun hsi hsj h => ?_,
      fun hsi hsj ho hin => ?_⟩,
    fun sys sys' i j c d h hw => ?_, fun sys sys' k l c sl d hl => ⟨fun he hw => ?_, fun he hw => ?_⟩⟩
  · exact System.link_of_wired d (System.fresh_eq_ok.2 ⟨hi, hsi⟩) (System.fresh_eq_ok.2 ⟨hj, hsj⟩) h
  · refine System.link_eq_ok.2 ⟨si, sj, System.fresh_eq_ok.2 ⟨hi, hsi⟩,
      System.fresh_eq_ok.2 ⟨hj, hsj⟩, ho, hin, ?_⟩
    cases d <;> rfl
  · rcases hw with hw | hw | hw
    · exact h.link hw
    · obtain ⟨sl, -, -, hhost, rfl⟩ := System.wireInput_eq_ok.1 hw
      obtain ⟨hc, hfree, -⟩ := System.hostHasReceiver_eq_true.1 hhost
      exact h.giveReceiver d hc hfree
    · obtain ⟨sl, -, -, hhost, rfl⟩ := System.wireOutput_eq_ok.1 hw
      obtain ⟨hc, hfree, -⟩ := System.hostHasSender_eq_true.1 hhost
      exact h.giveSender hc hfree
  · obtain ⟨-, -, -, hhost, -⟩ := System.wireInput_eq_ok.1 hw
    exact (System.hostHasReceiver_eq_true.1 hhost).2.1 sl (List.mem_of_getElem? hl) he
  · obtain ⟨-, -, -, hhost, -⟩ := System.wireOutput_eq_ok.1 hw
    exact (System.hostHasSender_eq_true.1 hhost).2.1 sl (List.mem_of_getElem? hl) he

end Sys2Proof.Machine


/-! PROOFS of the family `other`: ticks of two machines. -/

namespace Sys2Proof.Machine

variable {s : State} {cs cs' : List Channel} {i : Instr}

/-! ### What a tick does to the channels -/

/-- The table with the channel `c` changed by `f`. -/
def updChan (cs : List Channel) (c : Nat) (f : Channel → Channel) : List Channel :=
  setChan cs c (f (getChan cs c))

theorem getChan_updChan (cs : List Channel) (c : Nat) (f : Channel → Channel) (d : Nat) :
    getChan (updChan cs c f) d = if d = c then f (getChan cs c) else getChan cs d :=
  getChan_setChan cs c d _

theorem updChan_updChan (cs : List Channel) (c : Nat) (f g : Channel → Channel) :
    updChan (updChan cs c f) c g = updChan cs c (g ∘ f) := by
  rw [updChan, updChan, setChan_setChan, getChan_setChan_same]
  rfl

theorem updChan_comm {c d : Nat} (h : c ≠ d) (cs : List Channel) (f g : Channel → Channel) :
    updChan (updChan cs c f) d g = updChan (updChan cs d g) c f := by
  simp only [updChan, getChan_setChan_ne h, getChan_setChan_ne h.symm, setChan_comm h]

/-- What a tick does to the channels: nothing, one pop, or one push. -/
inductive ChanAct where
  | none
  | pop (c : Nat)
  | push (c : Nat) (v : Int)

def ChanAct.apply : ChanAct → List Channel → List Channel
  | .none, cs => cs
  | .pop c, cs => updChan cs c Channel.pop
  | .push c v, cs => updChan cs c (Channel.push · v)

/-- The machine owns the half that the act needs, and a pop finds a value. -/
def ChanAct.Allowed (s : State) (cs : List Channel) : ChanAct → Prop
  | .none => True
  | .pop c => s.inEp.chan? = some c ∧ (getChan cs c).q ≠ []
  | .push c _ => s.outEp.chan? = some c

/-- Both halves of every channel are alive. -/
def AllAlive (cs : List Channel) : Prop :=
  ∀ c, (getChan cs c).senderAlive = true ∧ (getChan cs c).receiverAlive = true

theorem ChanAct.apply_allAlive (h : AllAlive cs) (act : ChanAct) : AllAlive (act.apply cs) := by
  intro d
  cases act with
  | none => exact h d
  | pop c | push c v =>
    rw [ChanAct.apply, getChan_updChan]
    split_ifs
    · exact h c
    · exact h d

/-- What `s` sees of the channels `cs` it sees of `cs'`: they are alive, and a value it could take is
still first. -/
structure SeesAlike (s : State) (cs cs' : List Channel) : Prop where
  alive : AllAlive cs'
  head : ∀ c v, s.inEp.chan? = some c → (getChan cs c).q.head? = some v →
    (getChan cs' c).q.head? = some v

theorem SeesAlike.refl (h : AllAlive cs) (s : State) : SeesAlike s cs cs :=
  ⟨h, fun _ _ _ hv => hv⟩

/-- Acts of two machines that own no half in common can be taken in either order. -/
theorem ChanAct.apply_comm {s t : State} {a b : ChanAct} (ha : a.Allowed s cs) (hb : b.Allowed t cs)
    (hin : ∀ c, s.inEp.chan? = some c → t.inEp.chan? ≠ some c)
    (hout : ∀ c, s.outEp.chan? = some c → t.outEp.chan? ≠ some c) :
    b.apply (a.apply cs) = a.apply (b.apply cs) := by
  have pop_push (c d : Nat) (v : Int) (hq : (getChan cs c).q ≠ []) :
      (ChanAct.push d v).apply ((ChanAct.pop c).apply cs) =
        (ChanAct.pop c).apply ((ChanAct.push d v).apply cs) := by
    simp only [ChanAct.apply]
    by_cases h : c = d
    · subst h
      rw [updChan_updChan, updChan_updChan]
      simp only [updChan, Function.comp_apply, Channel.push, Channel.pop, List.tail_append_of_ne_nil hq]
    · exact updChan_comm h cs _ _
  cases a <;> cases b
  case none.none | none.pop | none.push | pop.none | push.none => rfl
  case pop.pop c d =>
    have hne : c ≠ d := by
      rintro rfl
      exact hin c ha.1 hb.1
    exact updChan_comm hne cs _ _
  case pop.push c d v => exact pop_push c d v ha.2
  case push.pop c v d => exact (pop_push d c v hb.2).symm
  case push.push c v d w =>
    have hne : c ≠ d := by
      rintro rfl
      exact hout c ha hb
    exact updChan_comm hne cs (Channel.push · v) (Channel.push · w)

/-- The act of one machine leaves what the other sees. -/
theorem ChanAct.seesAlike {s t : State} {a : ChanAct} (halive : AllAlive cs) (ha : a.Allowed s cs)
    (hin : ∀ c, s.inEp.chan? = some c → t.inEp.chan? ≠ some c) : SeesAlike t cs (a.apply cs) where
  alive := a.apply_allAlive halive
  head d v hd hv := by
    cases a with
    | none => exact hv
    | pop c =>
      rw [ChanAct.apply, getChan_updChan, if_neg]
      · exact hv
      · rintro rfl
        exact hin d ha.1 hd
    | push c w =>
      rw [ChanAct.apply, getChan_updChan]
      split_ifs with h
      · subst h
        show ((getChan cs d).q ++ [w]).head? = some v
        rw [List.head?_append, hv]
        rfl
      · exact hv

/-! ### A tick as a state and an act -/

/-- Over every table that `s` sees alike with `cs`, `f` gives one state, with the same act done to the
table. -/
def TicksAs (s : State) (cs : List Channel) (f : List Channel → State) : Prop :=
  ∃ (u : State) (act : ChanAct), act.Allowed s cs ∧
    ∀ cs', SeesAlike s cs cs' → f cs' = u.setChans (act.apply cs')

theorem TicksAs.of_none {f : List Channel → State} (u : State)
    (h : ∀ cs', SeesAlike s cs cs' → f cs' = u.setChans cs') : TicksAs s cs f :=
  ⟨u, .none, trivial, h⟩

theorem TicksAs.congr {f g : List Channel → State} (h : TicksAs s cs g)
    (hfg : ∀ cs', SeesAlike s cs cs' → f cs' = g cs') : TicksAs s cs f := by
  obtain ⟨u, act, ha, hu⟩ := h
  exact ⟨u, act, ha, fun cs' hs => (hfg cs' hs).trans (hu cs' hs)⟩

/-- The state an effect leads to. -/
def outcome (s : State) : Except FaultCause State → State
  | .ok t => t
  | .error c => takeFault c s

theorem after_of_fetchInstr_eq_ok (hs : s.status = .running) (hf : fetchInstr s = .ok i) :
    after s = outcome s (effect i s) := by
  refine after_of_step ((step_of_fetchInstr_eq_ok hs hf).trans ?_)
  rw [exec_eq_commit]
  cases effect i s <;> rfl

/-- An instruction that does not use the port does nothing to the channels. -/
theorem ticksAs_of_no_port (s : State) (cs : List Channel) (hi : usesPort i = false) :
    TicksAs s cs fun cs' => outcome (s.setChans cs') (effect i (s.setChans cs')) := by
  refine .of_none (outcome s (effect i s)) fun cs' _ => ?_
  have h : Tied _ (effect i s) (effect i (s.setChans cs')) :=
    (withPortsOf_lockstep (s.setChans cs') s hi).effect_tied
  cases he : effect i s with
  | ok t =>
    rw [he] at h
    obtain ⟨t', ht', rfl⟩ := h.of_ok
    simp only [ht', outcome]
    rw [(effect_completes he).eq_withPortsOf hi]
    rfl
  | error c =>
    rw [he] at h
    simp only [h.of_error, outcome]
    rfl

/-- A bind whose first part does not see the channels. -/
theorem TicksAs.bind {α : Type} (x : Except FaultCause α)
    {f : α → List Channel → Except FaultCause State}
    (h : ∀ a, x = .ok a → TicksAs s cs fun cs' => outcome (s.setChans cs') (f a cs')) :
    TicksAs s cs fun cs' => outcome (s.setChans cs') (x >>= fun a => f a cs') := by
  cases x with
  | ok a => exact h a rfl
  | error c => exact .of_none (takeFault c s) fun _ _ => rfl

theorem ticksAs_output (s : State) (cs : List Channel) (a : Param) :
    TicksAs s cs fun cs' => outcome (s.setChans cs') (effect (.output a) (s.setChans cs')) := by
  refine TicksAs.bind (readParam s 1 a) fun v _ => TicksAs.bind (nextPc s 2) fun n _ => ?_
  cases ho : s.outEp with
  | absent =>
    exact .of_none ((s.setLastOut v).setPc n) fun cs' _ => send_of_absent (s := s.setChans cs') ho
  | channel c =>
    exact ⟨s.setPc n, .push c v, congrArg OutEp.chan? ho, fun cs' h =>
      send_of_alive (s := s.setChans cs') ho (h.alive c).2⟩

/-- A receive of a value: the store is made, or faults, whatever the channels; the pop is the act. -/
theorem ticksAs_receive_value {act : ChanAct} {addr n v : Int} {f : State → State}
    (ha : act.Allowed s cs)
    (hn : ∀ cs', SeesAlike s cs cs' → nextInput (s.setChans cs') = .value v)
    (hpop : ∀ cs', SeesAlike s cs cs' → ∀ m,
      popInput ((s.setChans cs').setMem m) = (f (s.setMem m)).setChans (act.apply cs')) :
    TicksAs s cs fun cs' => outcome (s.setChans cs') (receive addr n (s.setChans cs')) := by
  cases hw : memWrite s addr v with
  | ok t =>
    obtain ⟨h0, hc, -⟩ := memWrite_eq_ok.1 hw
    refine ⟨((f (s.setMem (s.mem.write addr.toNat v))).setIdle 0).setPc n, act, ha, fun cs' h => ?_⟩
    have hw' := (memWrite_eq_ok (s := s.setChans cs') (v := v)).2 ⟨h0, hc, rfl⟩
    simp only [receive, hn cs' h, hw', ok_bind, hpop cs' h, outcome]
    rfl
  | error c =>
    refine .of_none (takeFault c s) fun cs' h => ?_
    have hw' := (memWrite_eq_error (s := s.setChans cs') (v := v)).2 ((memWrite_eq_error (s := s)).1 hw)
    simp only [receive, hn cs' h, hw', error_bind, outcome]
    rfl

/-- A receive that does not hold: a value of the seed, the head of the queue, or nothing wired. -/
theorem ticksAs_receive {addr n : Int} (halive : AllAlive cs) (hep : s.inEp.notPolling = true)
    (hhold : nextInput (s.setChans cs) ≠ .hold) :
    TicksAs s cs fun cs' => outcome (s.setChans cs') (receive addr n (s.setChans cs')) := by
  cases hn : nextInput (s.setChans cs) with
  | value v =>
    rcases nextInput_eq_value.1 hn with ⟨vs, hseed⟩ | ⟨hseed, c, vs, hc, hq⟩
    · exact ticksAs_receive_value (act := .none) (f := (State.setSeed · vs)) trivial
        (fun cs' _ => nextInput_of_seed (s := s.setChans cs') hseed)
        fun cs' _ m => popInput_of_seed (s := (s.setChans cs').setMem m) hseed
    · have hne : (getChan cs c).q ≠ [] := by
        rw [show (getChan cs c).q = v :: vs from hq]
        exact List.cons_ne_nil v vs
      refine ticksAs_receive_value (v := v) (act := .pop c) (f := id) ⟨hc, hne⟩ (fun cs' h => ?_)
        fun cs' _ m => popInput_of_wired (s := (s.setChans cs').setMem m) hseed hc
      have hhead := h.head c v hc (by rw [show (getChan cs c).q = v :: vs from hq]; rfl)
      obtain ⟨vs', hq'⟩ := List.head?_eq_some_iff.1 hhead
      exact nextInput_of_queue (s := s.setChans cs') hseed hc hq'
  | sentinel =>
    obtain ⟨-, c, hc, -⟩ := nextInput_eq_sentinel.1 hn
    have hc' : s.inEp = .polling c := hc
    rw [hc'] at hep
    cases hep
  | hold => exact absurd hn hhold
  | gone =>
    obtain ⟨-, c, -, -, hl⟩ := nextInput_eq_gone.1 hn
    exact absurd (hl.symm.trans (halive c).1) (by decide)
  | notWired =>
    refine .of_none (takeFault ⟨.inputNotWired, .none⟩ s) fun cs' _ => ?_
    have hw := nextInput_eq_notWired.1 hn
    have hn' := (nextInput_eq_notWired (s := s.setChans cs')).2 hw
    simp only [receive, hn', outcome]
    rfl

theorem ticksAs_input {d : Param} (halive : AllAlive cs) (hep : s.inEp.notPolling = true)
    (hs : s.status = .running) (hf : fetchInstr s = .ok (.input d))
    (hr : report (s.setChans cs) ≠ .needsInput) :
    TicksAs s cs fun cs' => outcome (s.setChans cs') (effect (.input d) (s.setChans cs')) := by
  refine TicksAs.bind (destParam s 1 d) fun addr hd => TicksAs.bind (nextPc s 2) fun n hn => ?_
  refine ticksAs_receive halive hep fun hhold => hr ?_
  have hd' : destParam (s.setChans cs) 1 d = .ok addr := hd
  have hn' : nextPc (s.setChans cs) 2 = .ok n := hn
  have he : effect (.input d) (s.setChans cs) = .ok (s.setChans cs) := by
    rw [effect, hd', ok_bind, hn', ok_bind, receive, hhold]
  have hafter : after (s.setChans cs) = s.setChans cs := by
    rw [after_of_fetchInstr_eq_ok (s := s.setChans cs) hs hf, he]
    rfl
  rw [report_of_running (s := s.setChans cs) (by rw [hafter]; exact hs) hf]
  exact if_pos hhold

/-- A tick that does not hold, over live channels and no polling endpoint. -/
theorem ticksAs_after (halive : AllAlive cs) (hep : s.inEp.notPolling = true)
    (hr : report (s.setChans cs) ≠ .needsInput) : TicksAs s cs fun cs' => after (s.setChans cs') := by
  by_cases hs : s.status = .running
  · cases hf : fetchInstr s with
    | error c =>
      exact .of_none (takeFault c s) fun cs' _ =>
        after_of_step (step_of_fetchInstr_eq_error (s := s.setChans cs') hs hf)
    | ok i =>
      refine TicksAs.congr ?_ fun cs' _ => after_of_fetchInstr_eq_ok (s := s.setChans cs') hs hf
      cases hi : usesPort i with
      | false => exact ticksAs_of_no_port s cs hi
      | true =>
        cases i with
        | input d => exact ticksAs_input halive hep hs hf hr
        | output a => exact ticksAs_output s cs a
        | add | mul | jnz | jz | lt | eq | adjrel | halt => cases hi
  · exact .of_none s fun cs' _ => after_of_terminal (s := s.setChans cs') hs

/-! ### Two ticks -/

variable {sys : System}

theorem System.slot?_put_ne {j k : Nat} (h : j ≠ k) (t : State) (b : Bool) :
    (sys.put k t b).slot? j = sys.slot? j := by
  have hs : (sys.put k t b).slots[j]? = sys.slots[j]? := List.getElem?_set_ne h.symm
  rw [System.slot?, System.slot?, hs]

/-- Two ticks, the states and the acts of both known. -/
theorem System.afterTick_afterTick {i j : Nat} {si sj : Slot} {ui uj : State} {ai aj : ChanAct}
    (hij : i ≠ j) (hi : sys.slot? i = some si) (hj : sys.slot? j = some sj)
    (hti : after (sys.view si) = ui.setChans (ai.apply sys.chans))
    (htj : after (sj.st.setChans (ai.apply sys.chans)) =
      uj.setChans (aj.apply (ai.apply sys.chans))) :
    (sys.afterTick i).afterTick j =
      { slots := (sys.slots.set i ⟨ui.setChans [], true, false⟩).set j ⟨uj.setChans [], true, false⟩
        chans := aj.apply (ai.apply sys.chans) } := by
  have hj' : (sys.afterTick i).slot? j = some sj := by
    rw [System.afterTick_of_slot hi, System.slot?_put_ne hij.symm, hj]
  rw [System.afterTick_of_slot hj', System.afterTick_of_slot hi, hti]
  exact congrArg (System.put _ j · true) htj

/-- Settles O57: each tick is a state and an act on the channels; neither act changes what the other
machine sees, and the acts commute. -/
theorem ticksOfTwoInstancesCommute : Obligations.TicksOfTwoInstancesCommute := by
  intro sys i j si sj hij hi hj hap hpi hpj hri hrj
  have halive : AllAlive sys.chans := hap.alive
  obtain ⟨ui, ai, hai, hui⟩ := ticksAs_after halive hpi hri
  obtain ⟨uj, aj, haj, huj⟩ := ticksAs_after halive hpj hrj
  have hin : ∀ c, sj.st.inEp.chan? = some c → si.st.inEp.chan? ≠ some c :=
    fun c h h' => hap.inputs c h' h
  rw [System.afterTick_afterTick hij hi hj (hui _ (.refl halive _))
      (huj _ (ChanAct.seesAlike halive hai hap.inputs)),
    System.afterTick_afterTick hij.symm hj hi (huj _ (.refl halive _))
      (hui _ (ChanAct.seesAlike halive haj hin)),
    ChanAct.apply_comm hai haj hap.inputs hap.outputs, List.set_comm _ _ hij]

end Sys2Proof.Machine
